-- ==== Sys2Proof/Word.lean ====
section
/-! DEFINITION. The widths the spec gives its values (00_scope.md R20): `u8`, `u16`, `u32` and the
64-bit host-memory address (R12). -/

namespace Sys2Proof

/-- `u8`: a byte of host memory, and a field element of GF(2^8) (40_field_tables.md R130). -/
abbrev Byte := BitVec 8

/-- `u16`: the width of a `LOSS` register (10_state.md R39). -/
abbrev Half := BitVec 16

/-- `u32`: the width of a command word (30_encoding.md R100) and of `ND` (10_state.md R39). -/
abbrev Word := BitVec 32

/-- A host-memory byte address, `ADDR_W = 64` bits (00_scope.md R12); also the width of `SIZE` and
of every `VEC` register (10_state.md R39). -/
abbrev Addr := BitVec 64

/-- The reduction polynomial: bit `k` is the coefficient of `x^k`, 9 bits (00_scope.md R10). -/
abbrev Poly := BitVec 9

end Sys2Proof
end

