-- ==== Sys2Proof/Config.lean ====
section
/-! DEFINITION. What an implementation fixes (00_scope.md section 5) and the free values. The
parameters with one value are constants here; the parameters the spec leaves open or gives only a
default for are data of the state (`Sys2Proof.Machine.Params` in Machine/State.lean), so that a claim
about every state holds for every value of them. A free value is a constant with no body. -/

namespace Sys2Proof.Config

/-- `PARITY_MAX = 6` (00_scope.md R8, 90_conflicts.md C4). -/
abbrev parityMax : Nat := 6

/-- `ADDR_W = 64` (00_scope.md R12). -/
abbrev addrW : Nat := 64

/-- The number of columns of the default `GEN`, hence the default of `ND_MAX`:
`256 - (PARITY_MAX - 1) = 251` (00_scope.md R9, 40_field_tables.md R139). -/
abbrev defaultNdMax : Nat := 251

/-- The default of `SIZE_GRANULE` (00_scope.md R13). PRESUMED by the spec itself (93, G3); log entry 13. -/
abbrev defaultSizeGranule : Nat := 64

/-- The default of `BLOCK_ALIGN` (00_scope.md R13). PRESUMED by the spec itself (93, G3); log entry 13. -/
abbrev defaultBlockAlign : Nat := 64

/-- The default of `ST_ND` (00_scope.md R19). -/
abbrev defaultStNd : Nat := 16

/-- The default of `ST_SIZE` (00_scope.md R19). -/
abbrev defaultStSize : Nat := 256

/-- The default of `POLY`, `x^8 + x^4 + x^3 + x^2 + 1` (00_scope.md R10). PRESUMED by the spec itself
(93, G1); log entry 11. -/
abbrev defaultPoly : Poly := 0x11D#9

/-- FREE VALUE. The answer of the allocation collaborator to the `n`-th request (44_selftest.md R232,
93_implementation_defined.md I13 "any value"). Log entry 8. -/
opaque allocDraw (n : Nat) : Bool

/-- FREE VALUE. `KGEN_v` (00_scope.md R17): byte `i` of parity row `j` that the generation function of
variant `v` returns for `nd` data blocks of `size` bytes, `np` parity blocks and the data `data[d][i]`.
Nothing is assumed of it but, where a claim says so, `KernelConforms`. Log entry 7. -/
opaque kgen (v nd np size : Nat) (data : List (List Byte)) (j i : Nat) : Byte

/-- FREE VALUE. `KREC_v` (00_scope.md R17): byte `i` of block `k` that the recovery function of variant
`v` returns for the loss set `loss` and the surviving blocks `blk[k][i]` (a lost block is the empty
list: 20_memory.md R78, R79). Log entry 7. -/
opaque krec (v nd np size : Nat) (loss : List Nat) (blk : List (List Byte)) (k i : Nat) : Byte

/-- FREE VALUE. What `ginv(a)` is where `a` has no inverse in the table; the spec calls `ginv(0x00)`
undefined and no rule evaluates it (40_field_tables.md R135). Log entry 18. -/
opaque noInverse (a : Byte) : Byte

/-- FREE VALUE. Element `b` of what `Solve(A, r)` returns for a singular `A`, where the spec gives no
result (43_recovery.md R206). Only `SELFTEST` can meet it, under a `GEN` without the MDS property
(44_selftest.md R239). Log entry 18. -/
opaque unsolved (coeffs : List (List Byte)) (rhs : List Byte) (b : Nat) : Byte

end Sys2Proof.Config
end

