-- ==== Sys2Proof/Syntax.lean ====
section
/-! DEFINITION. The commands (30_encoding.md R103), one constructor per row of opcode_table.json, and
what a host agent's program is made of: host actions (R109) and pseudo-instructions (R110). -/

namespace Sys2Proof

/-- A decoded command: `OP` is the constructor, the operands are `A` and `B` as 30_encoding.md R107
names them. Field elements and the mode code are bytes; counts and indices are natural numbers, which
`Instr.wf` keeps below 256 (R102, R109). -/
inductive Instr where
  /-- `INIT` (42_registry_control.md R182). -/
  | init
  /-- `SETMODE mode` (42_registry_control.md R186). -/
  | setmode (mode : Byte)
  /-- `GFMUL a, b` (40_field_tables.md R142). -/
  | gfmul (a b : Byte)
  /-- `GFCOEF j, d` (40_field_tables.md R143). -/
  | gfcoef (j d : Nat)
  /-- `GENREF np` (41_generation.md R161). -/
  | genref (np : Nat)
  /-- `GEN np` (41_generation.md R162). -/
  | gen (np : Nat)
  /-- `REC np, nr` (43_recovery.md R210). -/
  | recover (np nr : Nat)
  /-- `SELFTEST` (44_selftest.md R230). -/
  | selftest
  deriving DecidableEq, Repr

/-- A register a host agent can name in `RD` (30_encoding.md R109; 10_state.md R39). How many `VEC` registers
there are depends on `GEN` (00_scope.md R9), so `VEC` takes any index and `ReadReg.wf` bounds it. -/
inductive ReadReg where
  | nd
  | size
  | vec (k : Nat)
  | loss (k : Fin Config.parityMax)
  | status
  | result
  /-- Write only: a read of it is refused as `F_ILLEGAL(read CMD)` (60_exceptions.md R252). -/
  | cmd
  deriving DecidableEq, Repr

/-- A host action (30_encoding.md R109). `WR` is one constructor per writable register, since a host
write stores the whole register at its own width (10_state.md R39; log entry 23). -/
inductive HostAction where
  /-- `WR ND, v`. -/
  | wrNd (v : BitVec 32)
  /-- `WR SIZE, v`. -/
  | wrSize (v : Addr)
  /-- `WR VEC[k], v`. -/
  | wrVec (k : Nat) (v : Addr)
  /-- `WR LOSS[k], v`. -/
  | wrLoss (k : Fin Config.parityMax) (v : Half)
  /-- `RD reg`. -/
  | rd (r : ReadReg)
  /-- A write of the word `w` to `CMD` (R101); the word may be illegal. -/
  | cmd (w : Word)
  /-- `MW addr, byte`. -/
  | mw (a : Addr) (v : Byte)
  /-- `MR addr`. -/
  | mr (a : Addr)
  deriving DecidableEq, Repr

/-- A pseudo-instruction (30_encoding.md R110), its operands as an assembler reads them. -/
inductive Pseudo where
  /-- `SETBLOCKS nd, size, a0, ..., a(n-1)`. -/
  | setblocks (nd size : Nat) (addrs : List Nat)
  /-- `SETLOSS l0, ..., l(r-1)`. -/
  | setloss (loss : List Nat)
  /-- `RECOVER np, l0, ..., l(r-1)`. -/
  | recoverSet (np : Nat) (loss : List Nat)
  /-- `FILL addr, n, byte`. -/
  | fill (addr n : Nat) (byte : Byte)
  /-- `ERASE k`. -/
  | erase (k : Nat)
  deriving DecidableEq, Repr

end Sys2Proof
end

