-- ==== Sys2Proof/WellFormed.lean ====
section
/-! DEFINITION. What an assembler accepts (30_encoding.md R109: it "refuses an operand that does not
fit in 8 bits"), and the pseudo-instructions whose operands fit the registers they write (R110,
10_state.md R39). -/

namespace Sys2Proof

/-- Every count and index operand fits in 8 bits (30_encoding.md R102, R109). A value that fits but
that the command does not accept is still well formed (R106). -/
def Instr.wf : Instr → Bool
  | .init => true
  | .setmode _ => true
  | .gfmul _ _ => true
  | .gfcoef j d => decide (j < 256) && decide (d < 256)
  | .genref np => decide (np < 256)
  | .gen np => decide (np < 256)
  | .recover np nr => decide (np < 256) && decide (nr < 256)
  | .selftest => true

/-- The register is one of those of a context with `vecs` registers `VEC[k]` (10_state.md R39). -/
def ReadReg.wf (vecs : Nat) : ReadReg → Bool
  | .nd => true
  | .size => true
  | .vec k => decide (k < vecs)
  | .loss _ => true
  | .status => true
  | .result => true
  | .cmd => true

/-- The register the action names, if it names one, is one of those of a context with `vecs` registers
`VEC[k]` (30_encoding.md R109, 10_state.md R39). -/
def HostAction.wf (vecs : Nat) : HostAction → Bool
  | .wrNd _ => true
  | .wrSize _ => true
  | .wrVec k _ => decide (k < vecs)
  | .wrLoss _ _ => true
  | .rd r => r.wf vecs
  | .cmd _ => true
  | .mw _ _ => true
  | .mr _ => true

/-- Every operand of the pseudo-instruction fits the register or address it is written to, in a context
with `vecs` registers `VEC[k]` (30_encoding.md R110; 10_state.md R39). -/
def Pseudo.wf (vecs : Nat) : Pseudo → Bool
  | .setblocks nd size addrs =>
      decide (nd < 2 ^ 32) && decide (size < 2 ^ 64) && decide (addrs.length ≤ vecs) &&
        addrs.all fun a => decide (a < 2 ^ 64)
  | .setloss loss =>
      decide (loss.length ≤ Config.parityMax) && loss.all fun l => decide (l < 2 ^ 16)
  | .recoverSet np loss =>
      decide (np < 256) && decide (loss.length ≤ Config.parityMax) &&
        loss.all fun l => decide (l < 2 ^ 16)
  | .fill addr n _ => decide (addr + n ≤ 2 ^ 64)
  | .erase k => decide (k < vecs)

end Sys2Proof
end

