-- ==== Sys2Proof/Decode.lean ====
section
/-! DEFINITION. The command word (30_encoding.md R100), decoding (R104, R105, R107), the opcode table
(R103) and the encoder. Decoding is total on words: a word with no row is rejected with the reason. -/

namespace Sys2Proof

/-- Why a word decodes to `ILLEGAL` (30_encoding.md R105). -/
inductive IllegalWord where
  /-- The opcode is not in the table. -/
  | opcode
  /-- `RSV` is not 0. -/
  | reserved
  /-- `A` is not 0 where the table says "must be 0". -/
  | operandA
  /-- `B` is not 0 where the table says "must be 0". -/
  | operandB
  deriving DecidableEq, Repr

/-- What a word decodes to: a command or `ILLEGAL` (30_encoding.md R104). -/
inductive Decoded where
  | ok (i : Instr)
  | illegal (why : IllegalWord)
  deriving DecidableEq, Repr

/-- `OP = w[7:0]` (30_encoding.md R100). -/
def opField (w : Word) : Byte := w.extractLsb' 0 8

/-- `A = w[15:8]` (30_encoding.md R100). -/
def aField (w : Word) : Byte := w.extractLsb' 8 8

/-- `B = w[23:16]` (30_encoding.md R100). -/
def bField (w : Word) : Byte := w.extractLsb' 16 8

/-- `RSV = w[31:24]` (30_encoding.md R100). -/
def rsvField (w : Word) : Byte := w.extractLsb' 24 8

/-- Refuse a word whose `B` is not 0 (a "must be 0" of 30_encoding.md R103). -/
def needB0 (w : Word) (i : Instr) : Decoded :=
  if bField w = 0 then .ok i else .illegal .operandB

/-- Refuse a word whose `A` or `B` is not 0 (30_encoding.md R103). -/
def needAB0 (w : Word) (i : Instr) : Decoded :=
  if aField w = 0 then needB0 w i else .illegal .operandA

/-- `Decode(w)` (30_encoding.md R104, R105, R107): the opcode picks the row, its "must be 0" fields
are checked, and the operands are read from `A` and `B`. -/
def decode (w : Word) : Decoded :=
  if rsvField w = 0 then
    if opField w = 0x01 then needAB0 w .init
    else if opField w = 0x02 then needB0 w (.setmode (aField w))
    else if opField w = 0x10 then .ok (.gfmul (aField w) (bField w))
    else if opField w = 0x11 then .ok (.gfcoef (aField w).toNat (bField w).toNat)
    else if opField w = 0x20 then needB0 w (.genref (aField w).toNat)
    else if opField w = 0x21 then needB0 w (.gen (aField w).toNat)
    else if opField w = 0x30 then .ok (.recover (aField w).toNat (bField w).toNat)
    else if opField w = 0x40 then needAB0 w .selftest
    else .illegal .opcode
  else .illegal .reserved

/-- The opcode of a command (30_encoding.md R103). -/
def Instr.opcode : Instr → Byte
  | .init => 0x01
  | .setmode _ => 0x02
  | .gfmul _ _ => 0x10
  | .gfcoef _ _ => 0x11
  | .genref _ => 0x20
  | .gen _ => 0x21
  | .recover _ _ => 0x30
  | .selftest => 0x40

/-- The operand `A` of a command, 0 where the table says "must be 0" (30_encoding.md R103, R107). -/
def Instr.operandA : Instr → Byte
  | .init => 0
  | .setmode mode => mode
  | .gfmul a _ => a
  | .gfcoef j _ => BitVec.ofNat 8 j
  | .genref np => BitVec.ofNat 8 np
  | .gen np => BitVec.ofNat 8 np
  | .recover np _ => BitVec.ofNat 8 np
  | .selftest => 0

/-- The operand `B` of a command, 0 where the table says "must be 0" (30_encoding.md R103, R107). -/
def Instr.operandB : Instr → Byte
  | .init => 0
  | .setmode _ => 0
  | .gfmul _ b => b
  | .gfcoef _ d => BitVec.ofNat 8 d
  | .genref _ => 0
  | .gen _ => 0
  | .recover _ nr => BitVec.ofNat 8 nr
  | .selftest => 0

/-- The word with fields `RSV`, `B`, `A`, `OP` from the top (30_encoding.md R100). -/
def wordOf (rsv b a op : Byte) : Word := (rsv ++ b ++ a ++ op).cast rfl

/-- The word of a command (30_encoding.md R100, R103). -/
def encode (i : Instr) : Word := wordOf 0 i.operandB i.operandA i.opcode

/-- A row of the match and mask table (30_encoding.md R103). -/
structure OpcodeRow where
  mnemonic : String
  pattern : Word
  mask : Word
  deriving DecidableEq, Repr

/-- The match and mask table (30_encoding.md R103, opcode_table.json). -/
def opcodeTable : List OpcodeRow :=
  [⟨"INIT", 0x00000001, 0xFFFFFFFF⟩, ⟨"SETMODE", 0x00000002, 0xFFFF00FF⟩,
   ⟨"GFMUL", 0x00000010, 0xFF0000FF⟩, ⟨"GFCOEF", 0x00000011, 0xFF0000FF⟩,
   ⟨"GENREF", 0x00000020, 0xFFFF00FF⟩, ⟨"GEN", 0x00000021, 0xFFFF00FF⟩,
   ⟨"REC", 0x00000030, 0xFF0000FF⟩, ⟨"SELFTEST", 0x00000040, 0xFFFFFFFF⟩]

/-- A row matches a word when `(w AND mask) = match` (30_encoding.md R104). -/
def OpcodeRow.hits (r : OpcodeRow) (w : Word) : Bool := decide (w &&& r.mask = r.pattern)

/-- The mnemonic of a command (30_encoding.md R103). -/
def Instr.mnemonic : Instr → String
  | .init => "INIT"
  | .setmode _ => "SETMODE"
  | .gfmul _ _ => "GFMUL"
  | .gfcoef _ _ => "GFCOEF"
  | .genref _ => "GENREF"
  | .gen _ => "GEN"
  | .recover _ _ => "REC"
  | .selftest => "SELFTEST"

/-- The word whose low `nbits` bits are those of `w`, every bit above them 0. A command is one word
that is never fetched from memory (20_memory.md R87), so no byte order arises. -/
def tableWord (nbits w : Nat) : Word := BitVec.ofNat 32 (w % 2 ^ nbits)

/-- The command the decoder reads from a word numbered as opcode_table.json numbers it. -/
def decodeTableWord (nbits w : Nat) : Option Instr :=
  match decode (tableWord nbits w) with
  | .ok i => some i
  | .illegal _ => none

end Sys2Proof
end

