-- ==== Sys2Proof/Machine/Field.lean ====
section
/-! DEFINITION. GF(2^8) (40_field_tables.md R130 to R139): multiplication modulo a polynomial, the
multiplication table, the inverse, the irreducibility check of R137 and the default generator table. -/

namespace Sys2Proof.Machine

/-- A table of `n` entries, entry `k` being `f k`. -/
def tabulate {α : Type} (n : Nat) (f : Nat → α) : Vector α n :=
  ⟨((List.range n).map f).toArray, by simp⟩

/-- `gsum`: the exclusive or of a sequence, `0x00` for the empty one (40_field_tables.md R131). -/
def gsum (l : List Byte) : Byte := l.foldr (· ^^^ ·) 0

/-- The first loop of `gfmul_poly`: the product as polynomials over GF(2), 15 bits
(40_field_tables.md R132). -/
def polyMul (a b : Byte) : BitVec 15 :=
  (List.range 8).foldl (fun p k => if b.getLsbD k then p ^^^ (a.setWidth 15 <<< k) else p) 0

/-- The second loop of `gfmul_poly`: bits 14 down to 8 are cleared in turn (40_field_tables.md R132). -/
def polyReduce (poly : Poly) (p : BitVec 15) : Byte :=
  ([14, 13, 12, 11, 10, 9, 8].foldl
    (fun p k => if p.getLsbD k then p ^^^ (poly.setWidth 15 <<< (k - 8)) else p) p).setWidth 8

/-- `gfmul_poly(a, b)` (40_field_tables.md R132). -/
def gfmulPoly (poly : Poly) (a b : Byte) : Byte := polyReduce poly (polyMul a b)

/-- The remainder of the polynomial `p` (below `2^9`) by `q`, both with bit `k` the coefficient of
`x^k` (40_field_tables.md R130). -/
def polyMod (p q : Nat) : Nat :=
  [8, 7, 6, 5, 4, 3, 2, 1, 0].foldl
    (fun r k => if q.log2 ≤ k ∧ r.testBit k then r ^^^ (q <<< (k - q.log2)) else r) p

/-- `POLY` has degree 8 and no divisor of degree 1 to 4, so it is irreducible over GF(2)
(40_field_tables.md R137). -/
def polyIrreducible (poly : Poly) : Bool :=
  poly.getLsbD 8 && (List.range' 2 30).all fun q => polyMod poly.toNat q != 0

/-- The type of `MUL`, indexed `MUL[a][b]` (10_state.md R33). -/
abbrev MulTable := Vector (Vector Byte 256) 256

/-- The type of `GEN` and `GEN_T`, `PARITY_MAX` rows indexed `GEN_T[j][d]` (10_state.md R34). The number of
columns is `ND_MAX`, which a model takes from its `GEN` (00_scope.md R9). -/
structure GenTable where
  ndMax : Nat
  rows : Vector (Vector Byte ndMax) Config.parityMax
  deriving DecidableEq, Repr

/-- `MUL[a][b]`. -/
def mulAt (t : MulTable) (a b : Byte) : Byte := (t[a.toNat]'a.isLt)[b.toNat]'b.isLt

/-- `GEN_T[j][d]`, if the table has that entry (40_field_tables.md R143). -/
def coefAt? (t : GenTable) (j d : Nat) : Option Byte := t.rows[j]?.bind (·[d]?)

/-- `GEN_T[j][d]`; every rule reads inside the table (40_field_tables.md R140). -/
def coefAt (t : GenTable) (j d : Nat) : Byte := (coefAt? t j d).getD 0

/-- The whole table `INIT` writes: `MUL[a][b] = gfmul_poly(a, b)` (40_field_tables.md R134). -/
def mulTable (poly : Poly) : MulTable :=
  tabulate 256 fun a => tabulate 256 fun b => gfmulPoly poly (BitVec.ofNat 8 a) (BitVec.ofNat 8 b)

/-- The `b` with `mul a b = 0x01`, if there is one; `ginv(a)` when `mul` is the multiplication of a
field and `a ≠ 0` (40_field_tables.md R135). -/
def findInverse (mul : Byte → Byte → Byte) (a : Byte) : Option Byte :=
  ((List.range 256).map (BitVec.ofNat 8)).find? fun b => mul a b == 0x01

/-- `ginv(a)` (40_field_tables.md R135); a free value where there is no inverse. -/
def ginv (mul : Byte → Byte → Byte) (a : Byte) : Byte :=
  (findInverse mul a).getD (Config.noInverse a)

/-- Entry `GEN[j][d]` of the spec's default table, an extended Cauchy matrix: row 0 all ones, then
`ginv(x_j ⊕ y_d)` with `x_j = j - 1`, `y_d = d + PARITY_MAX - 1` (40_field_tables.md R139). -/
def defaultCoef (poly : Poly) (j d : Nat) : Byte :=
  if j = 0 then 0x01
  else ginv (gfmulPoly poly)
    (BitVec.ofNat 8 (j - 1) ^^^ BitVec.ofNat 8 (d + Config.parityMax - 1))

/-- The default of the parameter `GEN` (00_scope.md R11, 40_field_tables.md R139). -/
def defaultGen (poly : Poly) : GenTable where
  ndMax := Config.defaultNdMax
  rows := tabulate Config.parityMax fun j => tabulate Config.defaultNdMax fun d => defaultCoef poly j d

end Sys2Proof.Machine
end

