-- ==== Sys2Proof/Machine/State.lean ====
section
/-! DEFINITION. The state of the engine (10_state.md R30 to R48) as plain data, with what one
deterministic step needs beside it: the host agents' programs, whose step is next, the counter of the
allocation draws, and the arguments the model is instantiated with (00_scope.md R9 to R19). -/

namespace Sys2Proof.Machine

/-- The coding modes in scope (30_encoding.md R108). -/
inductive Mode where
  /-- Code `0x00`. -/
  | cauchy
  deriving DecidableEq, Repr

/-- A capability name. The spec fixes no enumeration (42_registry_control.md R187): the source's three
examples, and a number for any other name. -/
inductive Cap where
  /-- "supports-wide-vector-ops-128". -/
  | wideVector128
  /-- "supports-wide-vector-ops-ssse3-equivalent". -/
  | wideVectorSsse3
  /-- "slow-extended-register-access-on-64-bit". -/
  | slowExtReg64
  | other (n : Nat)
  deriving DecidableEq, Repr

/-- A precondition `pre : (CAPS, WORD64) -> Bool` of a kernel variant, written out as a formula over
membership tests and the word size (00_scope.md R16, 42_registry_control.md R187). -/
inductive Pre where
  | always
  | has (c : Cap)
  | word64
  | neg (p : Pre)
  | both (p q : Pre)
  | either (p q : Pre)
  deriving DecidableEq, Repr

/-- An entry of `VARIANTS`: `{id, pre, gen_np, rec_nd}` (00_scope.md R16). -/
structure Variant where
  id : Nat
  pre : Pre
  genNp : List Nat
  recNd : List Nat
  deriving DecidableEq, Repr

/-- The arguments of the model that the spec leaves open or gives a default for (00_scope.md R9 to R11, R13,
R15, R16, R19). They are not engine state and no step writes them (10_state.md R46); they stand in the
model's state so that a claim about every state holds for every instantiation (log entry 6). `NCTX` (R14)
is the length of `State.ctxs`. -/
structure Params where
  /-- `POLY`. -/
  poly : Poly
  /-- `GEN`; its number of columns is `ND_MAX` (R9). -/
  gen : GenTable
  /-- `SIZE_GRANULE`. -/
  sizeGranule : Nat
  /-- `BLOCK_ALIGN`. -/
  blockAlign : Nat
  /-- `ST_ND`. -/
  stNd : Nat
  /-- `ST_SIZE`. -/
  stSize : Nat
  /-- `CAPS`. -/
  caps : List Cap
  /-- `WORD64`. -/
  word64 : Bool
  /-- `VARIANTS`, in list order. -/
  variants : List Variant
  deriving DecidableEq, Repr

/-- `ND_MAX`, the number of columns of `GEN` (00_scope.md R9). -/
def Params.ndMax (par : Params) : Nat := par.gen.ndMax

/-- The number of `VEC` registers of a context, `ND_MAX + PARITY_MAX` (10_state.md R39). -/
def Params.vecCount (par : Params) : Nat := par.ndMax + Config.parityMax

/-- The parameter values at the spec's defaults, and with no capability on a 64-bit platform
(log entries 6, 11, 12, 13). -/
def defaultParams : Params where
  poly := Config.defaultPoly
  gen := defaultGen Config.defaultPoly
  sizeGranule := Config.defaultSizeGranule
  blockAlign := Config.defaultBlockAlign
  stNd := Config.defaultStNd
  stSize := Config.defaultStSize
  caps := []
  word64 := true
  variants := []

/-- What the engine holds once it is `READY` (10_state.md R32 to R36). Before `INIT` none of it has a
value (R48). -/
structure ReadyRegs where
  /-- `MODE` (R32). -/
  mode : Mode
  /-- `MUL[a][b]` (R33). -/
  mul : MulTable
  /-- `GEN_T[j][d]` (R34). -/
  genT : GenTable
  /-- `GEN_SLOT[n]` at index `n - 1` (R35). -/
  genSlot : Vector Nat Config.parityMax
  /-- `REC_SLOT[n]` at index `n - 1` (R36). -/
  recSlot : Vector Nat Config.parityMax
  deriving DecidableEq, Repr

/-- `ESTATE` (10_state.md R31), and with it what has a value in that state (R48; log entry 9). -/
inductive Engine where
  | uninit
  | ready (r : ReadyRegs)
  deriving DecidableEq, Repr

/-- The status codes by name (60_exceptions.md R251). -/
inductive Status where
  | ok
  | invalidParityCount
  | unrecoverableLoss
  | allocationFailure
  | selftestMismatch
  deriving DecidableEq, Repr

/-- A contiguous set of host-memory byte addresses `[base, base + len)` (20_memory.md R71). -/
structure Span where
  base : Nat
  len : Nat
  deriving DecidableEq, Repr

/-- The register values a generation or recovery command captured at issue: `np`, `nd`, `size`, the
block addresses `v[0..nd+np-1]` and, for `REC`, the loss set `L` (41_generation.md R161,
43_recovery.md R210). -/
structure BlockArgs where
  np : Nat
  nd : Nat
  size : Nat
  vec : List Nat
  loss : List Nat
  deriving DecidableEq, Repr

/-- `args` of a command in flight (10_state.md R38): none, an error status decided at issue
(60_exceptions.md R254 step 4), or the captured block arguments. -/
inductive FlightArgs where
  | plain
  | failed (st : Status)
  | blocks (b : BlockArgs)
  deriving DecidableEq, Repr

/-- The record of a command in flight, `{op, A, B, args, rd, wr}` (10_state.md R38): `cmd` is the
decoded `op, A, B`. -/
structure Flight where
  cmd : Instr
  args : FlightArgs
  rd : List Span
  wr : List Span
  deriving DecidableEq, Repr

/-- A value a host agent's read returned (30_encoding.md R109), zero-extended (00_scope.md R20). -/
structure Reading where
  act : HostAction
  val : BitVec 64
  deriving DecidableEq, Repr

/-- A command context: its registers (10_state.md R39), its in-flight record (R38), and the host agent
`H_c` that uses it (00_scope.md R7). A register that holds `none` is unwritten, which is a state the
spec gives it: it has no value, and must not read as zero (R42). -/
structure Context where
  /-- `ND`. -/
  nd : Option (BitVec 32)
  /-- `SIZE`. -/
  size : Option Addr
  /-- `VEC[k]`, `k ∈ 0..ND_MAX+PARITY_MAX-1`. -/
  vec : List (Option Addr)
  /-- `LOSS[k]`. -/
  loss : Vector (Option Half) Config.parityMax
  /-- `STATUS`. -/
  status : Option Byte
  /-- `RESULT`. -/
  result : Option Byte
  /-- `BUSY`. -/
  busy : Bool
  /-- `INFLIGHT[c]`. -/
  inflight : Option Flight
  /-- The model's own: the actions `H_c` has still to perform (R43; log entry 4). -/
  prog : List HostAction
  /-- The model's own: what `H_c` has read so far, oldest first (log entry 22). -/
  seen : List Reading
  deriving DecidableEq, Repr

/-- A context with `vecs` registers `VEC[k]` right after reset (10_state.md R48). -/
def Context.reset (vecs : Nat) : Context where
  nd := none
  size := none
  vec := List.replicate vecs none
  loss := Vector.replicate Config.parityMax none
  status := none
  result := none
  busy := false
  inflight := none
  prog := []
  seen := []

/-- A register as the detail of `F_UNWRITTEN` names it (60_exceptions.md R252). -/
inductive RegName where
  | nd
  | size
  | vec (k : Nat)
  | loss (k : Nat)
  | status
  | result
  deriving DecidableEq, Repr

/-- Which argument an `F_ARG` names (60_exceptions.md R252). -/
inductive ArgName where
  /-- `nd > ND_MAX`. -/
  | nd
  /-- `size = 0`. -/
  | size
  /-- `nr = 0`. -/
  | nr
  /-- A loss set that is not increasing or holds an index `≥ nd + np`. -/
  | loss
  /-- Block `k` wraps the address space. -/
  | wraps (k : Nat)
  /-- A size that is not a multiple of `SIZE_GRANULE`. -/
  | granule
  /-- Block `k` is not aligned to `BLOCK_ALIGN`. -/
  | align (k : Nat)
  /-- A `GFCOEF` index out of range. -/
  | coefIndex
  deriving DecidableEq, Repr

/-- One of the two parties of an `F_RACE` (20_memory.md R81, R82). -/
inductive Party where
  | host
  | context (c : Nat)
  deriving DecidableEq, Repr

/-- A model fault with the detail it records (60_exceptions.md R252). Raising one is an effect the spec
describes (R253), so it is a next state with the record in `FAULTS`, not a stop of the model. -/
inductive ModelFault where
  /-- `F_ILLEGAL(w)`. -/
  | illegal (w : Word)
  /-- `F_ILLEGAL(read CMD)`. -/
  | illegalReadCmd
  /-- `F_UNINIT(op)`. -/
  | uninit (op : Byte)
  /-- `F_INIT_RACE`, with the other context. -/
  | initRace (other : Nat)
  /-- `F_MODE(code)`. -/
  | mode (code : Byte)
  /-- `F_ARG(argument)`. -/
  | arg (which : ArgName)
  /-- `F_UNWRITTEN(register)`. -/
  | unwritten (reg : RegName)
  /-- `F_SINGULAR(L)`. -/
  | singular (loss : List Nat)
  /-- `F_ALIAS(k, k')`. -/
  | overlap (k k' : Nat)
  /-- `F_RACE(party, c')`. -/
  | race (who : Party) (other : Nat)
  deriving DecidableEq, Repr

/-- What raised a model fault: a command word or a host access (60_exceptions.md R252). -/
inductive FaultSource where
  | command (w : Word)
  | access (a : HostAction)
  deriving DecidableEq, Repr

/-- A record of `FAULTS` (10_state.md R37). -/
structure FaultRecord where
  fault : ModelFault
  ctx : Nat
  source : FaultSource
  deriving DecidableEq, Repr

/-- The state of the model: the engine (10_state.md R30), then the model's own fields. -/
structure State where
  /-- `ESTATE`, `MODE`, `MUL`, `GEN_T`, `GEN_SLOT`, `REC_SLOT` (R31 to R36). -/
  engine : Engine
  /-- `FAULTS` (R37), each record once, oldest first (log entry 15). -/
  faults : List FaultRecord
  /-- `HM` (R45): the bytes that differ from `unlistedByte`, by rising address. -/
  hm : List Host.Cell
  /-- `ctx[0..NCTX-1]` and `INFLIGHT[0..NCTX-1]` (R38, R39). -/
  ctxs : List Context
  /-- The model's own: the arguments of the model (00_scope.md R9 to R19; log entry 6). -/
  par : Params
  /-- The model's own: how many allocation draws have been made (44_selftest.md R232; log entry 8). -/
  draws : Nat
  /-- The model's own: the context whose agent takes the current step (log entry 1). -/
  turn : Nat
  /-- The model's own: the contexts whose agents step next, in order (60_exceptions.md R259; log
  entry 1). -/
  sched : List Nat
  deriving DecidableEq, Repr

/-- Why the model stops. No run from a state that meets `State.Inv` (Safety.lean) meets one of these;
each is safe: the model stops where the spec has no step. -/
inductive Fault where
  /-- Raised by a command run for a context the engine does not have (`turn ≥ NCTX`). Safe. -/
  | noContext
  /-- Raised by a command run on a context that is busy with another one: `H_c` has no step then
  (10_state.md R41). Safe. -/
  | hostBusy
  /-- Raised by the completion of a record that no issue makes (arguments missing or out of the range
  the issue checks). Safe. -/
  | corruptFlight
  /-- Raised by a completion that needs the tables while they hold no value (10_state.md R48): no
  command but `INIT` is in flight in `UNINIT` (42_registry_control.md R181). Safe. -/
  | tablesUnset
  /-- Raised by a host access to a `VEC` register the context does not have (`k ≥ ND_MAX + PARITY_MAX`,
  10_state.md R39), which no assembler accepts (`HostAction.wf`; log entry 23). Safe. -/
  | noRegister
  deriving DecidableEq, Repr

/-- Why the model refuses an instruction. -/
inductive Refusal where
  /-- Raised by an arm of `exec` whose instruction has no meaning yet. Safe. No arm does. -/
  | notModelled (mnemonic : String)
  /-- Raised by `INIT` where `POLY` is reducible ("A model is instantiated only with such a `POLY` and
  refuses any other": 40_field_tables.md R137, 93_implementation_defined.md I23) or the self-test parameters
  do not fit (44_selftest.md R231, 93_implementation_defined.md I24). Safe. -/
  | notInstantiated
  deriving DecidableEq, Repr

/-- An outcome of a step of this machine. -/
abbrev Result := Host.Outcome State Fault Refusal

/-- What an address that `HM` does not list reads as: "Unlisted host memory is `00`"
(95_test_vectors.md Part 3). DESIGN CHOICE for reset: unsafe, log entry 10. -/
abbrev unlistedByte : Byte := 0x00

/-- The machine right after reset (10_state.md R48, 70_reset_and_hazards.md R280), with two idle
contexts (log entry 5), no program (log entry 4) and the parameters at their defaults. -/
def State.reset : State where
  engine := .uninit
  faults := []
  hm := []
  ctxs := [Context.reset defaultParams.vecCount, Context.reset defaultParams.vecCount]
  par := defaultParams
  draws := 0
  turn := 0
  sched := []

end Sys2Proof.Machine
end

