-- ==== Sys2Proof/Machine/Flags.lean ====
section
/-! DEFINITION. The engine's only condition values, `STATUS` and `BUSY` (10_state.md R40, R41, R44): the
status codes, going into flight and completing. -/

namespace Sys2Proof.Machine

/-- The code of a status (60_exceptions.md R251). -/
def Status.code : Status → Byte
  | .ok => 0x00
  | .invalidParityCount => 0x01
  | .unrecoverableLoss => 0x02
  | .allocationFailure => 0x03
  | .selftestMismatch => 0x04

/-- The values `STATUS` can hold (10_state.md R40). -/
def statusCodes : List Byte := [0x00, 0x01, 0x02, 0x03, 0x04]

/-- Going into flight: `INFLIGHT[c] <- f; BUSY <- 1` (30_encoding.md R101). -/
def Context.launch (x : Context) (f : Flight) : Context :=
  { x with inflight := some f, busy := true }

/-- What every completion does to its context: `STATUS <- st; BUSY <- 0; INFLIGHT[c] <- none`
(20_memory.md R83, 10_state.md R40). Every other register keeps its value (R42). -/
def Context.finish (x : Context) (st : Status) : Context :=
  { x with status := some st.code, inflight := none, busy := false }

/-- `RESULT <- v` (40_field_tables.md R142, R143). -/
def Context.setResult (x : Context) (v : Byte) : Context := { x with result := some v }

end Sys2Proof.Machine
end

