-- ==== Sys2Proof/Machine/Ops.lean ====
section
/-! DEFINITION. The named operations over host memory, contexts and faults, and the two steps of every
command: issue (30_encoding.md R101) and completion (20_memory.md R83). -/

namespace Sys2Proof.Machine

/-! ## Host memory (10_state.md R45): one byte per access (20_memory.md R73) -/

/-- `MemRead(addr, 1)`. -/
def memRead : List Host.Cell → Nat → Byte
  | [], _ => unlistedByte
  | (b, v) :: rest, a => if b = a then v else memRead rest a

/-- List the byte `v` at `a` before `rest`, or nothing where `v` is what an unlisted address reads as. -/
def memCons (a : Nat) (v : Byte) (rest : List Host.Cell) : List Host.Cell :=
  if v = unlistedByte then rest else (a, v) :: rest

/-- `MemWrite(addr, 1, v)`, keeping the canonical form. -/
def memWrite : List Host.Cell → Nat → Byte → List Host.Cell
  | [], a, v => memCons a v []
  | (b, u) :: rest, a, v =>
    if a < b then memCons a v ((b, u) :: rest)
    else if a = b then memCons a v rest
    else (b, u) :: memWrite rest a v

/-- Every listed address is at least `lo`, addresses strictly rise, and no entry is what an unlisted
address reads as. -/
def memWfFrom (lo : Nat) : List Host.Cell → Bool
  | [] => true
  | (a, v) :: rest => decide (lo ≤ a) && decide (v ≠ unlistedByte) && memWfFrom (a + 1) rest

/-- The canonical form of `HM`, inside the address space `0 .. 2^ADDR_W - 1` (20_memory.md R70). -/
def memWf (m : List Host.Cell) : Bool :=
  memWfFrom 0 m && m.all fun c => decide (c.1 < 2 ^ Config.addrW)

/-- Write the `n` bytes `f 0 .. f (n-1)` at `base`. -/
def memWriteBlock (m : List Host.Cell) (base n : Nat) (f : Nat → Byte) : List Host.Cell :=
  (List.range n).foldl (fun m i => memWrite m (base + i) (f i)) m

/-! ## Contexts -/

/-- Replace the registers of context `c`. -/
def State.setCtx (s : State) (c : Nat) (x : Context) : State := { s with ctxs := s.ctxs.set c x }

/-- `INFLIGHT[c]` (10_state.md R38). -/
def State.flight? (s : State) (c : Nat) : Option Flight := s.ctxs[c]?.bind Context.inflight

/-- The commands in flight on contexts other than `c`, by rising context number. -/
def State.otherFlights (s : State) (c : Nat) : List (Nat × Flight) :=
  (List.range s.ctxs.length).filterMap fun c' =>
    if c' = c then none else (s.flight? c').map fun f => (c', f)

/-! ## Footprints (20_memory.md R79) -/

/-- Two sets of consecutive bytes have a byte in common. -/
def Span.meets (p q : Span) : Bool := decide (max p.base q.base < min (p.base + p.len) (q.base + q.len))

/-- The set holds the byte at `a`. -/
def Span.holds (p : Span) (a : Nat) : Bool := decide (p.base ≤ a) && decide (a < p.base + p.len)

/-- Two unions of sets have a byte in common. -/
def spansMeet (ps qs : List Span) : Bool := ps.any fun p => qs.any fun q => p.meets q

/-- A union of sets holds the byte at `a`. -/
def spansHold (ps : List Span) (a : Nat) : Bool := ps.any fun p => p.holds a

/-- `X.wr ∩ (Y.rd ∪ Y.wr) ≠ ∅` or `X.rd ∩ Y.wr ≠ ∅` (20_memory.md R81). -/
def Flight.conflicts (x y : Flight) : Bool :=
  spansMeet x.wr (y.rd ++ y.wr) || spansMeet x.rd y.wr

/-! ## Model faults: the one way an action is stopped (60_exceptions.md R252, R253) -/

/-- Add a record to the set `FAULTS` (10_state.md R37). -/
def addFault (l : List FaultRecord) (r : FaultRecord) : List FaultRecord :=
  if r ∈ l then l else l ++ [r]

/-- `raise F(info)` (00_scope.md R22): the fault is recorded with the context whose agent takes the step
and its source, and nothing else changes (60_exceptions.md R253). There is no handler to enter and
nothing to return from (R258). -/
def State.raise (s : State) (src : FaultSource) (k : ModelFault) : State :=
  { s with faults := addFault s.faults ⟨k, s.turn, src⟩ }

/-! ## Issue -/

/-- The command is `INIT` or `SETMODE` (20_memory.md R88). -/
def isExclusive : Instr → Bool
  | .init => true
  | .setmode _ => true
  | .gfmul _ _ => false
  | .gfcoef _ _ => false
  | .genref _ => false
  | .gen _ => false
  | .recover _ _ => false
  | .selftest => false

/-- `raise k` unless `ok`. -/
def ensure (ok : Bool) (k : ModelFault) : Except ModelFault Unit := if ok then .ok () else .error k

/-- `raise` the fault of the first index of the list that is not `ok`. -/
def ensureAll (l : List Nat) (ok : Nat → Bool) (k : Nat → ModelFault) : Except ModelFault Unit :=
  match l.find? fun n => !ok n with
  | some n => .error (k n)
  | none => .ok ()

/-- Step 2 of the checks (60_exceptions.md R254): `F_UNINIT` before `INIT`, for every command but `INIT`
(42_registry_control.md R181). Answers what the engine holds. -/
def checkReady (s : State) (i : Instr) : Except ModelFault ReadyRegs :=
  match s.engine with
  | .uninit => .error (.uninit i.opcode)
  | .ready r => .ok r

/-- Step 3 of the checks (60_exceptions.md R254, 20_memory.md R88): `F_INIT_RACE` against the first other
context in flight that this command must be serialized with (log entry 14). -/
def checkSerial (s : State) (i : Instr) : Except ModelFault Unit :=
  match (s.otherFlights s.turn).find? fun p => isExclusive i || isExclusive p.2.cmd with
  | some p => .error (.initRace p.1)
  | none => .ok ()

/-- Steps 2 and 3 of the checks, for every command but `INIT` (60_exceptions.md R254). -/
def checkStart (s : State) (i : Instr) : Except ModelFault ReadyRegs := do
  let r ← checkReady s i
  checkSerial s i
  return r

/-- Step 7 of the checks (60_exceptions.md R254, 20_memory.md R81): `F_RACE` against the first other
context whose command in flight conflicts (log entry 14). -/
def checkRace (s : State) (f : Flight) : Except ModelFault Unit :=
  match (s.otherFlights s.turn).find? fun p => f.conflicts p.2 with
  | some p => .error (.race (.context s.turn) p.1)
  | none => .ok ()

/-- The issue step (30_encoding.md R101): the checks either raise a model fault, with no other effect,
or put the command in flight. -/
def State.issue (s : State) (i : Instr) (x : Context) (checked : Except ModelFault Flight) : State :=
  match checked with
  | .error k => s.raise (.command (encode i)) k
  | .ok f => s.setCtx s.turn (x.launch f)

/-! ## Both steps -/

/-- A completion that changes nothing but its context: `STATUS`, `BUSY`, `INFLIGHT`
(60_exceptions.md R255). -/
def State.finish (s : State) (x : Context) (st : Status) : State := s.setCtx s.turn (x.finish st)

/-- The step command `i` takes on the context whose turn it is: its issue where the context is idle, by
the agent `H_c`, and its completion where it is in flight, by the agent `E_c` (20_memory.md R83, 10_state.md
R41; log entry 2). -/
def runCommand (i : Instr) (s : State) (check : Context → Except ModelFault Flight)
    (complete : Context → Flight → Result) : Result :=
  match s.ctxs[s.turn]? with
  | none => .fault .noContext
  | some x =>
    match x.inflight with
    | some f => if f.cmd = i then complete x f else .fault .hostBusy
    | none => if x.busy then .fault .hostBusy else .next (s.issue i x (check x))

/-- A completion that reads what the engine holds (10_state.md R33 to R36). -/
def withTables (s : State) (k : ReadyRegs → Result) : Result :=
  match s.engine with
  | .uninit => .fault .tablesUnset
  | .ready r => k r

end Sys2Proof.Machine
end

