-- ==== Sys2Proof/Machine/Operands.lean ====
section
/-! DEFINITION. The operand forms (30_encoding.md R102): the operands `A` and `B` are in the command
word, every other argument is read from the context's registers at issue, checked as it is read
(60_exceptions.md R254 steps 5 and 6), and captured with the footprint (20_memory.md R79). -/

namespace Sys2Proof.Machine

/-! ## Register reads: `F_UNWRITTEN` where the register was never written (10_state.md R42) -/

/-- A read of a register by the engine. -/
def readArg {α : Type} (v : Option α) (reg : RegName) : Except ModelFault α :=
  match v with
  | none => .error (.unwritten reg)
  | some a => .ok a

/-- The results of `f` along a list, or the first fault. -/
def readList {α β : Type} (f : α → Except ModelFault β) : List α → Except ModelFault (List β)
  | [] => .ok []
  | a :: rest => do
    let b ← f a
    let bs ← readList f rest
    return b :: bs

/-- `nd <- ctx[c].ND; if nd > ND_MAX: raise F_ARG(nd)` (41_generation.md R161); `ND_MAX` is taken from `GEN`
(00_scope.md R9). -/
def readNd (par : Params) (x : Context) : Except ModelFault Nat := do
  let v ← readArg x.nd .nd
  ensure (decide (v.toNat ≤ par.ndMax)) (.arg .nd)
  return v.toNat

/-- `size <- ctx[c].SIZE; if size = 0: raise F_ARG(size)` (41_generation.md R161). -/
def readSize (x : Context) : Except ModelFault Nat := do
  let v ← readArg x.size .size
  ensure (decide (v.toNat ≠ 0)) (.arg .size)
  return v.toNat

/-- `VEC[k]`. -/
def readVec (x : Context) (k : Nat) : Except ModelFault Nat := do
  let v ← readArg (x.vec[k]?.getD none) (.vec k)
  return v.toNat

/-- `LOSS[k]`. -/
def readLoss (x : Context) (k : Nat) : Except ModelFault Nat := do
  let v ← readArg (x.loss[k]?.getD none) (.loss k)
  return v.toNat

/-! ## Blocks -/

/-- The base address of block `k`; `k` is below `nd + np` in every rule. -/
def BlockArgs.addr (b : BlockArgs) (k : Nat) : Nat := b.vec.getD k 0

/-- `Block(k)` (20_memory.md R71). -/
def BlockArgs.span (b : BlockArgs) (k : Nat) : Span := ⟨b.addr k, b.size⟩

/-- The indices of all blocks of the command, `0 .. nd+np-1`. -/
def BlockArgs.all (b : BlockArgs) : List Nat := List.range (b.nd + b.np)

/-- The data blocks `0 .. nd-1` (20_memory.md R71). -/
def BlockArgs.data (b : BlockArgs) : List Nat := List.range b.nd

/-- The parity blocks `nd .. nd+np-1` (20_memory.md R71). -/
def BlockArgs.parity (b : BlockArgs) : List Nat := (List.range b.np).map (b.nd + ·)

/-- The surviving blocks: those whose index is not in the loss set (20_memory.md R79). -/
def BlockArgs.surviving (b : BlockArgs) : List Nat := b.all.filter fun k => !b.loss.contains k

/-- `Blk(k, i)`: byte `i` of block `k` (20_memory.md R71). -/
def BlockArgs.byte (b : BlockArgs) (m : List Host.Cell) (k i : Nat) : Byte := memRead m (b.addr k + i)

/-- The loss set is strictly increasing (43_recovery.md R200b). -/
def increasing : List Nat → Bool
  | [] => true
  | [_] => true
  | a :: b :: rest => decide (a < b) && increasing (b :: rest)

/-- Conditions (b) and (c) of a valid loss set (43_recovery.md R200). -/
def lossValid (total : Nat) (loss : List Nat) : Bool :=
  increasing loss && loss.all fun k => decide (k < total)

/-- The counts, the size and the loss set are values that the registers they are read from can hold: `ND` is
32 bits, `SIZE` 64 and `LOSS[k]` 16 (10_state.md R39). (An address of a block that does not wrap fits
`VEC[k]`.) -/
def BlockArgs.inRegisters (b : BlockArgs) : Bool :=
  decide (b.nd < 2 ^ 32) && decide (b.size < 2 ^ Config.addrW) && b.loss.all fun k => decide (k < 2 ^ 16)

/-- The captured arguments are as the issue checks leave them: values the registers hold (10_state.md R39),
`1 ≤ np ≤ PARITY_MAX`, `nd ≤ ND_MAX`, one address per block, no block wraps, and a valid loss set
(41_generation.md R161, 43_recovery.md R210). -/
def BlockArgs.ok (b : BlockArgs) (par : Params) : Bool :=
  decide (1 ≤ b.np) && decide (b.np ≤ Config.parityMax) && decide (b.nd ≤ par.ndMax) &&
    decide (b.vec.length = b.nd + b.np) &&
    (b.vec.all fun a => decide (a + b.size ≤ 2 ^ Config.addrW)) &&
    lossValid (b.nd + b.np) b.loss && decide (b.loss.length ≤ b.np) && b.inRegisters

/-! ## The checks on blocks (60_exceptions.md R254 steps 5 and 6) -/

/-- `F_ARG(block k wraps)` for the first block that wraps (20_memory.md R72). -/
def checkWrap (b : BlockArgs) : Except ModelFault Unit :=
  ensureAll b.all (fun k => decide (b.addr k + b.size ≤ 2 ^ Config.addrW)) fun k => .arg (.wraps k)

/-- `F_ARG(granule)` (20_memory.md R74). -/
def checkGranule (par : Params) (b : BlockArgs) : Except ModelFault Unit :=
  ensure (decide (b.size % par.sizeGranule = 0)) (.arg .granule)

/-- `F_ARG(align k)` for the first block that is not aligned (20_memory.md R74). -/
def checkAlign (par : Params) (b : BlockArgs) : Except ModelFault Unit :=
  ensureAll b.all (fun k => decide (b.addr k % par.blockAlign = 0)) fun k => .arg (.align k)

/-- Granule, then alignment, for a command that has these constraints; `GENREF` has neither
(20_memory.md R74). -/
def checkPlaced (par : Params) (constrained : Bool) (b : BlockArgs) : Except ModelFault Unit :=
  if constrained then do
    checkGranule par b
    checkAlign par b
  else .ok ()

/-- The first block other than `k` that destination `k` overlaps (20_memory.md R80). -/
def BlockArgs.overlapOf (b : BlockArgs) (k : Nat) : Option Nat :=
  b.all.find? fun k' => decide (k' ≠ k) && (b.span k).meets (b.span k')

/-- `F_ALIAS(k, k')` for the first destination that overlaps another block of the command (20_memory.md
R80; log entry 14). -/
def checkOverlap (b : BlockArgs) (dests : List Nat) : Except ModelFault Unit :=
  match dests.findSome? fun k => (b.overlapOf k).map fun k' => (k, k') with
  | some p => .error (.overlap p.1 p.2)
  | none => .ok ()

/-! ## Records -/

/-- The record of a command with no captured arguments and an empty footprint (20_memory.md R79). -/
def Flight.plainOf (i : Instr) : Flight := ⟨i, .plain, [], []⟩

/-- The record of a command that goes into flight with an error status and an empty footprint
(60_exceptions.md R254). -/
def Flight.failedOf (i : Instr) (st : Status) : Flight := ⟨i, .failed st, [], []⟩

/-- The record of a generation command, with its footprint (20_memory.md R79). -/
def Flight.genOf (i : Instr) (b : BlockArgs) : Flight :=
  ⟨i, .blocks b, b.data.map b.span, b.parity.map b.span⟩

/-- The record of a recovery command, with its footprint (20_memory.md R79): it reads every surviving
block, the parity blocks the solver does not use included. -/
def Flight.recOf (i : Instr) (b : BlockArgs) : Flight :=
  ⟨i, .blocks b, b.surviving.map b.span, b.loss.map b.span⟩

/-! ## Results -/

/-- Write the destination blocks `ks` of a command, byte `i` of block `k` being `out k i`
(41_generation.md R161, 43_recovery.md R210). -/
def BlockArgs.write (b : BlockArgs) (m : List Host.Cell) (ks : List Nat) (out : Nat → Nat → Byte) :
    List Host.Cell :=
  ks.foldl (fun m k => memWriteBlock m (b.addr k) b.size (out k)) m

/-- The bytes of blocks `0 .. n-1` as a kernel is given them. -/
def blockList (n size : Nat) (f : Nat → Nat → Byte) : List (List Byte) :=
  (List.range n).map fun k => (List.range size).map (f k)

end Sys2Proof.Machine
end

