-- ==== Sys2Proof/Machine/Control.lean ====
section
/-! DEFINITION. `INIT`, kernel selection and `SETMODE` (42_registry_control.md R180 to R188). -/

namespace Sys2Proof.Machine

/-- A precondition's answer on `(CAPS, WORD64)` (00_scope.md R16, 42_registry_control.md R187). -/
def Pre.holds (caps : List Cap) (word64 : Bool) : Pre → Bool
  | .always => true
  | .has c => caps.contains c
  | .word64 => word64
  | .neg p => !p.holds caps word64
  | .both p q => p.holds caps word64 && q.holds caps word64
  | .either p q => p.holds caps word64 || q.holds caps word64

/-- What `SelectKernels()` leaves in slot `n` of the registry whose counts `field` names: 0, then in list
order the `id` of each applicable variant that accelerates `n`, the last one winning
(42_registry_control.md R184). -/
def selectSlot (par : Params) (field : Variant → List Nat) (n : Nat) : Nat :=
  par.variants.foldl
    (fun cur v => if v.pre.holds par.caps par.word64 && (field v).contains n then v.id else cur) 0

/-- `GEN_SLOT[1..6]` or `REC_SLOT[1..6]` after `SelectKernels()` (42_registry_control.md R184). -/
def selectSlots (par : Params) (field : Variant → List Nat) : Vector Nat Config.parityMax :=
  tabulate Config.parityMax fun k => selectSlot par field (k + 1)

/-- What the first `INIT` gives the engine: `MUL`, `GEN_T`, the slots and `MODE` (42_registry_control.md
R182). -/
def initRegs (par : Params) : ReadyRegs where
  mode := .cauchy
  mul := mulTable par.poly
  genT := par.gen
  genSlot := selectSlots par Variant.genNp
  recSlot := selectSlots par Variant.recNd

/-- The engine after a completing `INIT`: `READY` keeps every value (42_registry_control.md R183). -/
def initEngine (par : Params) : Engine → Engine
  | .uninit => .ready (initRegs par)
  | .ready r => .ready r

/-- The model may be instantiated with these arguments: `POLY` is irreducible (40_field_tables.md R137,
93_implementation_defined.md I23), and `PARITY_MAX ≤ ST_ND ≤ ND_MAX`, `ST_SIZE ≥ 1` and `ST_SIZE mod
SIZE_GRANULE = 0` (44_selftest.md R231, 93_implementation_defined.md I24). -/
def Params.valid (par : Params) : Bool :=
  polyIrreducible par.poly && decide (Config.parityMax ≤ par.stNd) && decide (par.stNd ≤ par.ndMax) &&
    decide (1 ≤ par.stSize) && decide (par.stSize % par.sizeGranule = 0)

/-- `INIT` (42_registry_control.md R182, R183). Step 2 of the checks does not apply to it. A model that may
not be instantiated is refused (40_field_tables.md R137, 44_selftest.md R231; log entry 19). -/
def execInit (s : State) : Result :=
  if s.par.valid then
    runCommand .init s
      (fun _ => do
        checkSerial s .init
        return Flight.plainOf .init)
      fun x _ => .next { s.finish x .ok with engine := initEngine s.par s.engine }
  else .refused .notInstantiated

/-- `SETMODE mode` (42_registry_control.md R186): `MODE <- CAUCHY; STATUS <- OK`, and `F_MODE(code)` at
issue for any code but `0x00`. -/
def execSetmode (mode : Byte) (s : State) : Result :=
  runCommand (.setmode mode) s
    (fun _ => do
      let _ ← checkStart s (.setmode mode)
      ensure (decide (mode = 0x00)) (.mode mode)
      return Flight.plainOf (.setmode mode))
    fun x _ => withTables s fun r =>
      .next { s.finish x .ok with engine := .ready { r with mode := .cauchy } }

end Sys2Proof.Machine
end

