-- ==== Sys2Proof/Machine/Lookup.lean ====
section
/-! DEFINITION. The lookup commands `GFMUL` and `GFCOEF` (40_field_tables.md R142, R143). -/

namespace Sys2Proof.Machine

/-- `GFMUL a, b` (40_field_tables.md R142): `RESULT <- MUL[a][b]; STATUS <- OK`. -/
def execGfmul (a b : Byte) (s : State) : Result :=
  runCommand (.gfmul a b) s
    (fun _ => do
      let _ ← checkStart s (.gfmul a b)
      return Flight.plainOf (.gfmul a b))
    fun x _ => withTables s fun r => .next (s.finish (x.setResult (mulAt r.mul a b)) .ok)

/-- `GFCOEF j, d` (40_field_tables.md R143): `RESULT <- GEN_T[j][d]; STATUS <- OK`, and `F_ARG` at issue
for an index outside the table. -/
def execGfcoef (j d : Nat) (s : State) : Result :=
  runCommand (.gfcoef j d) s
    (fun _ => do
      let _ ← checkStart s (.gfcoef j d)
      ensure (decide (j < Config.parityMax) && decide (d < s.par.ndMax)) (.arg .coefIndex)
      return Flight.plainOf (.gfcoef j d))
    fun x _ => withTables s fun r =>
      match coefAt? r.genT j d with
      | none => .fault .corruptFlight
      | some v => .next (s.finish (x.setResult v) .ok)

end Sys2Proof.Machine
end

