-- ==== Sys2Proof/Machine/Generation.lean ====
section
/-! DEFINITION. Parity generation: `RefGen`, kernel dispatch, `GENREF` and `GEN` (41_generation.md R160 to
R167). -/

namespace Sys2Proof.Machine

/-- `gmul(a, b)`: the lookup `MUL[a][b]` (40_field_tables.md R134). -/
def ReadyRegs.gmul (r : ReadyRegs) (a b : Byte) : Byte := mulAt r.mul a b

/-- `GEN_T[j][d]`. -/
def ReadyRegs.coef (r : ReadyRegs) (j d : Nat) : Byte := coefAt r.genT j d

/-- Byte `i` of parity row `j` that `RefGen` computes from `nd` data blocks (41_generation.md R160):
`gsum [gmul(data[d][i], GEN_T[j][d]) for d in 0..nd-1]`. -/
def refGen (r : ReadyRegs) (nd : Nat) (data : Nat → Nat → Byte) (j i : Nat) : Byte :=
  gsum ((List.range nd).map fun d => r.gmul (data d i) (r.coef j d))

/-- `GEN_SLOT[n]` (10_state.md R35). -/
def ReadyRegs.genSlotOf (r : ReadyRegs) (n : Nat) : Nat := r.genSlot.toList.getD (n - 1) 0

/-- `KernelGen(v, nd, np, size, data)` (41_generation.md R163): the portable kernel is `RefGen`, variant
`v ≥ 1` is `KGEN_v`. -/
def kernelGen (r : ReadyRegs) (v nd np size : Nat) (data : Nat → Nat → Byte) (j i : Nat) : Byte :=
  if v = 0 then refGen r nd data j i
  else Config.kgen v nd np size (blockList nd size data) j i

/-- The issue checks of `GENREF`, and of `GEN` where `aligned` (41_generation.md R161, R162;
60_exceptions.md R254). -/
def issueGen (i : Instr) (aligned : Bool) (np : Nat) (s : State) (x : Context) :
    Except ModelFault Flight := do
  let _ ← checkStart s i
  if np = 0 ∨ Config.parityMax < np then
    return Flight.failedOf i .invalidParityCount
  else
    let nd ← readNd s.par x
    let size ← readSize x
    let vec ← readList (readVec x) (List.range (nd + np))
    let b : BlockArgs := ⟨np, nd, size, vec, []⟩
    checkWrap b
    checkPlaced s.par aligned b
    checkOverlap b b.parity
    checkRace s (Flight.genOf i b)
    return Flight.genOf i b

/-- The completion of a generation command: an error status writes nothing else; otherwise the parity
blocks get the bytes of `kernel`, computed from the data bytes as they stand (41_generation.md R161,
R162; 20_memory.md R83). -/
def completeGen (kernel : ReadyRegs → BlockArgs → (Nat → Nat → Byte) → Nat → Nat → Byte) (s : State)
    (x : Context) (f : Flight) : Result :=
  match f.args with
  | .plain => .fault .corruptFlight
  | .failed st => .next (s.finish x st)
  | .blocks b =>
    if b.ok s.par then
      withTables s fun r =>
        .next { s.finish x .ok with
          hm := b.write s.hm b.parity fun k i => kernel r b (b.byte s.hm) (k - b.nd) i }
    else .fault .corruptFlight

/-- `GENREF np` (41_generation.md R161). -/
def execGenref (np : Nat) (s : State) : Result :=
  runCommand (.genref np) s (issueGen (.genref np) false np s)
    (completeGen (fun r b data => refGen r b.nd data) s)

/-- `GEN np` (41_generation.md R162): the kernel is the one `GEN_SLOT[np]` holds (R163). -/
def execGen (np : Nat) (s : State) : Result :=
  runCommand (.gen np) s (issueGen (.gen np) true np s)
    (completeGen (fun r b data => kernelGen r (r.genSlotOf b.np) b.nd b.np b.size data) s)

end Sys2Proof.Machine
end

