-- ==== Sys2Proof/Machine/Solve.lean ====
section
/-! DEFINITION. Linear algebra over GF(2^8) (43_recovery.md R204, R206): Gauss-Jordan elimination on rows,
the singularity check and `Solve`. The closed forms for one and two unknowns (R207, R208) give the same
results (`Obligations.ClosedFormsAgreeWithSolve`; R209; log entry 27). `mul` is the field's
multiplication, `MUL` in every use. -/

namespace Sys2Proof.Machine

/-- Entry `col` of a row; every rule reads inside the row. -/
def rowAt (row : List Byte) (col : Nat) : Byte := row.getD col 0

/-- "least row index ≥ col with M[p][col] ≠ 0" (43_recovery.md R206). -/
def pivotRow (rows : List (List Byte)) (col : Nat) : Option Nat :=
  (List.range' col (rows.length - col)).find? fun p => rowAt (rows.getD p []) col != 0

/-- "swap rows p and col of M" (43_recovery.md R206). -/
def swapRows (rows : List (List Byte)) (p col : Nat) : List (List Byte) :=
  (rows.set p (rows.getD col [])).set col (rows.getD p [])

/-- "M[col][k] <- gmul(t, M[col][k]) for every k" (43_recovery.md R206). -/
def scaleRow (mul : Byte → Byte → Byte) (t : Byte) (row : List Byte) : List Byte := row.map (mul t)

/-- "M[row][k] <- M[row][k] ⊕ gmul(f, M[col][k]) for every k" (43_recovery.md R206). -/
def addScaled (mul : Byte → Byte → Byte) (f : Byte) (row pivot : List Byte) : List Byte :=
  List.zipWith (fun m p => m ^^^ mul f p) row pivot

/-- One round of elimination, or none where column `col` has no pivot (43_recovery.md R206). The
right-hand side `y` is the last entry of each row, so that it takes part in every row operation. -/
def eliminate (mul : Byte → Byte → Byte) (rows : List (List Byte)) (col : Nat) :
    Option (List (List Byte)) :=
  match pivotRow rows col with
  | none => none
  | some p =>
    let swapped := swapRows rows p col
    let top := swapped.getD col []
    let pivot := scaleRow mul (ginv mul (rowAt top col)) top
    some (swapped.mapIdx fun k row =>
      if k = col then pivot else addScaled mul (rowAt row col) row pivot)

/-- Gauss-Jordan elimination over columns `0 .. n-1` (43_recovery.md R206). -/
def gaussJordan (mul : Byte → Byte → Byte) (n : Nat) (rows : List (List Byte)) :
    Option (List (List Byte)) :=
  (List.range n).foldlM (eliminate mul) rows

/-- The square matrix `A` has no inverse: some column has no pivot (43_recovery.md R204, R206). -/
def singular (mul : Byte → Byte → Byte) (coeffs : List (List Byte)) : Bool :=
  (gaussJordan mul coeffs.length coeffs).isNone

/-- The rows of `A` with the entries of `r` after them. -/
def augment (coeffs : List (List Byte)) (rhs : List Byte) : List (List Byte) :=
  List.zipWith (fun row y => row ++ [y]) coeffs rhs

/-- `Solve(A, r)` (43_recovery.md R206); a free value where `A` is singular. -/
def solve (mul : Byte → Byte → Byte) (coeffs : List (List Byte)) (rhs : List Byte) : List Byte :=
  match gaussJordan mul rhs.length (augment coeffs rhs) with
  | some rows => rows.map fun row => rowAt row rhs.length
  | none => (List.range rhs.length).map (Config.unsolved coeffs rhs)

end Sys2Proof.Machine
end

