-- ==== Sys2Proof/Machine/Recovery.lean ====
section
/-! DEFINITION. Recovery: the partition of a loss set, the system it gives, `RefRec`, kernel dispatch and
`REC` (43_recovery.md R200 to R214). -/

namespace Sys2Proof.Machine

/-- `D`: the lost data indices (43_recovery.md R201). -/
def lostData (nd : Nat) (loss : List Nat) : List Nat := loss.filter fun k => decide (k < nd)

/-- `P`: the lost parity rows (43_recovery.md R201). -/
def lostParity (nd : Nat) (loss : List Nat) : List Nat :=
  (loss.filter fun k => decide (nd ≤ k)).map (· - nd)

/-- `nrd`: the number of lost data blocks (43_recovery.md R201). -/
def lostCount (nd : Nat) (loss : List Nat) : Nat := (lostData nd loss).length

/-- `S`: the first `nrd` surviving parity rows (43_recovery.md R202). -/
def solveRows (nd np : Nat) (loss : List Nat) : List Nat :=
  ((List.range np).filter fun j => !(lostParity nd loss).contains j).take (lostCount nd loss)

/-- The syndrome of parity row `j` at offset `i` (43_recovery.md R203): the surviving parity byte with the
contribution of every surviving data block removed. -/
def syndrome (r : ReadyRegs) (nd : Nat) (loss : List Nat) (blk : Nat → Nat → Byte) (i j : Nat) : Byte :=
  blk (nd + j) i ^^^
    gsum (((List.range nd).filter fun d => !(lostData nd loss).contains d).map fun d =>
      r.gmul (blk d i) (r.coef j d))

/-- The coefficient submatrix `A[a][b] = GEN_T[S[a]][D[b]]` (43_recovery.md R204). -/
def submatrix (r : ReadyRegs) (nd np : Nat) (loss : List Nat) : List (List Byte) :=
  (solveRows nd np loss).map fun j => (lostData nd loss).map fun d => r.coef j d

/-- The lost data bytes `x(i)` at offset `i` (43_recovery.md R205). -/
def lostBytes (r : ReadyRegs) (nd np : Nat) (loss : List Nat) (blk : Nat → Nat → Byte) (i : Nat) :
    List Byte :=
  solve r.gmul (submatrix r nd np loss) ((solveRows nd np loss).map (syndrome r nd loss blk i))

/-- `V(d)`: the data byte as restored, `x[b]` where `d = D[b]` and `Blk(d, i)` otherwise
(43_recovery.md R205). -/
def restored (r : ReadyRegs) (nd np : Nat) (loss : List Nat) (blk : Nat → Nat → Byte) (i d : Nat) :
    Byte :=
  (((lostData nd loss).zip (lostBytes r nd np loss blk i)).lookup d).getD (blk d i)

/-- `RefRec`: byte `i` of lost block `k` (43_recovery.md R205). Lost data is solved first, then a lost
parity row is regenerated from the data as restored. -/
def refRec (r : ReadyRegs) (nd np : Nat) (loss : List Nat) (blk : Nat → Nat → Byte) (k i : Nat) : Byte :=
  if k < nd then restored r nd np loss blk i k
  else refGen r nd (fun d i => restored r nd np loss blk i d) (k - nd) i

/-- `REC_SLOT[n]` (10_state.md R36). -/
def ReadyRegs.recSlotOf (r : ReadyRegs) (n : Nat) : Nat := r.recSlot.toList.getD (n - 1) 0

/-- The blocks a recovery kernel may look at: a lost block has no bytes (20_memory.md R78, R79; log
entry 7). -/
def survivorList (total size : Nat) (loss : List Nat) (blk : Nat → Nat → Byte) : List (List Byte) :=
  (List.range total).map fun k => if loss.contains k then [] else (List.range size).map (blk k)

/-- `KernelRec(REC_SLOT[nrd], nd, np, size, L, Blk)` (43_recovery.md R210, R211): `RefRec` when `nrd = 0` or
the slot holds the portable kernel, and `KREC_v` otherwise. -/
def kernelRec (r : ReadyRegs) (nd np size : Nat) (loss : List Nat) (blk : Nat → Nat → Byte) (k i : Nat) :
    Byte :=
  if lostCount nd loss = 0 ∨ r.recSlotOf (lostCount nd loss) = 0 then refRec r nd np loss blk k i
  else Config.krec (r.recSlotOf (lostCount nd loss)) nd np size loss
    (survivorList (nd + np) size loss blk) k i

/-- `F_SINGULAR(L)` where `nrd ≥ 1` and the submatrix is singular (43_recovery.md R204, R210). -/
def checkSingular (r : ReadyRegs) (b : BlockArgs) : Except ModelFault Unit :=
  ensure (decide (lostCount b.nd b.loss = 0) || !singular r.gmul (submatrix r b.nd b.np b.loss))
    (.singular b.loss)

/-- The issue checks of `REC` (43_recovery.md R210; 60_exceptions.md R254). -/
def issueRec (i : Instr) (np nr : Nat) (s : State) (x : Context) : Except ModelFault Flight := do
  let r ← checkStart s i
  if np = 0 ∨ Config.parityMax < np then
    return Flight.failedOf i .invalidParityCount
  else if np < nr then
    return Flight.failedOf i .unrecoverableLoss
  else
    ensure (decide (nr ≠ 0)) (.arg .nr)
    let nd ← readNd s.par x
    let size ← readSize x
    let loss ← readList (readLoss x) (List.range nr)
    ensure (lossValid (nd + np) loss) (.arg .loss)
    let vec ← readList (readVec x) (List.range (nd + np))
    let b : BlockArgs := ⟨np, nd, size, vec, loss⟩
    checkWrap b
    checkPlaced s.par true b
    checkSingular r b
    checkOverlap b b.loss
    checkRace s (Flight.recOf i b)
    return Flight.recOf i b

/-- The completion of `REC`: an error status writes nothing else; otherwise the blocks at loss-set indices
get the bytes of the kernel, computed from the surviving blocks as they stand (43_recovery.md R210). -/
def completeRec (s : State) (x : Context) (f : Flight) : Result :=
  match f.args with
  | .plain => .fault .corruptFlight
  | .failed st => .next (s.finish x st)
  | .blocks b =>
    if b.ok s.par then
      withTables s fun r =>
        .next { s.finish x .ok with
          hm := b.write s.hm b.loss (kernelRec r b.nd b.np b.size b.loss (b.byte s.hm)) }
    else .fault .corruptFlight

/-- `REC np, nr` (43_recovery.md R210). -/
def execRec (np nr : Nat) (s : State) : Result :=
  runCommand (.recover np nr) s (issueRec (.recover np nr) np nr s) (completeRec s)

end Sys2Proof.Machine
end

