-- ==== Sys2Proof/Machine/Selftest.lean ====
section
/-! DEFINITION. The self-test (44_selftest.md R230 to R240). It runs on scratch storage no agent can reach
(R232), so it is a function of what the engine holds; its only input besides is the allocation draw. -/

namespace Sys2Proof.Machine

/-- The test data `T[d][i] = MUL[(d + 1) mod 256][i mod 256]` (44_selftest.md R233). -/
def testData (r : ReadyRegs) (d i : Nat) : Byte := r.gmul (BitVec.ofNat 8 (d + 1)) (BitVec.ofNat 8 i)

/-- `T ++ Pref`: the test data, then the reference parity (44_selftest.md R230, R238). -/
def testVector (par : Params) (r : ReadyRegs) (k i : Nat) : Byte :=
  if k < par.stNd then testData r k i
  else refGen r par.stNd (testData r) (k - par.stNd) i

/-- `GenCheck(np, T, Pref)` (44_selftest.md R234). -/
def genCheck (par : Params) (r : ReadyRegs) (np : Nat) : Bool :=
  (List.range np).all fun j => (List.range par.stSize).all fun i =>
    kernelGen r (r.genSlotOf np) par.stNd np par.stSize (testData r) j i ==
      testVector par r (par.stNd + j) i

/-- `h = ceil(np / 2)` (44_selftest.md R236). -/
def halfUp (np : Nat) : Nat := (np + 1) / 2

/-- `Full(np)`: the last `np` data blocks (44_selftest.md R235, 90_conflicts.md C2). -/
def fullLoss (par : Params) (np : Nat) : List Nat := List.range' (par.stNd - np) np

/-- `Lead(np)`: the first `h` data blocks and the first `np - h` parity blocks (44_selftest.md R236). -/
def leadLoss (par : Params) (np : Nat) : List Nat :=
  List.range (halfUp np) ++ List.range' par.stNd (np - halfUp np)

/-- `Trail(np)`: the first `h` data blocks and the last `np - h` parity blocks (44_selftest.md R237). -/
def trailLoss (par : Params) (np : Nat) : List Nat :=
  List.range (halfUp np) ++ List.range' (par.stNd + halfUp np) (np - halfUp np)

/-- `W`: the vector with the lost blocks zeroed (44_selftest.md R238). -/
def lostVector (par : Params) (r : ReadyRegs) (loss : List Nat) (k i : Nat) : Byte :=
  if loss.contains k then 0 else testVector par r k i

/-- `RecCheck(np, L, T, Pref)` (44_selftest.md R238). -/
def recCheck (par : Params) (r : ReadyRegs) (np : Nat) (loss : List Nat) : Bool :=
  loss.all fun k => (List.range par.stSize).all fun i =>
    kernelRec r par.stNd np par.stSize loss (lostVector par r loss) k i == testVector par r k i

/-- The loss sets tried for `np`, in order (44_selftest.md R230). -/
def testLosses (par : Params) (np : Nat) : List (List Nat) :=
  [fullLoss par np, leadLoss par np, trailLoss par np]

/-- Every check of every parity count passes. The checks only read, so stopping at the first mismatch
(44_selftest.md R230) answers the same. -/
def selftestPasses (par : Params) (r : ReadyRegs) : Bool :=
  (List.range' 1 Config.parityMax).all fun np =>
    genCheck par r np && (testLosses par np).all fun loss => recCheck par r np loss

/-- The status a self-test ends with, given the answer of the allocation collaborator (44_selftest.md R230,
R232). -/
def selftestStatus (par : Params) (r : ReadyRegs) (drawn : Bool) : Status :=
  if drawn then (if selftestPasses par r then .ok else .selftestMismatch) else .allocationFailure

/-- `SELFTEST` (44_selftest.md R230): one allocation draw, then `STATUS`; nothing else an agent can see
changes. -/
def execSelftest (s : State) : Result :=
  runCommand .selftest s
    (fun _ => do
      let _ ← checkStart s .selftest
      return Flight.plainOf .selftest)
    fun x _ => withTables s fun r =>
      .next { s.finish x (selftestStatus s.par r (Config.allocDraw s.draws)) with draws := s.draws + 1 }

end Sys2Proof.Machine
end

