-- ==== Sys2Proof/Machine/Dispatch.lean ====
section
/-! DEFINITION. One arm per command (30_encoding.md R103): the step the command takes on the context whose
turn it is, its issue where that context is idle and its completion where it is in flight (20_memory.md
R83). -/

namespace Sys2Proof.Machine

def exec (i : Instr) (s : State) : Host.Outcome State Fault Refusal :=
  match i with
  | .init => Sys2Proof.Machine.execInit s
  | .setmode mode => Sys2Proof.Machine.execSetmode mode s
  | .gfmul a b => Sys2Proof.Machine.execGfmul a b s
  | .gfcoef j d => Sys2Proof.Machine.execGfcoef j d s
  | .genref np => Sys2Proof.Machine.execGenref np s
  | .gen np => Sys2Proof.Machine.execGen np s
  | .recover np nr => Sys2Proof.Machine.execRec np nr s
  | .selftest => Sys2Proof.Machine.execSelftest s

end Sys2Proof.Machine
end

