-- ==== Sys2Proof/Machine/Host.lean ====
section
/-! DEFINITION. What a host agent does besides issuing commands (30_encoding.md R109): register writes and
reads (10_state.md R39, R42) and memory accesses (20_memory.md R82), and the pseudo-instructions (R110). -/

namespace Sys2Proof.Machine

/-- A command in flight on any context for which `bad` holds, the first one (20_memory.md R82; log
entry 14). -/
def State.flightWhere (s : State) (bad : Flight → Bool) : Option Nat :=
  (List.range s.ctxs.length).find? fun c => (s.flight? c).any bad

/-- The register as `F_UNWRITTEN` names it. -/
def regName : ReadReg → Option RegName
  | .nd => some .nd
  | .size => some .size
  | .vec k => some (.vec k)
  | .loss k => some (.loss k)
  | .status => some .status
  | .result => some .result
  | .cmd => none

/-- What a register holds, zero-extended; nothing where it is unwritten or has no storage
(10_state.md R39, R42). -/
def regValue (x : Context) : ReadReg → Option (BitVec 64)
  | .nd => x.nd.map (·.setWidth 64)
  | .size => x.size
  | .vec k => x.vec[k]?.getD none
  | .loss k => x.loss[k].map (·.setWidth 64)
  | .status => x.status.map (·.setWidth 64)
  | .result => x.result.map (·.setWidth 64)
  | .cmd => none

/-- `RD reg`: the whole register, `F_UNWRITTEN` where it was never written, and `F_ILLEGAL(read CMD)` for
`CMD` (10_state.md R39, R42; 60_exceptions.md R252). -/
def hostRead (x : Context) (r : ReadReg) : Except ModelFault (BitVec 64) :=
  match regName r with
  | none => .error .illegalReadCmd
  | some name => readArg (regValue x r) name

/-- The value a read returned reaches the host agent. -/
def Context.record (x : Context) (act : HostAction) (v : BitVec 64) : Context :=
  { x with seen := x.seen ++ [⟨act, v⟩] }

/-- The registers of a context after a host write (10_state.md R39: "a host write stores the whole
register"); actions that write no argument register change nothing. -/
def hostWrite (x : Context) : HostAction → Context
  | .wrNd v => { x with nd := some v }
  | .wrSize v => { x with size := some v }
  | .wrVec k v => { x with vec := x.vec.set k (some v) }
  | .wrLoss k v => { x with loss := x.loss.set k (some v) }
  | .rd _ => x
  | .cmd _ => x
  | .mw _ _ => x
  | .mr _ => x

/-- `MW addr, byte` by host agent `turn`: `F_RACE(host, c)` where the byte is in the footprint of a
command in flight, and then nothing is written (20_memory.md R82). -/
def hostMemWrite (s : State) (a : Addr) (v : Byte) : State :=
  match s.flightWhere fun f => spansHold (f.rd ++ f.wr) a.toNat with
  | some c => s.raise (.access (.mw a v)) (.race .host c)
  | none => { s with hm := memWrite s.hm a.toNat v }

/-- `MR addr` by host agent `turn`, whose context is `x`: `F_RACE(host, c)` where a command in flight
writes the byte (20_memory.md R82). -/
def hostMemRead (s : State) (x : Context) (a : Addr) : State :=
  match s.flightWhere fun f => spansHold f.wr a.toNat with
  | some c => s.raise (.access (.mr a)) (.race .host c)
  | none => s.setCtx s.turn (x.record (.mr a) ((memRead s.hm a.toNat).setWidth 64))

/-- A host access `act` to a register, which answers `t`; a register that does not exist stops the model
(10_state.md R39; log entry 23). -/
def ifRegister (par : Params) (act : HostAction) (t : State) : Result :=
  if act.wf par.vecCount then .next t else .fault .noRegister

/-- `WR reg, v` by host agent `turn`, whose context is `x` (10_state.md R39). -/
def hostRegWrite (s : State) (x : Context) (act : HostAction) : Result :=
  ifRegister s.par act (s.setCtx s.turn (hostWrite x act))

/-- What `RD reg` by host agent `turn`, whose context is `x`, leaves. -/
def hostRegReadState (s : State) (x : Context) (r : ReadReg) : State :=
  match hostRead x r with
  | .error k => s.raise (.access (.rd r)) k
  | .ok v => s.setCtx s.turn (x.record (.rd r) v)

/-- `RD reg` by host agent `turn`, whose context is `x`. -/
def hostRegRead (s : State) (x : Context) (r : ReadReg) : Result :=
  ifRegister s.par (.rd r) (hostRegReadState s x r)

/-- A write of a word to `CMD` that decodes to `ILLEGAL`: `F_ILLEGAL(w)` and no other effect
(30_encoding.md R105). -/
def hostIllegal (s : State) (w : Word) : State := s.raise (.command w) (.illegal w)

/-! ## Pseudo-instructions -/

/-- `WR VEC[k], a` for each address, from `VEC[k]` on. -/
def writeVecs (k : Nat) : List Nat → List HostAction
  | [] => []
  | a :: rest =>
    .wrVec k (BitVec.ofNat 64 a) :: writeVecs (k + 1) rest

/-- `WR LOSS[k], l` for each index, from `LOSS[k]` on. -/
def writeLosses (k : Nat) : List Nat → List HostAction
  | [] => []
  | l :: rest =>
    (if h : k < Config.parityMax then [.wrLoss ⟨k, h⟩ (BitVec.ofNat 16 l)] else []) ++
      writeLosses (k + 1) rest

/-- `MW addr, byte ; MW addr+1, byte ; ...` (n times). -/
def fillBytes (addr n : Nat) (byte : Byte) : List HostAction :=
  (List.range n).map fun i => .mw (BitVec.ofNat 64 (addr + i)) byte

/-- The expansion of a pseudo-instruction (30_encoding.md R110), none where an assembler refuses it.
`ERASE k` uses the current `VEC[k]` and `SIZE` of the context (log entry 25). -/
def expandPseudo (par : Params) (x : Context) (p : Pseudo) : Option (List HostAction) :=
  if p.wf par.vecCount then
    match p with
    | .setblocks nd size addrs =>
      some (.wrNd (BitVec.ofNat 32 nd) :: .wrSize (BitVec.ofNat 64 size) :: writeVecs 0 addrs)
    | .setloss loss => some (writeLosses 0 loss)
    | .recoverSet np loss =>
      some (writeLosses 0 loss ++ [.cmd (encode (.recover np loss.length))])
    | .fill addr n byte => some (fillBytes addr n byte)
    | .erase k =>
      match x.vec[k]?.getD none, x.size with
      | some a, some n =>
        if a.toNat + n.toNat ≤ 2 ^ Config.addrW then some (fillBytes a.toNat n.toNat 0x00) else none
      | _, _ => none
  else none

end Sys2Proof.Machine
end

