-- ==== Sys2Proof/Machine/Turn.lean ====
section
/-! DEFINITION. Whose step is next (00_scope.md R7, 60_exceptions.md R259): the schedule is plain data. -/

namespace Sys2Proof.Machine

/-- Some agent of the context has a step: `E_c` while a command is in flight, `H_c` while the context is
idle and its program has an action left (00_scope.md R7, 10_state.md R41, 70_reset_and_hazards.md R287). -/
def Context.hasStep (x : Context) : Bool := x.inflight.isSome || (!x.busy && !x.prog.isEmpty)

/-- The lowest context some agent of which has a step. -/
def State.firstWithStep (s : State) : Option Nat :=
  (List.range s.ctxs.length).find? fun c => (s.ctxs[c]?).any Context.hasStep

/-- The context whose agent steps next, and the state in which it does: the head of the schedule, which
is used up, or, once the schedule is empty, the lowest context with a step (log entry 1). None where no
agent has a step: the run has ended (70_reset_and_hazards.md R286). -/
def State.nextTurn (s : State) : Option State :=
  match s.sched with
  | c :: rest => some { s with turn := c, sched := rest }
  | [] => s.firstWithStep.map fun c => { s with turn := c }

/-- The state in which `H_c` performs the head of its program: the position moves past it
(10_state.md R43). -/
def State.popAction (s : State) (x : Context) : State := s.setCtx s.turn { x with prog := x.prog.tail }

/-- A context given one more action to perform first, with no command in flight, so that its host agent
has the step. -/
def Context.push (x : Context) (act : HostAction) : Context :=
  { x with busy := false, inflight := none, prog := act :: x.prog }

/-- Place a write of `w` to `CMD` as the first action of host agent `H_0`, and give `H_0` the next turn
(log entry 4). -/
def State.pushCommand (s : State) (w : Word) : State :=
  { s with ctxs := s.ctxs.modify 0 fun x => x.push (.cmd w), sched := 0 :: s.sched }

end Sys2Proof.Machine
end

