-- ==== Sys2Proof/Machine/Step.lean ====
section
/-! DEFINITION. One step of the machine: the step of the agent whose turn it is. -/

namespace Sys2Proof.Machine

/-- A write of a word to `CMD` (30_encoding.md R101, R105). -/
def issueWord (s : State) (w : Word) : Result :=
  match decode w with
  | .ok i => exec i s
  | .illegal _ => .next (hostIllegal s w)

/-- Host agent `turn`, whose context is `x` (its program moved past `act`), performs one action
(30_encoding.md R109). -/
def hostStep (s : State) (x : Context) (act : HostAction) : Result :=
  match act with
  | .wrNd v => hostRegWrite s x (.wrNd v)
  | .wrSize v => hostRegWrite s x (.wrSize v)
  | .wrVec k v => hostRegWrite s x (.wrVec k v)
  | .wrLoss k v => hostRegWrite s x (.wrLoss k v)
  | .rd r => hostRegRead s x r
  | .cmd w => issueWord s w
  | .mw a v => .next (hostMemWrite s a v)
  | .mr a => .next (hostMemRead s x a)

/-- The step of the agents of context `turn` (00_scope.md R7, 10_state.md R41): `E_c` completes a command
in flight; otherwise `H_c` performs its next action, if the context is idle and one is left. -/
def turnStep (s : State) : Result :=
  match s.ctxs[s.turn]? with
  | none => .next s
  | some x =>
    match x.inflight with
    | some f => exec f.cmd s
    | none =>
      if x.busy then .next s
      else
        match x.prog with
        | [] => .next s
        | act :: rest => hostStep (s.popAction x) { x with prog := rest } act

/-- One step. Where no agent has a step the machine waits (70_reset_and_hazards.md R281, R286). -/
def step (s : State) : Host.Outcome State Fault Refusal :=
  match s.nextTurn with
  | none => .next s
  | some t => turnStep t

/-- `s` with the word placed so that the next step issues it: as the first action of host agent `H_0`,
whose turn is next (log entry 4). -/
def State.withFetchWord (s : State) (nbits w : Nat) : State := s.pushCommand (tableWord nbits w)

end Sys2Proof.Machine
end

