-- ==== Sys2Proof/Safety.lean ====
section
/-! DEFINITION. What counts as a safe run, in the terms the statements use: the condition of an agent that
may issue, what a record in flight holds, the invariant every step keeps, and the properties of tables
and kernels that the spec takes as premises. -/

namespace Sys2Proof.Machine

/-! ## Issue conditions -/

/-- `x` is the context whose turn it is, and it is idle, so its host agent has the step (10_state.md
R41). -/
def State.idleTurn (s : State) (x : Context) : Prop :=
  s.ctxs[s.turn]? = some x ∧ x.busy = false ∧ x.inflight = none

/-- Command `i` of context `turn` is serialized: no other context has a command in flight that it must not
overlap (20_memory.md R88). -/
def State.serialFor (s : State) (i : Instr) : Prop :=
  ∀ c, c ≠ s.turn → ∀ f, s.flight? c = some f → isExclusive i = false ∧ isExclusive f.cmd = false

/-- The record conflicts with no command in flight on another context (20_memory.md R81). -/
def State.raceFreeFor (s : State) (f : Flight) : Prop :=
  ∀ c, c ≠ s.turn → ∀ g, s.flight? c = some g → f.conflicts g = false

/-- The registers of the context hold the arguments `b` of a command with `nd + np` blocks
(41_generation.md R161). -/
def Context.holdsBlocks (x : Context) (b : BlockArgs) : Prop :=
  (∃ v, x.nd = some v ∧ v.toNat = b.nd) ∧ (∃ v, x.size = some v ∧ v.toNat = b.size) ∧
    b.vec.length = b.nd + b.np ∧
    ∀ k, k < b.nd + b.np → ∃ v, x.vec[k]? = some (some v) ∧ v.toNat = b.addr k

/-- The `LOSS` registers of the context hold the loss set of `b` (43_recovery.md R200). -/
def Context.holdsLoss (x : Context) (b : BlockArgs) : Prop :=
  ∀ k, k < b.loss.length → ∃ v, x.loss[k]? = some (some v) ∧ v.toNat = b.loss.getD k 0

/-- The counts and the size are in their domains: `1 ≤ np ≤ PARITY_MAX`, `nd ≤ ND_MAX`, `size ≥ 1`
(41_generation.md R161). -/
def BlockArgs.inDomain (b : BlockArgs) (par : Params) : Prop :=
  1 ≤ b.np ∧ b.np ≤ Config.parityMax ∧ b.nd ≤ par.ndMax ∧ 1 ≤ b.size

/-- No block wraps the address space (20_memory.md R72). -/
def BlockArgs.inSpace (b : BlockArgs) : Prop :=
  ∀ k, k < b.nd + b.np → b.addr k + b.size ≤ 2 ^ Config.addrW

/-- The size is a multiple of `SIZE_GRANULE` and every block is aligned (20_memory.md R74). -/
def BlockArgs.aligned (b : BlockArgs) (par : Params) : Prop :=
  b.size % par.sizeGranule = 0 ∧ ∀ k, k < b.nd + b.np → b.addr k % par.blockAlign = 0

/-- No destination overlaps another block of the command (20_memory.md R80). -/
def BlockArgs.apart (b : BlockArgs) (dests : List Nat) : Prop :=
  ∀ k ∈ dests, ∀ k', k' < b.nd + b.np → k' ≠ k → (b.span k).meets (b.span k') = false

/-- The loss set is a valid one of at least one element (43_recovery.md R200). -/
def BlockArgs.lossOk (b : BlockArgs) : Prop :=
  1 ≤ b.loss.length ∧ b.loss.length ≤ b.np ∧ lossValid (b.nd + b.np) b.loss = true

/-- The parity count a block command carries in its word; 0 for the commands that carry none
(30_encoding.md R107). -/
def countOf : Instr → Nat
  | .init => 0
  | .setmode _ => 0
  | .gfmul _ _ => 0
  | .gfcoef _ _ => 0
  | .genref np => np
  | .gen np => np
  | .recover np _ => np
  | .selftest => 0

/-- The command is `GENREF`, `GEN` or `REC` with counts that pass step 4 of the checks
(60_exceptions.md R254). -/
def countsOk : Instr → Prop
  | .init => False
  | .setmode _ => False
  | .gfmul _ _ => False
  | .gfcoef _ _ => False
  | .genref np => 1 ≤ np ∧ np ≤ Config.parityMax
  | .gen np => 1 ≤ np ∧ np ≤ Config.parityMax
  | .recover np nr => 1 ≤ np ∧ np ≤ Config.parityMax ∧ 1 ≤ nr ∧ nr ≤ np
  | .selftest => False

/-- The command carries a loss set: it is `REC` (43_recovery.md R200). -/
def hasLoss : Instr → Bool
  | .init => false
  | .setmode _ => false
  | .gfmul _ _ => false
  | .gfcoef _ _ => false
  | .genref _ => false
  | .gen _ => false
  | .recover _ _ => true
  | .selftest => false

/-- The size of the loss set the command's word gives (43_recovery.md R200). -/
def lossCountOf : Instr → Nat
  | .init => 0
  | .setmode _ => 0
  | .gfmul _ _ => 0
  | .gfcoef _ _ => 0
  | .genref _ => 0
  | .gen _ => 0
  | .recover _ nr => nr
  | .selftest => 0

/-- The command has the granule and alignment constraints: `GEN` and `REC`, not `GENREF` (20_memory.md
R74). -/
def constrained : Instr → Bool
  | .init => false
  | .setmode _ => false
  | .gfmul _ _ => false
  | .gfcoef _ _ => false
  | .genref _ => false
  | .gen _ => true
  | .recover _ _ => true
  | .selftest => false

/-- The destination blocks of a command: the parity blocks of `GENREF` and `GEN`, the blocks at loss-set
indices of `REC` (20_memory.md R78, R79). -/
def destsOf (i : Instr) (b : BlockArgs) : List Nat :=
  match i with
  | .init => []
  | .setmode _ => []
  | .gfmul _ _ => []
  | .gfcoef _ _ => []
  | .genref _ => b.parity
  | .gen _ => b.parity
  | .recover _ _ => b.loss
  | .selftest => []

/-- The record of a block command with arguments `b`: `REC` reads the surviving blocks, the others the
data blocks (20_memory.md R79). -/
def recordOf (i : Instr) (b : BlockArgs) : Flight :=
  if hasLoss i then Flight.recOf i b else Flight.genOf i b

/-- The registers of the context hold the arguments `b` of block command `i`, each in its domain: the
checks of step 5 of 60_exceptions.md R254 up to the read of `VEC` pass. -/
def Context.holdsArgs (x : Context) (par : Params) (i : Instr) (b : BlockArgs) : Prop :=
  countsOk i ∧ b.np = countOf i ∧ b.loss.length = lossCountOf i ∧ b.inDomain par ∧ x.holdsBlocks b ∧
    (hasLoss i = true → x.holdsLoss b ∧ b.lossOk)

/-- The system that recovers the lost data of `b` has a solution method: no lost data, or a submatrix
that is not singular (43_recovery.md R204). -/
def BlockArgs.solvable (b : BlockArgs) (r : ReadyRegs) : Prop :=
  lostCount b.nd b.loss = 0 ∨ singular r.gmul (submatrix r b.nd b.np b.loss) = false

/-! ## The invariant -/

/-- A record in flight in `READY` is one an issue makes: the footprint of 20_memory.md R79, arguments that
passed the checks of 60_exceptions.md R254, or an error status with an empty footprint. -/
def readyFlightSound (par : Params) (r : ReadyRegs) (f : Flight) : Prop :=
  match f.cmd with
  | .init => f = Flight.plainOf .init
  | .setmode m => m = 0 ∧ f = Flight.plainOf (.setmode m)
  | .gfmul a b => f = Flight.plainOf (.gfmul a b)
  | .gfcoef j d => j < Config.parityMax ∧ d < par.ndMax ∧ f = Flight.plainOf (.gfcoef j d)
  | .genref np =>
    f = Flight.failedOf (.genref np) .invalidParityCount ∨
      ∃ b : BlockArgs, b.ok par = true ∧ b.np = np ∧ b.loss = [] ∧ b.apart b.parity ∧
        f = Flight.genOf (.genref np) b
  | .gen np =>
    f = Flight.failedOf (.gen np) .invalidParityCount ∨
      ∃ b : BlockArgs, b.ok par = true ∧ b.np = np ∧ b.loss = [] ∧ b.aligned par ∧ b.apart b.parity ∧
        f = Flight.genOf (.gen np) b
  | .recover np nr =>
    f = Flight.failedOf (.recover np nr) .invalidParityCount ∨
      f = Flight.failedOf (.recover np nr) .unrecoverableLoss ∨
      ∃ b : BlockArgs, b.ok par = true ∧ b.np = np ∧ b.loss.length = nr ∧ b.lossOk ∧ b.aligned par ∧
        b.solvable r ∧ b.apart b.loss ∧ f = Flight.recOf (.recover np nr) b
  | .selftest => f = Flight.plainOf .selftest

/-- A record in flight is one an issue makes; in `UNINIT` only `INIT` is in flight
(42_registry_control.md R181). -/
def flightSound (par : Params) (e : Engine) (f : Flight) : Prop :=
  match e with
  | .uninit => f = Flight.plainOf .init
  | .ready r => readyFlightSound par r f

/-- What holds in every reachable state. -/
structure State.Inv (s : State) : Prop where
  /-- `HM` is in its canonical form. -/
  mem : memWf s.hm = true
  /-- `FAULTS` holds each record once (10_state.md R37). -/
  faults : s.faults.Nodup
  /-- `BUSY` is 1 exactly while a command is in flight (10_state.md R41). -/
  busy : ∀ (c : Nat) (x : Context), s.ctxs[c]? = some x → x.busy = x.inflight.isSome
  /-- `STATUS` holds no value but a status code (10_state.md R40). -/
  status : ∀ (c : Nat) (x : Context), s.ctxs[c]? = some x → ∀ v, x.status = some v → v ∈ statusCodes
  /-- Every record in flight is one an issue makes. -/
  flights : ∀ c f, s.flight? c = some f → flightSound s.par s.engine f
  /-- Commands in flight on two contexts do not conflict, and neither is `INIT` or `SETMODE` (20_memory.md
  R81, R88). -/
  raceFree : ∀ c c' f g, c ≠ c' → s.flight? c = some f → s.flight? c' = some g →
    f.conflicts g = false ∧ isExclusive f.cmd = false
  /-- In `READY` the tables and the registry are what `INIT` makes of the model's arguments
  (40_field_tables.md R134, R139; 42_registry_control.md R184). -/
  tables : ∀ r, s.engine = .ready r → r = initRegs s.par
  /-- A context has `ND_MAX + PARITY_MAX` registers `VEC[k]` (10_state.md R39). -/
  vecs : ∀ (c : Nat) (x : Context), s.ctxs[c]? = some x → x.vec.length = s.par.vecCount
  /-- Every action of a program names registers that exist (10_state.md R39, 30_encoding.md R109). -/
  progs : ∀ (c : Nat) (x : Context), s.ctxs[c]? = some x → ∀ act ∈ x.prog, act.wf s.par.vecCount = true

/-! ## Premises the spec names -/

/-- The field laws of 40_field_tables.md R133 for a multiplication of bytes, with exclusive or as the
addition. -/
structure FieldLaws (mul : Byte → Byte → Byte) : Prop where
  comm : ∀ a b, mul a b = mul b a
  assoc : ∀ a b c, mul (mul a b) c = mul a (mul b c)
  distrib : ∀ a b c, mul a (b ^^^ c) = mul a b ^^^ mul a c
  one : ∀ a, mul 0x01 a = a
  zero : ∀ a, mul 0x00 a = 0x00
  noZeroDivisors : ∀ a b, mul a b = 0x00 → a = 0x00 ∨ b = 0x00

/-- The rows and columns of a square submatrix of a table of `ndMax` columns: `k` distinct rows in rising
order and `k` distinct columns (40_field_tables.md R138). -/
def squarePick (ndMax : Nat) (rows cols : List Nat) : Prop :=
  rows.length = cols.length ∧ 1 ≤ rows.length ∧ rows.length ≤ Config.parityMax ∧
    increasing rows = true ∧ increasing cols = true ∧
    (∀ j ∈ rows, j < Config.parityMax) ∧ ∀ d ∈ cols, d < ndMax

/-- `MDS(GEN)`: every square submatrix is invertible (40_field_tables.md R138). -/
def MdsTable (mul : Byte → Byte → Byte) (t : GenTable) : Prop :=
  ∀ rows cols : List Nat, squarePick t.ndMax rows cols →
    singular mul (rows.map fun j => cols.map fun d => coefAt t j d) = false

/-- `KernelConforms(v)` for generation, on the tables the engine holds (41_generation.md R164): on every
valid input, one that registers can hold (10_state.md R39) and that passes the issue checks of `GEN` (R162),
read from some memory `m`, `KGEN_v` gives what `RefGen` gives. -/
def genConforms (par : Params) (r : ReadyRegs) (v : Nat) : Prop :=
  ∀ (b : BlockArgs) (m : Nat → Byte) (j i : Nat),
    b.inRegisters = true → b.inDomain par → b.vec.length = b.nd + b.np → b.inSpace → b.aligned par → b.apart b.parity →
    j < b.np → i < b.size →
    Config.kgen v b.nd b.np b.size (blockList b.nd b.size fun d i => m (b.addr d + i)) j i =
      refGen r b.nd (fun d i => m (b.addr d + i)) j i

/-- `KernelConforms(v)` for recovery, on the tables the engine holds (43_recovery.md R211): on every input
that registers can hold (10_state.md R39) and that passes the issue checks of `REC` (R210), read from some
memory `m`, `KREC_v` gives what `RefRec` gives. -/
def recConforms (par : Params) (r : ReadyRegs) (v : Nat) : Prop :=
  ∀ (b : BlockArgs) (m : Nat → Byte) (k i : Nat),
    b.inRegisters = true → b.inDomain par → b.vec.length = b.nd + b.np → b.lossOk → b.inSpace → b.aligned par →
    b.solvable r → b.apart b.loss → k ∈ b.loss → i < b.size →
    Config.krec v b.nd b.np b.size b.loss
        (survivorList (b.nd + b.np) b.size b.loss fun k i => m (b.addr k + i)) k i =
      refRec r b.nd b.np b.loss (fun k i => m (b.addr k + i)) k i

/-- Every loss pattern of the self-test gives a system that is not singular: what the MDS property of
`GEN` (40_field_tables.md R138) says on the tested columns (44_selftest.md R239). -/
def testSolvable (par : Params) (r : ReadyRegs) : Prop :=
  ∀ np, 1 ≤ np → np ≤ Config.parityMax → ∀ loss ∈ testLosses par np,
    singular r.gmul (submatrix r par.stNd np loss) = false

/-- The scenarios of the self-test can be inputs of `GEN` and `REC`, as 44_selftest.md R231 intends: every block
index fits a `LOSS` register (10_state.md R39), and the blocks can be placed so that "every block address is
a multiple of `BLOCK_ALIGN` and no two blocks overlap", inside the address space: there are such addresses
`vec` for `ST_ND + PARITY_MAX` blocks of `ST_SIZE` bytes. -/
def Params.scenariosFit (par : Params) : Prop :=
  par.stNd + Config.parityMax ≤ 2 ^ 16 ∧
  ∃ vec : List Nat, vec.length = par.stNd + Config.parityMax ∧
    (∀ a ∈ vec, a % par.blockAlign = 0 ∧ a + par.stSize ≤ 2 ^ Config.addrW) ∧
    vec.Pairwise fun a a' => a + par.stSize ≤ a' ∨ a' + par.stSize ≤ a

/-- A run has ended: no command is in flight and every host program is done (70_reset_and_hazards.md
R286). -/
def State.ended (s : State) : Prop :=
  ∀ x ∈ s.ctxs, x.inflight = none ∧ x.prog = []

end Sys2Proof.Machine
end

