-- ==== Sys2Proof/Certificates/Slice0/Obligations.lean ====
section
/-! DEFINITION. The statements about the model, for the provers. Each docstring names the rule of the spec
it formalises. `s.raise src k` is `s` with the record `⟨k, s.turn, src⟩` added to `FAULTS` and nothing
else changed; `s.setCtx c x` is `s` with the registers of context `c` replaced. How the model writes a run down
is its own choice in every statement: `exec` is a command's issue on an idle context and its completion on
a busy one (log entry 2), and `nextTurn` says whose step is next (log entry 1). -/

open Sys2Proof Sys2Proof.Machine

/-! ## Encoding -/

/-- 30_encoding.md R100, R103, R107: the word of every command whose operands fit decodes to that
command. -/
def Obligations.DecodeOfEncodeIsTheCommand : Prop :=
  ∀ i : Instr, i.wf = true → decode (encode i) = .ok i

/-- 30_encoding.md R103, R104: a word that decodes to a command is the word of that command, and the
command's operands fit, so no two words decode to one command. -/
def Obligations.EncodeOfDecodedIsTheWord : Prop :=
  ∀ (w : Word) (i : Instr), decode w = .ok i → encode i = w ∧ i.wf = true

/-- 30_encoding.md R104: a word decodes to the command of the one row of the match and mask table it
matches, and is `ILLEGAL` exactly where it matches no row. -/
def Obligations.DecodePicksTheUniqueTableRow : Prop :=
  ∀ w : Word,
    (∀ i, decode w = .ok i →
      (opcodeTable.filter fun r => r.hits w).map OpcodeRow.mnemonic = [i.mnemonic]) ∧
    (∀ why, decode w = .illegal why → (opcodeTable.filter fun r => r.hits w) = [])

/-- 95_test_vectors.md V-DEC: words written out from the encoding decode as listed. -/
def Obligations.ListedWordsDecode : Prop :=
  decode 0x00000001 = .ok .init ∧ decode 0x00000002 = .ok (.setmode 0x00) ∧
  decode 0x00000102 = .ok (.setmode 0x01) ∧ decode 0x008E0210 = .ok (.gfmul 0x02 0x8E) ∧
  decode 0x00000111 = .ok (.gfcoef 1 0) ∧ decode 0x00000620 = .ok (.genref 6) ∧
  decode 0x00000321 = .ok (.gen 3) ∧ decode 0x00020330 = .ok (.recover 3 2) ∧
  decode 0x00000040 = .ok .selftest ∧ decode 0x00000101 = .illegal .operandA ∧
  decode 0x00010002 = .illegal .operandB ∧ decode 0x01000010 = .illegal .reserved ∧
  decode 0x00010321 = .illegal .operandB ∧ decode 0x00000000 = .illegal .opcode ∧
  decode 0x000000FF = .illegal .opcode ∧ decode 0x00000012 = .illegal .opcode

/-- 30_encoding.md R105: a word with an opcode outside the table, a nonzero `RSV`, or a nonzero operand
where the table says "must be 0", written to `CMD` by an idle host agent, raises `F_ILLEGAL(w)` and has
no other effect. -/
def Obligations.IllegalWordOnlyRaisesItsFault : Prop :=
  ∀ (s s' : State) (x : Context) (w : Word) (rest : List HostAction),
    s.nextTurn = some s' → s'.idleTurn x → x.prog = .cmd w :: rest →
    (opField w ∉ [0x01, 0x02, 0x10, 0x11, 0x20, 0x21, 0x30, 0x40] ∨ rsvField w ≠ 0 ∨
      (opField w ∈ [0x01, 0x40] ∧ aField w ≠ 0) ∨
      (opField w ∈ [0x01, 0x02, 0x20, 0x21, 0x40] ∧ bField w ≠ 0)) →
    step s = .next ((s'.setCtx s'.turn { x with prog := rest }).raise (.command w) (.illegal w))

/-! ## Steps -/

/-- 10_state.md R43, 30_encoding.md R101: when the word an idle host agent writes to `CMD` decodes to a
command, the step is that command's step, the agent's program having moved past it. -/
def Obligations.StepRunsTheDecodedCommand : Prop :=
  ∀ (s s' : State) (x : Context) (w : Word) (rest : List HostAction) (i : Instr),
    s.nextTurn = some s' → s'.idleTurn x → x.prog = .cmd w :: rest → decode w = .ok i →
    step s = exec i (s'.setCtx s'.turn { x with prog := rest })

/-- 00_scope.md R7, 20_memory.md R83: when the context whose turn it is has a command in flight, the step
is that command's completion. -/
def Obligations.StepCompletesTheCommandInFlight : Prop :=
  ∀ (s s' : State) (x : Context) (f : Flight),
    s.nextTurn = some s' → s'.ctxs[s'.turn]? = some x → x.inflight = some f →
    step s = exec f.cmd s'

/-- 10_state.md R48, R39: the reset values the spec gives, with the `ND_MAX + PARITY_MAX` registers
`VEC[k]` of each context. (That there are two contexts is the model's, log entry 5.) -/
def Obligations.ResetLeavesTheSpecValues : Prop :=
  State.reset.engine = .uninit ∧ State.reset.faults = [] ∧
  ∀ x ∈ State.reset.ctxs, x.nd = none ∧ x.size = none ∧ x.vec.length = State.reset.par.gen.ndMax + Config.parityMax ∧
    (∀ v ∈ x.vec, v = none) ∧
    (∀ k : Fin Config.parityMax, x.loss[k] = none) ∧ x.status = none ∧ x.result = none ∧
    x.busy = false ∧ x.inflight = none

/-! ## Issue: the checks every command shares (60_exceptions.md R254) -/

/-- 42_registry_control.md R181: any command but `INIT` issued in `UNINIT` raises `F_UNINIT(op)` and has no
effect. -/
def Obligations.CommandBeforeInitFaults : Prop :=
  ∀ (i : Instr) (s : State) (x : Context), i ≠ .init → s.idleTurn x → s.engine = .uninit →
    exec i s = .next (s.raise (.command (encode i)) (.uninit i.opcode))

/-- 20_memory.md R88: `INIT` or `SETMODE` issued while another context has a command in flight, and any
command issued while another context has `INIT` or `SETMODE` in flight, raises `F_INIT_RACE` against such a
context. -/
def Obligations.UnserializedCommandFaults : Prop :=
  ∀ (i : Instr) (s : State) (x : Context), s.par.valid = true → s.idleTurn x →
    (i = .init ∨ ∃ r, s.engine = .ready r) → ¬s.serialFor i →
    ∃ c f, c ≠ s.turn ∧ s.flight? c = some f ∧ (isExclusive i = true ∨ isExclusive f.cmd = true) ∧
      exec i s = .next (s.raise (.command (encode i)) (.initRace c))

/-- 30_encoding.md R101, 60_exceptions.md R253: an issue either records one model fault and changes nothing
else, or sets `INFLIGHT[c]` and `BUSY` of its own context and changes nothing else. -/
def Obligations.IssueRaisesOrLaunchesAndNothingElse : Prop :=
  ∀ (i : Instr) (s t : State) (x : Context), s.idleTurn x → exec i s = .next t →
    (∃ k, t = s.raise (.command (encode i)) k) ∨
      ∃ f, f.cmd = i ∧
        t = s.setCtx s.turn
        { x with busy := true, inflight := some f }

/-! ## Lookups -/

/-- 40_field_tables.md R142: in `READY`, serialized, `GFMUL a, b` goes into flight and completes with
`RESULT = MUL[a][b]` and `STATUS = OK`; nothing else changes. -/
def Obligations.GfmulWritesTheTableEntry : Prop :=
  ∀ (a b : Byte) (s : State) (x : Context) (r : ReadyRegs),
    s.idleTurn x → s.engine = .ready r → s.serialFor (.gfmul a b) →
    ∃ t, exec (.gfmul a b) s = .next t ∧
      t = s.setCtx s.turn
        { x with busy := true, inflight := some ⟨.gfmul a b, .plain, [], []⟩ } ∧
      exec (.gfmul a b) t = .next (s.setCtx s.turn
        { x with result := some (mulAt r.mul a b), status := some 0x00 })

/-- 40_field_tables.md R143: in `READY`, serialized, `GFCOEF j, d` inside the table (`GEN_T` being the
`GEN` that `INIT` copied: R139) goes into flight and completes with `RESULT = GEN_T[j][d]` and
`STATUS = OK`; nothing else changes. -/
def Obligations.GfcoefWritesTheCoefficient : Prop :=
  ∀ (j d : Nat) (s : State) (x : Context) (r : ReadyRegs) (hj : j < Config.parityMax)
    (hd : d < r.genT.ndMax),
    s.idleTurn x → s.engine = .ready r → r.genT = s.par.gen → s.serialFor (.gfcoef j d) →
    ∃ t, exec (.gfcoef j d) s = .next t ∧
      t = s.setCtx s.turn
        { x with busy := true, inflight := some ⟨.gfcoef j d, .plain, [], []⟩ } ∧
      exec (.gfcoef j d) t = .next (s.setCtx s.turn
        { x with result := some ((r.genT.rows[j])[d]), status := some 0x00 })

/-- 60_exceptions.md R254 step 4, 40_field_tables.md R143, 42_registry_control.md R186, 30_encoding.md R108:
a `GFCOEF` index outside the table, which has the columns of `GEN` (00_scope.md R9), raises
`F_ARG(coef index)`, and a `SETMODE` code other than `CAUCHY`
raises `F_MODE(code)`. -/
def Obligations.WordOperandsOutOfDomainFault : Prop :=
  (∀ (j d : Nat) (s : State) (x : Context) (r : ReadyRegs),
    s.idleTurn x → s.engine = .ready r → s.serialFor (.gfcoef j d) →
    (Config.parityMax ≤ j ∨ s.par.gen.ndMax ≤ d) →
    exec (.gfcoef j d) s = .next (s.raise (.command (encode (.gfcoef j d))) (.arg .coefIndex))) ∧
  (∀ (m : Byte) (s : State) (x : Context) (r : ReadyRegs), m ≠ 0x00 →
    s.idleTurn x → s.engine = .ready r → s.serialFor (.setmode m) →
    exec (.setmode m) s = .next (s.raise (.command (encode (.setmode m))) (.mode m)))

/-! ## Control -/

/-- 42_registry_control.md R182, R184: `INIT` in `UNINIT`, with no other command in flight, goes into
flight and completes with `READY`, `MUL[a][b] = gfmul_poly(a, b)`, `GEN_T` the parameter `GEN`, the slots
that kernel selection gives, `MODE = CAUCHY` and `STATUS = OK`; nothing else changes. (The model is
instantiated: R137, 44_selftest.md R231.) -/
def Obligations.FirstInitFillsTheTables : Prop :=
  ∀ (s : State) (x : Context), s.par.valid = true → s.idleTurn x →
    s.engine = .uninit → s.serialFor .init →
    ∃ t r, exec .init s = .next t ∧
      t = s.setCtx s.turn
        { x with busy := true, inflight := some ⟨.init, .plain, [], []⟩ } ∧
      exec .init t = .next { s.setCtx s.turn { x with status := some 0x00 } with
        engine := .ready r } ∧
      r.mode = .cauchy ∧ (∀ a b, mulAt r.mul a b = gfmulPoly s.par.poly a b) ∧ r.genT = s.par.gen ∧
      ∀ n, 1 ≤ n → n ≤ Config.parityMax →
        r.genSlotOf n = selectSlot s.par Variant.genNp n ∧
        r.recSlotOf n = selectSlot s.par Variant.recNd n

/-- 42_registry_control.md R183: `INIT` while `ESTATE = READY` completes with `STATUS = OK` and changes no
other state. -/
def Obligations.SecondInitOnlyReportsOk : Prop :=
  ∀ (s : State) (x : Context) (r : ReadyRegs), s.par.valid = true → s.idleTurn x →
    s.engine = .ready r → s.serialFor .init →
    ∃ t, exec .init s = .next t ∧
      exec .init t = .next (s.setCtx s.turn
        { x with status := some 0x00 })

/-- 40_field_tables.md R137, 44_selftest.md R231, 93_implementation_defined.md I23, I24: a model with a
reducible `POLY`, or with self-test parameters that do not fit (unless `PARITY_MAX ≤ ST_ND ≤ ND_MAX`,
`ST_SIZE ≥ 1` and `ST_SIZE mod SIZE_GRANULE = 0`), is not instantiated: its `INIT`, the first command of
every run, is refused. (That `INIT` is where it is refused is the model's: log entry 19.) -/
def Obligations.UnfitParametersAreRefused : Prop :=
  ∀ s : State,
    (polyIrreducible s.par.poly = false ∨ s.par.stNd < Config.parityMax ∨
      s.par.gen.ndMax < s.par.stNd ∨ s.par.stSize = 0 ∨ s.par.stSize % s.par.sizeGranule ≠ 0) →
    exec .init s = .refused .notInstantiated

/-- 42_registry_control.md R184: the slot holds the `id` of the last variant in list order whose
precondition holds and that accelerates `n`; where no variant does, 0. -/
def Obligations.LastApplicableVariantWins : Prop :=
  ∀ (par : Params) (field : Variant → List Nat) (n : Nat),
    (∀ (before after : List Variant) (v : Variant), par.variants = before ++ v :: after →
      v.pre.holds par.caps par.word64 = true → n ∈ field v →
      (∀ u ∈ after, ¬(u.pre.holds par.caps par.word64 = true ∧ n ∈ field u)) →
      selectSlot par field n = v.id) ∧
    ((∀ u ∈ par.variants, ¬(u.pre.holds par.caps par.word64 = true ∧ n ∈ field u)) →
      selectSlot par field n = 0)

/-- 42_registry_control.md R186: `SETMODE CAUCHY` in `READY`, with no other command in flight, goes into
flight and completes with `MODE = CAUCHY` and `STATUS = OK`; nothing else changes. -/
def Obligations.SetmodeSetsCauchy : Prop :=
  ∀ (s : State) (x : Context) (r : ReadyRegs),
    s.idleTurn x → s.engine = .ready r → s.serialFor (.setmode 0x00) →
    ∃ t, exec (.setmode 0x00) s = .next t ∧
      t = s.setCtx s.turn
        { x with busy := true, inflight := some ⟨.setmode 0x00, .plain, [], []⟩ } ∧
      exec (.setmode 0x00) t = .next { s.setCtx s.turn { x with status := some 0x00 } with
        engine := .ready { r with mode := .cauchy } }

/-! ## Generation -/

/-- 41_generation.md R160, R161: `GENREF np` on arguments that pass its checks goes into flight with the
footprint of 20_memory.md R79 and completes with byte `i` of parity block `nd + j` equal to
`gsum [gmul(data[d][i], GEN_T[j][d]) for d in 0..nd-1]` and `STATUS = OK`; every byte outside the parity
blocks, and everything else, is as before. -/
def Obligations.GenrefWritesTheReferenceParity : Prop :=
  ∀ (b : BlockArgs) (s : State) (x : Context) (r : ReadyRegs),
    s.idleTurn x → s.engine = .ready r → s.serialFor (.genref b.np) → memWf s.hm = true →
    b.inDomain s.par → b.loss = [] → x.holdsBlocks b → b.inSpace → b.apart b.parity →
    s.raceFreeFor (Flight.genOf (.genref b.np) b) →
    ∃ t m, exec (.genref b.np) s = .next t ∧
      t = s.setCtx s.turn
        { x with busy := true, inflight := some (Flight.genOf (.genref b.np) b) } ∧
      exec (.genref b.np) t = .next { s.setCtx s.turn { x with status := some 0x00 } with
        hm := m } ∧
      (∀ j i, j < b.np → i < b.size →
        memRead m (b.addr (b.nd + j) + i) =
          gsum ((List.range b.nd).map fun d =>
            mulAt r.mul (memRead s.hm (b.addr d + i)) (coefAt r.genT j d))) ∧
      ∀ a, (∀ j, j < b.np → ¬(b.addr (b.nd + j) ≤ a ∧ a < b.addr (b.nd + j) + b.size)) →
        memRead m a = memRead s.hm a

/-- 41_generation.md R162, R163: `GEN np` on arguments that pass its checks (those of `GENREF`, granule and
alignment) goes into flight and completes with the parity of the kernel in `GEN_SLOT[np]`: the reference
parity for the portable kernel 0, `KGEN_v` otherwise. Every byte outside the parity blocks, and everything
else, is as before. -/
def Obligations.GenWritesTheKernelParity : Prop :=
  ∀ (b : BlockArgs) (s : State) (x : Context) (r : ReadyRegs),
    s.idleTurn x → s.engine = .ready r → s.serialFor (.gen b.np) → memWf s.hm = true →
    b.inDomain s.par → b.loss = [] → x.holdsBlocks b → b.inSpace → b.aligned s.par → b.apart b.parity →
    s.raceFreeFor (Flight.genOf (.gen b.np) b) →
    ∃ t m, exec (.gen b.np) s = .next t ∧
      t = s.setCtx s.turn
        { x with busy := true, inflight := some (Flight.genOf (.gen b.np) b) } ∧
      exec (.gen b.np) t = .next { s.setCtx s.turn { x with status := some 0x00 } with
        hm := m } ∧
      (∀ j i, j < b.np → i < b.size →
        memRead m (b.addr (b.nd + j) + i) =
          if r.genSlotOf b.np = 0 then
            gsum ((List.range b.nd).map fun d =>
              mulAt r.mul (memRead s.hm (b.addr d + i)) (coefAt r.genT j d))
          else
            Config.kgen (r.genSlotOf b.np) b.nd b.np b.size
              ((List.range b.nd).map fun d =>
                (List.range b.size).map fun i => memRead s.hm (b.addr d + i)) j i) ∧
      ∀ a, (∀ j, j < b.np → ¬(b.addr (b.nd + j) ≤ a ∧ a < b.addr (b.nd + j) + b.size)) →
        memRead m a = memRead s.hm a

/-- 41_generation.md R162, R164: where the slot of `np` is portable, or its kernel conforms, a `GEN` in
flight completes in the same memory, engine state and registers as a `GENREF` in flight with the same
arguments. -/
def Obligations.ConformingGenMatchesGenref : Prop :=
  ∀ (b : BlockArgs) (s : State) (x : Context) (r : ReadyRegs),
    s.engine = .ready r → memWf s.hm = true → b.ok s.par = true → 1 ≤ b.size →
    b.aligned s.par → b.apart b.parity →
    (r.genSlotOf b.np = 0 ∨ genConforms s.par r (r.genSlotOf b.np)) →
    s.turn < s.ctxs.length →
    exec (.gen b.np)
        (s.setCtx s.turn { x with busy := true, inflight := some (Flight.genOf (.gen b.np) b) }) =
      exec (.genref b.np)
        (s.setCtx s.turn { x with busy := true, inflight := some (Flight.genOf (.genref b.np) b) })

/-- 41_generation.md R166: with no data blocks every parity byte `RefGen` gives is `0x00`; with one it is
the product of the data byte; and with the default `GEN` (and an irreducible `POLY`: R137) parity row 0 is
the exclusive or of the data bytes. -/
def Obligations.ReferenceParityCornerCases : Prop :=
  ∀ (r : ReadyRegs) (data : Nat → Nat → Byte) (j i : Nat),
    refGen r 0 data j i = 0x00 ∧
    refGen r 1 data j i = mulAt r.mul (data 0 i) (coefAt r.genT j 0) ∧
    ∀ (poly : Poly) (nd : Nat), polyIrreducible poly = true → r.mul = mulTable poly →
      r.genT = defaultGen poly → nd ≤ r.genT.ndMax →
      refGen r nd data 0 i = gsum ((List.range nd).map fun d => data d i)

/-! ## Recovery -/

/-- 43_recovery.md R210, R211: `REC np, nr` on arguments that pass its checks goes into flight with the
footprint of 20_memory.md R79 and completes with each block at a loss-set index holding the bytes of the
kernel in `REC_SLOT[nrd]` (`RefRec` where `nrd = 0` or the slot is portable) and `STATUS = OK`; every byte
outside those blocks, and everything else, is as before. -/
def Obligations.RecWritesTheLostBlocks : Prop :=
  ∀ (b : BlockArgs) (s : State) (x : Context) (r : ReadyRegs),
    s.idleTurn x → s.engine = .ready r → s.serialFor (.recover b.np b.loss.length) →
    memWf s.hm = true → b.inDomain s.par → b.lossOk → x.holdsBlocks b → x.holdsLoss b → b.inSpace →
    b.aligned s.par → b.solvable r → b.apart b.loss →
    s.raceFreeFor (Flight.recOf (.recover b.np b.loss.length) b) →
    ∃ t m, exec (.recover b.np b.loss.length) s = .next t ∧
      t = s.setCtx s.turn
        { x with busy := true, inflight := some (Flight.recOf (.recover b.np b.loss.length) b) } ∧
      exec (.recover b.np b.loss.length) t = .next { s.setCtx s.turn { x with status := some 0x00 } with
        hm := m } ∧
      (∀ k ∈ b.loss, ∀ i, i < b.size →
        memRead m (b.addr k + i) =
          if lostCount b.nd b.loss = 0 ∨ r.recSlotOf (lostCount b.nd b.loss) = 0 then
            refRec r b.nd b.np b.loss (fun k i => memRead s.hm (b.addr k + i)) k i
          else
            Config.krec (r.recSlotOf (lostCount b.nd b.loss)) b.nd b.np b.size b.loss
              (survivorList (b.nd + b.np) b.size b.loss fun k i => memRead s.hm (b.addr k + i)) k i) ∧
      ∀ a, (∀ k ∈ b.loss, ¬(b.addr k ≤ a ∧ a < b.addr k + b.size)) →
        memRead m a = memRead s.hm a

/-- 43_recovery.md R214: with `np ∈ 1..PARITY_MAX` a valid loss set of exactly `np` elements succeeds and
`np + 1` lost blocks complete with `UNRECOVERABLE_LOSS`; `np = 0` or `np > PARITY_MAX` completes with
`INVALID_PARITY_COUNT`, whatever the registers hold. -/
def Obligations.LossCountBoundary : Prop :=
  (∀ (b : BlockArgs) (s : State) (x : Context) (r : ReadyRegs),
    s.idleTurn x → s.engine = .ready r → s.serialFor (.recover b.np b.np) → b.inDomain s.par →
    b.loss.length = b.np → b.lossOk → x.holdsBlocks b → x.holdsLoss b → b.inSpace → b.aligned s.par →
    b.solvable r → b.apart b.loss → s.raceFreeFor (Flight.recOf (.recover b.np b.np) b) →
    ∃ t m, exec (.recover b.np b.np) s = .next t ∧
      exec (.recover b.np b.np) t = .next { s.setCtx s.turn { x with status := some 0x00 } with
        hm := m }) ∧
  (∀ (np : Nat) (s : State) (x : Context) (r : ReadyRegs),
    s.idleTurn x → s.engine = .ready r → s.serialFor (.recover np (np + 1)) →
    1 ≤ np → np ≤ Config.parityMax →
    ∃ t, exec (.recover np (np + 1)) s = .next t ∧
      exec (.recover np (np + 1)) t = .next (s.setCtx s.turn
        { x with status := some 0x02 })) ∧
  (∀ (np nr : Nat) (s : State) (x : Context) (r : ReadyRegs),
    s.idleTurn x → s.engine = .ready r → s.serialFor (.recover np nr) →
    (np = 0 ∨ Config.parityMax < np) →
    ∃ t, exec (.recover np nr) s = .next t ∧
      exec (.recover np nr) t = .next (s.setCtx s.turn
        { x with status := some 0x01 }))

/-- 60_exceptions.md R254 step 4, R255: `GENREF`, `GEN` and `REC` with `np` outside `1..PARITY_MAX`
complete with `INVALID_PARITY_COUNT`, and `REC` with `nr > np` with `UNRECOVERABLE_LOSS`, with an empty
footprint, whatever the registers hold, and write `STATUS` and nothing else. -/
def Obligations.CountErrorsWriteOnlyStatus : Prop :=
  ∀ (i : Instr) (st : Byte) (s : State) (x : Context) (r : ReadyRegs),
    s.idleTurn x → s.engine = .ready r → s.serialFor i →
    (((∃ np, (i = .genref np ∨ i = .gen np ∨ ∃ nr, i = .recover np nr) ∧
        (np = 0 ∨ Config.parityMax < np)) ∧ st = 0x01) ∨
      ((∃ np nr, i = .recover np nr ∧ 1 ≤ np ∧ np ≤ Config.parityMax ∧ np < nr) ∧ st = 0x02)) →
    ∃ t f, exec i s = .next t ∧ f.cmd = i ∧ f.rd = [] ∧ f.wr = [] ∧
      t = s.setCtx s.turn
        { x with busy := true, inflight := some f } ∧
      exec i t = .next (s.setCtx s.turn
        { x with status := some st })

/-- 43_recovery.md R200, R204, R210: `REC` with `nr = 0` raises `F_ARG(nr)`; with a loss set that is not
strictly increasing or holds an index `≥ nd + np` it raises `F_ARG(loss)`; where the submatrix is singular
it raises `F_SINGULAR(L)`. -/
def Obligations.BadLossSetsFault : Prop :=
  (∀ (np : Nat) (s : State) (x : Context) (r : ReadyRegs),
    s.idleTurn x → s.engine = .ready r → s.serialFor (.recover np 0) →
    1 ≤ np → np ≤ Config.parityMax →
    exec (.recover np 0) s = .next (s.raise (.command (encode (.recover np 0))) (.arg .nr))) ∧
  (∀ (b : BlockArgs) (s : State) (x : Context) (r : ReadyRegs),
    s.idleTurn x → s.engine = .ready r → s.serialFor (.recover b.np b.loss.length) → b.inDomain s.par →
    1 ≤ b.loss.length → b.loss.length ≤ b.np →
    (∃ v, x.nd = some v ∧ v.toNat = b.nd) → (∃ v, x.size = some v ∧ v.toNat = b.size) →
    x.holdsLoss b → lossValid (b.nd + b.np) b.loss = false →
    exec (.recover b.np b.loss.length) s =
      .next (s.raise (.command (encode (.recover b.np b.loss.length))) (.arg .loss))) ∧
  (∀ (b : BlockArgs) (s : State) (x : Context) (r : ReadyRegs),
    s.idleTurn x → s.engine = .ready r → s.serialFor (.recover b.np b.loss.length) →
    x.holdsArgs s.par (.recover b.np b.loss.length) b → b.inSpace → b.aligned s.par → ¬b.solvable r →
    exec (.recover b.np b.loss.length) s =
      .next (s.raise (.command (encode (.recover b.np b.loss.length))) (.singular b.loss)))

/-! ## Argument and placement faults of the block commands (60_exceptions.md R254 steps 5 to 7) -/

/-- 10_state.md R42, 60_exceptions.md R254 step 5, 43_recovery.md R210: a block command raises `F_UNWRITTEN`
for `ND`, then `SIZE`, then (for `REC`) the first unwritten `LOSS[k]`, then the first unwritten `VEC[k]`.
(That every `LOSS[k]` is read before the loss set is checked, so that an unwritten one is named whatever the
ones before it hold, is the order of 43_recovery.md section 4, DEDUCED: log entry 26.) -/
def Obligations.UnwrittenArgumentFaults : Prop :=
  (∀ (i : Instr) (s : State) (x : Context) (r : ReadyRegs),
    s.idleTurn x → s.engine = .ready r → s.serialFor i → countsOk i → x.nd = none →
    exec i s = .next (s.raise (.command (encode i)) (.unwritten .nd))) ∧
  (∀ (i : Instr) (s : State) (x : Context) (r : ReadyRegs) (v : BitVec 32),
    s.idleTurn x → s.engine = .ready r → s.serialFor i → countsOk i → x.nd = some v →
    v.toNat ≤ s.par.gen.ndMax → x.size = none →
    exec i s = .next (s.raise (.command (encode i)) (.unwritten .size))) ∧
  (∀ (np nr : Nat) (s : State) (x : Context) (r : ReadyRegs) (v : BitVec 32) (w : Addr) (k : Nat),
    s.idleTurn x → s.engine = .ready r → s.serialFor (.recover np nr) → countsOk (.recover np nr) →
    x.nd = some v → v.toNat ≤ s.par.gen.ndMax → x.size = some w → 1 ≤ w.toNat →
    k < nr → x.loss[k]? = some none → (∀ k', k' < k → ∃ u, x.loss[k']? = some (some u)) →
    exec (.recover np nr) s =
      .next (s.raise (.command (encode (.recover np nr))) (.unwritten (.loss k)))) ∧
  (∀ (i : Instr) (s : State) (x : Context) (r : ReadyRegs) (v : BitVec 32) (w : Addr) (k : Nat),
    s.idleTurn x → s.engine = .ready r → s.serialFor i → countsOk i → hasLoss i = false →
    x.nd = some v → v.toNat ≤ s.par.gen.ndMax → x.size = some w → 1 ≤ w.toNat →
    k < v.toNat + countOf i → x.vec[k]? = some none →
    (∀ k', k' < k → ∃ u, x.vec[k']? = some (some u)) →
    exec i s = .next (s.raise (.command (encode i)) (.unwritten (.vec k)))) ∧
  (∀ (b : BlockArgs) (s : State) (x : Context) (r : ReadyRegs) (k : Nat),
    s.idleTurn x → s.engine = .ready r → s.serialFor (.recover b.np b.loss.length) → b.inDomain s.par →
    b.lossOk → (∃ v, x.nd = some v ∧ v.toNat = b.nd) → (∃ v, x.size = some v ∧ v.toNat = b.size) →
    x.holdsLoss b → k < b.nd + b.np → x.vec[k]? = some none →
    (∀ k', k' < k → ∃ u, x.vec[k']? = some (some u)) →
    exec (.recover b.np b.loss.length) s =
      .next (s.raise (.command (encode (.recover b.np b.loss.length))) (.unwritten (.vec k))))

/-- 41_generation.md R161, 43_recovery.md R210, 00_scope.md R9: `nd > ND_MAX`, the number of columns of
`GEN`, raises `F_ARG(nd)`, and `size = 0` raises `F_ARG(size)`. -/
def Obligations.ArgumentsOutOfDomainFault : Prop :=
  (∀ (i : Instr) (s : State) (x : Context) (r : ReadyRegs) (v : BitVec 32),
    s.idleTurn x → s.engine = .ready r → s.serialFor i → countsOk i → x.nd = some v →
    s.par.gen.ndMax < v.toNat →
    exec i s = .next (s.raise (.command (encode i)) (.arg .nd))) ∧
  (∀ (i : Instr) (s : State) (x : Context) (r : ReadyRegs) (v : BitVec 32),
    s.idleTurn x → s.engine = .ready r → s.serialFor i → countsOk i → x.nd = some v →
    v.toNat ≤ s.par.gen.ndMax → x.size = some 0 →
    exec i s = .next (s.raise (.command (encode i)) (.arg .size)))

/-- 20_memory.md R72, 41_generation.md R161, 43_recovery.md R210: a block that wraps the address space is
`F_ARG(block k wraps)`. (That the lowest such block is named is the order of the loops of R161 and R210: log
entry 14.) -/
def Obligations.WrappingBlockFaults : Prop :=
  ∀ (i : Instr) (b : BlockArgs) (s : State) (x : Context) (r : ReadyRegs) (k : Nat),
    s.idleTurn x → s.engine = .ready r → s.serialFor i → x.holdsArgs s.par i b →
    k < b.nd + b.np → 2 ^ 64 < b.addr k + b.size → (∀ k', k' < k → b.addr k' + b.size ≤ 2 ^ 64) →
    exec i s = .next (s.raise (.command (encode i)) (.arg (.wraps k)))

/-- 20_memory.md R74, 00_scope.md R13, 41_generation.md R162, 43_recovery.md R210, 60_exceptions.md R254 step
5: `GEN` and `REC` raise `F_ARG(granule)` for a size that is not a multiple of `SIZE_GRANULE`, and then
`F_ARG(align k)` for the first block whose address is not one of `BLOCK_ALIGN`. (Granule before alignment,
and the lowest block, are the order of R162, R210 and R254: log entry 14.) -/
def Obligations.MisplacedBlocksFault : Prop :=
  ∀ (i : Instr) (b : BlockArgs) (s : State) (x : Context) (r : ReadyRegs),
    s.idleTurn x → s.engine = .ready r → s.serialFor i → x.holdsArgs s.par i b → b.inSpace →
    constrained i = true →
    (b.size % s.par.sizeGranule ≠ 0 → exec i s = .next (s.raise (.command (encode i)) (.arg .granule))) ∧
    ∀ k, b.size % s.par.sizeGranule = 0 → k < b.nd + b.np → b.addr k % s.par.blockAlign ≠ 0 →
      (∀ k', k' < k → b.addr k' % s.par.blockAlign = 0) →
      exec i s = .next (s.raise (.command (encode i)) (.arg (.align k)))

/-- 20_memory.md R80: a destination block that overlaps another block of the command raises `F_ALIAS` with
two such blocks. (Which pair, where several overlap, is the model's choice: log entry 14.) -/
def Obligations.OverlappingDestinationFaults : Prop :=
  ∀ (i : Instr) (b : BlockArgs) (s : State) (x : Context) (r : ReadyRegs),
    s.idleTurn x → s.engine = .ready r → s.serialFor i → x.holdsArgs s.par i b → b.inSpace →
    (constrained i = true → b.aligned s.par) → (hasLoss i = true → b.solvable r) →
    ¬b.apart (destsOf i b) →
    ∃ k k', k ∈ destsOf i b ∧ k' < b.nd + b.np ∧ k' ≠ k ∧
      (∃ a, b.addr k ≤ a ∧ a < b.addr k + b.size ∧ b.addr k' ≤ a ∧ a < b.addr k' + b.size) ∧
      exec i s = .next (s.raise (.command (encode i)) (.overlap k k'))

/-- 20_memory.md R81: a command whose footprint conflicts with that of a command in flight on another
context raises `F_RACE` against such a context. (Which one, where several conflict, is the model's choice:
log entry 14.) -/
def Obligations.ConflictingFootprintFaults : Prop :=
  ∀ (i : Instr) (b : BlockArgs) (s : State) (x : Context) (r : ReadyRegs),
    s.idleTurn x → s.engine = .ready r → s.serialFor i → x.holdsArgs s.par i b → b.inSpace →
    (constrained i = true → b.aligned s.par) → (hasLoss i = true → b.solvable r) → b.apart (destsOf i b) →
    ¬s.raceFreeFor (recordOf i b) →
    ∃ c g a, c ≠ s.turn ∧ s.flight? c = some g ∧
      ((spansHold (recordOf i b).wr a = true ∧ (spansHold g.rd a = true ∨ spansHold g.wr a = true)) ∨
        (spansHold (recordOf i b).rd a = true ∧ spansHold g.wr a = true)) ∧
      exec i s = .next (s.raise (.command (encode i)) (.race (.context s.turn) c))

/-! ## Self-test -/

/-- 44_selftest.md R230, R232: `SELFTEST` in `READY`, serialized, goes into flight with an empty footprint
and completes with `ALLOCATION_FAILURE` where the draw is false, and otherwise with `OK` or
`SELFTEST_MISMATCH` as its checks pass or not, whatever the draw's value; it uses up one draw, and nothing
else changes. (The draw counter is the model's: log entry 8.) -/
def Obligations.SelftestReportsItsChecks : Prop :=
  ∀ (s : State) (x : Context) (r : ReadyRegs),
    s.idleTurn x → s.engine = .ready r → s.serialFor .selftest →
    ∃ t st, exec .selftest s = .next t ∧
      t = s.setCtx s.turn
        { x with busy := true, inflight := some ⟨.selftest, .plain, [], []⟩ } ∧
      exec .selftest t = .next { s.setCtx s.turn { x with status := some st } with
        draws := s.draws + 1 } ∧
      (Config.allocDraw s.draws = false → st = 0x03) ∧
      (Config.allocDraw s.draws = true →
        ((∀ np, 1 ≤ np → np ≤ Config.parityMax → genCheck s.par r np = true ∧
          recCheck s.par r np (fullLoss s.par np) = true ∧ recCheck s.par r np (leadLoss s.par np) = true ∧
          recCheck s.par r np (trailLoss s.par np) = true) → st = 0x00) ∧
        ((∃ np, 1 ≤ np ∧ np ≤ Config.parityMax ∧ (genCheck s.par r np = false ∨
          recCheck s.par r np (fullLoss s.par np) = false ∨ recCheck s.par r np (leadLoss s.par np) = false ∨
          recCheck s.par r np (trailLoss s.par np) = false)) → st = 0x04))

/-- 44_selftest.md R239: where `MUL` has the field laws, every loss pattern's system can be solved, and
every slot is portable or holds a conforming kernel, every check of the self-test passes, so it completes
with `OK` or `ALLOCATION_FAILURE`, never `SELFTEST_MISMATCH`. (The self-test parameters fit, every block
index fits a `LOSS` register and the blocks can be placed as R231 has it, so that every scenario is a valid
input of the kernels.) -/
def Obligations.SelftestPassesOnConformingKernels : Prop :=
  ∀ (par : Params) (r : ReadyRegs), par.valid = true → par.scenariosFit → FieldLaws (mulAt r.mul) →
    testSolvable par r →
    (∀ n, 1 ≤ n → n ≤ Config.parityMax → r.genSlotOf n = 0 ∨ genConforms par r (r.genSlotOf n)) →
    (∀ n, 1 ≤ n → n ≤ Config.parityMax → r.recSlotOf n = 0 ∨ recConforms par r (r.recSlotOf n)) →
    selftestPasses par r = true ∧
      ∀ drawn, selftestStatus par r drawn = .ok ∨ selftestStatus par r drawn = .allocationFailure

/-! ## Frames: what a completion leaves unchanged -/

/-- 60_exceptions.md R255, 40_field_tables.md R142, R143, 42_registry_control.md R182, R186, 44_selftest.md
R230: a completion of `INIT`, `SETMODE`, `GFMUL`, `GFCOEF` or `SELFTEST` leaves every byte of memory,
`FAULTS`, every other context and every argument register as before; `RESULT` unless it is a lookup; the
tables and the slots unless it is `INIT`. -/
def Obligations.FrameOfCommandsWithoutBlocks : Prop :=
  ∀ (i : Instr) (s t : State) (x : Context) (f : Flight),
    (i = .init ∨ (∃ m, i = .setmode m) ∨ (∃ a b, i = .gfmul a b) ∨ (∃ j d, i = .gfcoef j d) ∨
      i = .selftest) →
    s.ctxs[s.turn]? = some x → x.inflight = some f → exec i s = .next t →
    t.faults = s.faults ∧ t.par = s.par ∧ t.ctxs.length = s.ctxs.length ∧
    (∀ a, memRead t.hm a = memRead s.hm a) ∧
    (∀ c, c ≠ s.turn → t.ctxs[c]? = s.ctxs[c]?) ∧
    (∃ y, t.ctxs[s.turn]? = some y ∧ y.nd = x.nd ∧ y.size = x.size ∧ y.vec = x.vec ∧ y.loss = x.loss ∧
      y.prog = x.prog ∧ y.seen = x.seen ∧ y.busy = false ∧ y.inflight = none ∧
      ((∀ a b, i ≠ .gfmul a b) → (∀ j d, i ≠ .gfcoef j d) → y.result = x.result)) ∧
    (i ≠ .init → ∀ r, s.engine = .ready r → ∃ r', t.engine = .ready r' ∧ r'.mul = r.mul ∧
      r'.genT = r.genT ∧ r'.genSlot = r.genSlot ∧ r'.recSlot = r.recSlot) ∧
    (i ≠ .selftest → t.draws = s.draws)

/-- 20_memory.md R75, 43_recovery.md R212: a completion of `GENREF`, `GEN` or `REC` with captured arguments
`b` leaves every byte outside its destination blocks, the engine, `FAULTS`, every other context and every
register but `STATUS` as before. -/
def Obligations.FrameOfBlockCommands : Prop :=
  ∀ (i : Instr) (s t : State) (x : Context) (f : Flight) (b : BlockArgs),
    ((∃ np, i = .genref np) ∨ (∃ np, i = .gen np) ∨ ∃ np nr, i = .recover np nr) →
    memWf s.hm = true → s.ctxs[s.turn]? = some x → x.inflight = some f → f.args = .blocks b →
    exec i s = .next t →
    t.engine = s.engine ∧ t.faults = s.faults ∧ t.par = s.par ∧ t.draws = s.draws ∧
    t.ctxs = s.ctxs.set s.turn { x with status := some 0x00, busy := false, inflight := none } ∧
    ∀ a, (∀ k ∈ destsOf i b, ¬(b.addr k ≤ a ∧ a < b.addr k + b.size)) →
      memRead t.hm a = memRead s.hm a

/-! ## Host actions -/

/-- 10_state.md R39, 70_reset_and_hazards.md R283: a host write of `ND`, `SIZE`, `VEC[k]` or `LOSS[k]` stores
the whole register of the agent's own context, and nothing else changes but the agent's position in its
program. (That an index `k` of `VEC` not below `ND_MAX + PARITY_MAX` stops the model is its own:
log entry 23.) -/
def Obligations.HostWriteStoresTheRegister : Prop :=
  ∀ (s s' : State) (x : Context) (rest : List HostAction),
    s.nextTurn = some s' → s'.idleTurn x →
    (∀ v, x.prog = .wrNd v :: rest →
      step s = .next (s'.setCtx s'.turn { x with prog := rest, nd := some v })) ∧
    (∀ v, x.prog = .wrSize v :: rest →
      step s = .next (s'.setCtx s'.turn { x with prog := rest, size := some v })) ∧
    (∀ k v, x.prog = .wrVec k v :: rest → k < s.par.vecCount →
      step s = .next (s'.setCtx s'.turn { x with prog := rest, vec := x.vec.set k (some v) })) ∧
    (∀ k v, x.prog = .wrVec k v :: rest → s.par.vecCount ≤ k → step s = .fault .noRegister) ∧
    (∀ k v, x.prog = .wrLoss k v :: rest →
      step s = .next (s'.setCtx s'.turn { x with prog := rest, loss := x.loss.set k (some v) }))

/-- 10_state.md R39, R42, 60_exceptions.md R252: a host read returns the whole register; of a register never
written it raises `F_UNWRITTEN`; of `CMD` it raises `F_ILLEGAL(read CMD)`. (That an index of `VEC` not
below `ND_MAX + PARITY_MAX` stops the model is its own: log entry 23.) -/
def Obligations.HostReadReturnsTheRegister : Prop :=
  ∀ (s s' : State) (x : Context) (q : ReadReg) (rest : List HostAction),
    s.nextTurn = some s' → s'.idleTurn x → x.prog = .rd q :: rest →
    (∀ v, q.wf s.par.vecCount = true → regValue x q = some v →
      step s = .next (s'.setCtx s'.turn
        { x with prog := rest, seen := x.seen ++ [⟨.rd q, v⟩] })) ∧
    (∀ name, q.wf s.par.vecCount = true → regName q = some name → regValue x q = none →
      step s = .next ((s'.setCtx s'.turn { x with prog := rest }).raise (.access (.rd q))
        (.unwritten name))) ∧
    (q = .cmd →
      step s = .next ((s'.setCtx s'.turn { x with prog := rest }).raise (.access (.rd q))
        .illegalReadCmd)) ∧
    (q.wf s.par.vecCount = false → step s = .fault .noRegister)

/-- 20_memory.md R82: a host memory write into the footprint of a command in flight, or a host memory read
of a byte such a command writes, raises `F_RACE(host, c)` and does nothing; any other write stores the byte,
and any other read returns it (a byte a command only reads may be read). -/
def Obligations.HostMemoryAccessRespectsFootprints : Prop :=
  ∀ (s s' : State) (x : Context) (a : Addr) (rest : List HostAction),
    s.nextTurn = some s' → s'.idleTurn x →
    (∀ v, x.prog = .mw a v :: rest →
      ((∀ c f, s'.flight? c = some f → spansHold f.rd a.toNat = false ∧ spansHold f.wr a.toNat = false) →
        step s = .next { s'.setCtx s'.turn { x with prog := rest } with
          hm := memWrite s'.hm a.toNat v }) ∧
      ((∃ c f, s'.flight? c = some f ∧ (spansHold f.rd a.toNat = true ∨ spansHold f.wr a.toNat = true)) →
        ∃ c, (∃ f, s'.flight? c = some f ∧
            (spansHold f.rd a.toNat = true ∨ spansHold f.wr a.toNat = true)) ∧
          step s = .next ((s'.setCtx s'.turn { x with prog := rest }).raise (.access (.mw a v))
            (.race .host c)))) ∧
    (x.prog = .mr a :: rest →
      ((∀ c f, s'.flight? c = some f → spansHold f.wr a.toNat = false) →
        step s = .next (s'.setCtx s'.turn { x with
          prog := rest, seen := x.seen ++ [⟨.mr a, (memRead s'.hm a.toNat).setWidth 64⟩] })) ∧
      ((∃ c f, s'.flight? c = some f ∧ spansHold f.wr a.toNat = true) →
        ∃ c, (∃ f, s'.flight? c = some f ∧ spansHold f.wr a.toNat = true) ∧
          step s = .next ((s'.setCtx s'.turn { x with prog := rest }).raise (.access (.mr a))
            (.race .host c))))

/-- 30_encoding.md R110: the expansion of `SETLOSS l0, ..., l(r-1)`, performed in order, leaves `LOSS[k] = lk`
for each `k < r` and every other register as before. -/
def Obligations.SetlossWritesTheLossRegisters : Prop :=
  ∀ (par : Params) (x : Context) (loss : List Nat), (Pseudo.setloss loss).wf par.vecCount = true →
    ∃ acts, expandPseudo par x (.setloss loss) = some acts ∧
      ∃ l', acts.foldl hostWrite x = { x with loss := l' } ∧
        ∀ k (hk : k < Config.parityMax),
          l'[k] = if k < loss.length then some (BitVec.ofNat 16 (loss.getD k 0)) else x.loss[k]

/-! ## Invariants -/

/-- The invariant holds at reset. -/
def Obligations.InvariantHoldsAtReset : Prop := State.reset.Inv

/-- Every step keeps the invariant: memory in canonical form, each fault record once (10_state.md R37),
`BUSY` exactly while a command is in flight (R41), `STATUS` a status code (R40), every record in flight one
an issue makes, no two commands in flight in conflict and `INIT` and `SETMODE` alone (20_memory.md R81, R88),
the tables and slots those of the model's arguments (40_field_tables.md R134, R139,
42_registry_control.md R184), and `ND_MAX + PARITY_MAX` registers `VEC[k]` in every context, with no action
left that names another (10_state.md R39). -/
def Obligations.StepKeepsTheInvariant : Prop :=
  ∀ s t : State, s.Inv → step s = .next t → t.Inv

/-- 60_exceptions.md R250: from every state that meets the invariant, of a model that is instantiated
(40_field_tables.md R137, 44_selftest.md R231), a step answers a next state: no run stops. -/
def Obligations.NoRunStops : Prop :=
  ∀ s : State, s.Inv → s.par.valid = true → ∃ t, step s = .next t

/-- 70_reset_and_hazards.md R287, 10_state.md R40: a command in flight on the context whose turn it is
completes in that step: the context is idle after it and `STATUS` holds a status code. -/
def Obligations.CommandInFlightCompletesInItsTurn : Prop :=
  ∀ (s s' : State) (f : Flight), s.Inv → s.par.valid = true →
    s.nextTurn = some s' → s'.flight? s'.turn = some f →
    ∃ t y v, step s = .next t ∧ t.ctxs[s'.turn]? = some y ∧ y.inflight = none ∧ y.busy = false ∧
      y.status = some v ∧ v ∈ [0x00, 0x01, 0x02, 0x03, 0x04]

/-- 20_memory.md R83: between issue and completion no byte of the footprint changes: a step of an agent of
another context leaves the record in flight, every register of its context and every byte of its footprint
as before. -/
def Obligations.FootprintIsStableInFlight : Prop :=
  ∀ (s s' t : State) (c : Nat) (f : Flight), s.Inv → s.nextTurn = some s' → s'.turn ≠ c →
    s.flight? c = some f → step s = .next t →
    t.ctxs[c]? = s.ctxs[c]? ∧
    ∀ a, (spansHold f.rd a = true ∨ spansHold f.wr a = true) → memRead t.hm a = memRead s.hm a

/-- 10_state.md R31, R33 to R36, 40_field_tables.md R141, 42_registry_control.md R180, R185: only a
completing `INIT` takes the engine from `UNINIT` to `READY`; no step leaves `READY`, and in `READY` no step
changes `MUL`, `GEN_T` or a slot. -/
def Obligations.EngineTransitionsOnceAndTablesStay : Prop :=
  ∀ s t : State, step s = .next t →
    (∀ r, s.engine = .ready r →
      ∃ r', t.engine = .ready r' ∧ r'.mul = r.mul ∧ r'.genT = r.genT ∧ r'.genSlot = r.genSlot ∧
        r'.recSlot = r.recSlot) ∧
    (∀ r, s.engine = .uninit → t.engine = .ready r →
      ∃ s' f, s.nextTurn = some s' ∧ s'.flight? s'.turn = some f ∧ f.cmd = .init)

/-- 60_exceptions.md R253, 10_state.md R46: no step removes a fault record, and none changes the model's
arguments. -/
def Obligations.FaultsStayAndArgumentsAreFixed : Prop :=
  ∀ s t : State, step s = .next t → t.par = s.par ∧ ∀ q ∈ s.faults, q ∈ t.faults

/-- 00_scope.md R7, 60_exceptions.md R263: a step of an agent of one context leaves the registers of every
other context, and the number of contexts, as before. -/
def Obligations.OtherContextsAreUntouched : Prop :=
  ∀ s s' t : State, s.nextTurn = some s' → step s = .next t →
    t.ctxs.length = s.ctxs.length ∧ ∀ c, c ≠ s'.turn → t.ctxs[c]? = s.ctxs[c]?

/-- 40_field_tables.md R142, 10_state.md R44: `RESULT` of a context changes only where a `GFMUL` or
`GFCOEF` in flight on it completes. -/
def Obligations.OnlyLookupsWriteResult : Prop :=
  ∀ (s t : State) (c : Nat) (x y : Context), step s = .next t → s.ctxs[c]? = some x →
    t.ctxs[c]? = some y → y.result ≠ x.result →
    ∃ f, s.flight? c = some f ∧ ((∃ a b, f.cmd = .gfmul a b) ∨ ∃ j d, f.cmd = .gfcoef j d)

/-- 10_state.md R45, 20_memory.md R75: a step changes a byte of memory only where a completing command
writes it, inside its footprint, or where it is the target of the stepping host agent's memory write. -/
def Obligations.MemoryChangesOnlyWhereWritten : Prop :=
  ∀ (s t : State) (a : Nat), s.Inv → step s = .next t → memRead t.hm a ≠ memRead s.hm a →
    ∃ s' x, s.nextTurn = some s' ∧ s.ctxs[s'.turn]? = some x ∧
      ((∃ f, x.inflight = some f ∧ spansHold f.wr a = true) ∨
        ∃ addr v rest, x.prog = .mw addr v :: rest ∧ addr.toNat = a)

/-- 20_memory.md R84: two commands in flight on different contexts commute: completing one and then the
other leaves, in either order, the same engine, memory, registers and faults, except where both draw from
the allocation collaborator (70_reset_and_hazards.md R286). -/
def Obligations.CompletionsOnTwoContextsCommute : Prop :=
  ∀ (s : State) (c c' : Nat) (f g : Flight), s.Inv → s.par.valid = true → c ≠ c' →
    s.flight? c = some f → s.flight? c' = some g → ¬(f.cmd = .selftest ∧ g.cmd = .selftest) →
    ∃ t t' u u', exec f.cmd { s with turn := c } = .next t ∧ exec g.cmd { t with turn := c' } = .next u ∧
      exec g.cmd { s with turn := c' } = .next t' ∧ exec f.cmd { t' with turn := c } = .next u' ∧
      u.engine = u'.engine ∧ u.hm = u'.hm ∧ u.ctxs = u'.ctxs ∧ u.faults = u'.faults ∧
      u.draws = u'.draws

/-! ## The field, the solver, the guarantees -/

/-- 40_field_tables.md R132, R133, R134, R137: with an irreducible `POLY` the table `INIT` fills has the
field laws. -/
def Obligations.TableHasTheFieldLaws : Prop :=
  ∀ poly : Poly, polyIrreducible poly = true →
    FieldLaws (mulAt (mulTable poly)) ∧ ∀ a b, mulAt (mulTable poly) a b = gfmulPoly poly a b

/-- 40_field_tables.md R135: under the field laws `ginv(a)` is, for `a ≠ 0x00`, the unique `b` whose product
with `a` is `0x01`. -/
def Obligations.InverseIsUnique : Prop :=
  ∀ mul : Byte → Byte → Byte, FieldLaws mul → ∀ a, a ≠ 0x00 →
    mul a (ginv mul a) = 0x01 ∧ ∀ b, mul a b = 0x01 → b = ginv mul a

/-- 43_recovery.md R204, R206: under the field laws, for a square matrix that is not singular, `Solve`
returns a solution of the system, and it is the only one. -/
def Obligations.SolveGivesTheUniqueSolution : Prop :=
  ∀ (mul : Byte → Byte → Byte) (coeffs : List (List Byte)) (rhs : List Byte), FieldLaws mul →
    coeffs.length = rhs.length → (∀ row ∈ coeffs, row.length = rhs.length) →
    singular mul coeffs = false →
    (solve mul coeffs rhs).length = rhs.length ∧
    ∀ xs : List Byte, xs.length = rhs.length →
      ((∀ a, a < rhs.length →
        gsum ((List.range rhs.length).map fun b =>
          mul (rowAt (coeffs.getD a []) b) (xs.getD b 0)) = rhs.getD a 0) ↔ xs = solve mul coeffs rhs)

/-- 43_recovery.md R204: the singularity check is right: under the field laws a square matrix is singular
exactly where some nonzero vector is mapped to zero. -/
def Obligations.SingularMeansNonzeroKernel : Prop :=
  ∀ (mul : Byte → Byte → Byte) (coeffs : List (List Byte)), FieldLaws mul →
    (∀ row ∈ coeffs, row.length = coeffs.length) →
    (singular mul coeffs = true ↔
      ∃ xs : List Byte, xs.length = coeffs.length ∧ (∃ b ∈ xs, b ≠ 0x00) ∧
        ∀ a, a < coeffs.length →
          gsum ((List.range coeffs.length).map fun b =>
            mul (rowAt (coeffs.getD a []) b) (xs.getD b 0)) = 0x00)

/-- 43_recovery.md R207, R208: for an invertible system of one unknown, and of two, `Solve` gives the closed
form; for two, `δ` is not `0x00`. -/
def Obligations.ClosedFormsAgreeWithSolve : Prop :=
  ∀ mul : Byte → Byte → Byte, FieldLaws mul →
    (∀ a r, singular mul [[a]] = false → solve mul [[a]] [r] = [mul r (ginv mul a)]) ∧
    ∀ a b c d r0 r1, singular mul [[a, b], [c, d]] = false →
      mul a d ^^^ mul b c ≠ 0x00 ∧
      solve mul [[a, b], [c, d]] [r0, r1] =
        [mul (ginv mul (mul a d ^^^ mul b c)) (mul d r0 ^^^ mul b r1),
         mul (ginv mul (mul a d ^^^ mul b c)) (mul c r0 ^^^ mul a r1)]

/-- 43_recovery.md R213: the round-trip law. Let the surviving blocks hold what data `data` and the parity
`RefGen` gives for it would put there, and the blocks at a valid loss set hold any bytes. A `REC` in flight
on them, its slot portable or holding a conforming kernel, completes and leaves every block equal to that
data and parity. -/
def Obligations.RecRestoresGeneratedBlocks : Prop :=
  ∀ (b : BlockArgs) (s : State) (x : Context) (r : ReadyRegs) (data : Nat → Nat → Byte),
    FieldLaws (mulAt r.mul) → s.engine = .ready r → memWf s.hm = true → s.ctxs[s.turn]? = some x →
    x.inflight = some (Flight.recOf (.recover b.np b.loss.length) b) → b.ok s.par = true → b.inDomain s.par →
    b.lossOk → b.aligned s.par → b.solvable r → b.apart b.loss →
    (r.recSlotOf (lostCount b.nd b.loss) = 0 ∨ recConforms s.par r (r.recSlotOf (lostCount b.nd b.loss))) →
    (∀ k, k < b.nd + b.np → k ∉ b.loss → ∀ i, i < b.size →
      memRead s.hm (b.addr k + i) =
        if k < b.nd then data k i else refGen r b.nd data (k - b.nd) i) →
    ∃ t, exec (.recover b.np b.loss.length) s = .next t ∧
      ∀ k, k < b.nd + b.np → ∀ i, i < b.size →
        memRead t.hm (b.addr k + i) =
          if k < b.nd then data k i else refGen r b.nd data (k - b.nd) i

/-- 40_field_tables.md R138, R139: with an irreducible `POLY` the default table, an extended Cauchy matrix,
has the MDS property. -/
def Obligations.DefaultTableIsMds : Prop :=
  ∀ poly : Poly, polyIrreducible poly = true → MdsTable (mulAt (mulTable poly)) (defaultGen poly)

/-- 43_recovery.md R204: where `GEN_T` has the MDS property every valid loss set gives a system that can be
solved, so `F_SINGULAR` is never raised. -/
def Obligations.MdsMakesEveryLossSolvable : Prop :=
  ∀ (r : ReadyRegs) (par : Params) (b : BlockArgs), r.genT = par.gen →
    MdsTable (mulAt r.mul) r.genT → b.inDomain par → b.lossOk →
    b.solvable r
end

