-- ==== Sys2Proof/Laws/Decode.lean ====
section
/-! SUPPORT. The fields of a command word (30_encoding.md R100): a word is its four fields, and a field is
read back from the word it was placed in. -/

namespace Sys2Proof

/-- Bit `i` of a word, by the field it lies in. -/
theorem getLsbD_wordOf (z b a o : Byte) (i : Nat) :
    (wordOf z b a o).getLsbD i =
      if i < 8 then o.getLsbD i else if i < 16 then a.getLsbD (i - 8)
      else if i < 24 then b.getLsbD (i - 16) else z.getLsbD (i - 24) := by
  simp only [wordOf, BitVec.getLsbD_cast, BitVec.getLsbD_append]
  split_ifs <;> first | rfl | (exfalso; omega)

section fields
variable (z b a o : Byte)

@[simp] theorem opField_wordOf : opField (wordOf z b a o) = o := by
  apply BitVec.eq_of_getLsbD_eq
  intro i hi
  simp only [opField, BitVec.getLsbD_extractLsb', getLsbD_wordOf, hi, decide_true, Bool.true_and]
  rw [if_pos (by omega)]; congr 1; omega

@[simp] theorem aField_wordOf : aField (wordOf z b a o) = a := by
  apply BitVec.eq_of_getLsbD_eq
  intro i hi
  simp only [aField, BitVec.getLsbD_extractLsb', getLsbD_wordOf, hi, decide_true, Bool.true_and]
  rw [if_neg (by omega), if_pos (by omega)]; congr 1; omega

@[simp] theorem bField_wordOf : bField (wordOf z b a o) = b := by
  apply BitVec.eq_of_getLsbD_eq
  intro i hi
  simp only [bField, BitVec.getLsbD_extractLsb', getLsbD_wordOf, hi, decide_true, Bool.true_and]
  rw [if_neg (by omega), if_neg (by omega), if_pos (by omega)]; congr 1; omega

@[simp] theorem rsvField_wordOf : rsvField (wordOf z b a o) = z := by
  apply BitVec.eq_of_getLsbD_eq
  intro i hi
  simp only [rsvField, BitVec.getLsbD_extractLsb', getLsbD_wordOf, hi, decide_true, Bool.true_and]
  rw [if_neg (by omega), if_neg (by omega), if_neg (by omega)]; congr 1; omega

end fields

/-- A word is its four fields. -/
theorem wordOf_fields (w : Word) : wordOf (rsvField w) (bField w) (aField w) (opField w) = w := by
  apply BitVec.eq_of_getLsbD_eq
  intro i hi
  simp only [getLsbD_wordOf, opField, aField, bField, rsvField, BitVec.getLsbD_extractLsb']
  split_ifs <;> rw [decide_eq_true (by omega), Bool.true_and] <;> congr 1 <;> omega

/-- Two words are equal when their fields are. -/
theorem wordOf_inj {z b a o z' b' a' o' : Byte} (h : wordOf z b a o = wordOf z' b' a' o') :
    z = z' ∧ b = b' ∧ a = a' ∧ o = o' := by
  have h1 := congrArg rsvField h
  have h2 := congrArg bField h
  have h3 := congrArg aField h
  have h4 := congrArg opField h
  simp only [rsvField_wordOf, bField_wordOf, aField_wordOf, opField_wordOf] at h1 h2 h3 h4
  exact ⟨h1, h2, h3, h4⟩

/-- Masking a word masks its fields. -/
theorem wordOf_and (z b a o z' b' a' o' : Byte) :
    wordOf z b a o &&& wordOf z' b' a' o' = wordOf (z &&& z') (b &&& b') (a &&& a') (o &&& o') := by
  apply BitVec.eq_of_getLsbD_eq
  intro i hi
  simp only [BitVec.getLsbD_and, getLsbD_wordOf]
  split_ifs <;> rfl

/-- Every word falls under one row of the table or one reason for rejection. -/
theorem decode_cases (w : Word) :
    (∃ i, decode w = .ok i ∧ rsvField w = 0 ∧ opField w = i.opcode ∧ aField w = i.operandA ∧
      bField w = i.operandB ∧ i.wf = true) ∨
    (decode w = .illegal .reserved ∧ rsvField w ≠ 0) ∨
    (decode w = .illegal .opcode ∧ opField w ∉ [0x01, 0x02, 0x10, 0x11, 0x20, 0x21, 0x30, 0x40]) ∨
    (decode w = .illegal .operandA ∧ opField w ∈ [0x01, 0x40] ∧ aField w ≠ 0) ∨
    (decode w = .illegal .operandB ∧ opField w ∈ [0x01, 0x02, 0x20, 0x21, 0x40] ∧ bField w ≠ 0) := by
  have hlt : ∀ v : Byte, decide (v.toNat < 256) = true := fun v => decide_eq_true v.isLt
  have hv : ∀ v : Byte, BitVec.ofNat 8 v.toNat = v := fun v => by simp
  unfold decode needAB0 needB0
  generalize rsvField w = z
  generalize bField w = b
  generalize aField w = a
  generalize opField w = o
  by_cases hz : z = 0
  · rw [if_pos hz]
    by_cases h : o = 0x01
    · rw [if_pos h]
      by_cases ha : a = 0
      · rw [if_pos ha]
        by_cases hb : b = 0
        · rw [if_pos hb]; exact .inl ⟨_, rfl, hz, h, ha, hb, rfl⟩
        · rw [if_neg hb]; exact .inr (.inr (.inr (.inr ⟨rfl, by simp [h], hb⟩)))
      · rw [if_neg ha]; exact .inr (.inr (.inr (.inl ⟨rfl, by simp [h], ha⟩)))
    rw [if_neg h]
    by_cases h2 : o = 0x02
    · rw [if_pos h2]
      by_cases hb : b = 0
      · rw [if_pos hb]; exact .inl ⟨_, rfl, hz, h2, rfl, hb, rfl⟩
      · rw [if_neg hb]; exact .inr (.inr (.inr (.inr ⟨rfl, by simp [h2], hb⟩)))
    rw [if_neg h2]
    by_cases h3 : o = 0x10
    · rw [if_pos h3]; exact .inl ⟨_, rfl, hz, h3, rfl, rfl, rfl⟩
    rw [if_neg h3]
    by_cases h4 : o = 0x11
    · rw [if_pos h4]
      exact .inl ⟨_, rfl, hz, h4, (hv a).symm, (hv b).symm, by simp only [Instr.wf, hlt, Bool.and_self]⟩
    rw [if_neg h4]
    by_cases h5 : o = 0x20
    · rw [if_pos h5]
      by_cases hb : b = 0
      · rw [if_pos hb]; exact .inl ⟨_, rfl, hz, h5, (hv a).symm, hb, hlt a⟩
      · rw [if_neg hb]; exact .inr (.inr (.inr (.inr ⟨rfl, by simp [h5], hb⟩)))
    rw [if_neg h5]
    by_cases h6 : o = 0x21
    · rw [if_pos h6]
      by_cases hb : b = 0
      · rw [if_pos hb]; exact .inl ⟨_, rfl, hz, h6, (hv a).symm, hb, hlt a⟩
      · rw [if_neg hb]; exact .inr (.inr (.inr (.inr ⟨rfl, by simp [h6], hb⟩)))
    rw [if_neg h6]
    by_cases h7 : o = 0x30
    · rw [if_pos h7]
      exact .inl ⟨_, rfl, hz, h7, (hv a).symm, (hv b).symm, by simp only [Instr.wf, hlt, Bool.and_self]⟩
    rw [if_neg h7]
    by_cases h8 : o = 0x40
    · rw [if_pos h8]
      by_cases ha : a = 0
      · rw [if_pos ha]
        by_cases hb : b = 0
        · rw [if_pos hb]; exact .inl ⟨_, rfl, hz, h8, ha, hb, rfl⟩
        · rw [if_neg hb]; exact .inr (.inr (.inr (.inr ⟨rfl, by simp [h8], hb⟩)))
      · rw [if_neg ha]; exact .inr (.inr (.inr (.inl ⟨rfl, by simp [h8], ha⟩)))
    rw [if_neg h8]
    exact .inr (.inr (.inl ⟨rfl, by simp only [List.mem_cons, List.not_mem_nil, or_false, not_or]; exact ⟨h, h2, h3, h4, h5, h6, h7, h8⟩⟩))
  · rw [if_neg hz]; exact .inr (.inl ⟨rfl, hz⟩)

end Sys2Proof
end

