-- ==== Sys2Proof/Laws/State.lean ====
section
/-! SUPPORT. The small lemmas of the state updates: one per field and update, each true by unfolding, so
that no proof has to take a record apart. -/

namespace Sys2Proof.Machine

section setCtx
variable (s : State) (c : Nat) (x : Context)

@[simp] theorem State.setCtx_engine : (s.setCtx c x).engine = s.engine := rfl
@[simp] theorem State.setCtx_faults : (s.setCtx c x).faults = s.faults := rfl
@[simp] theorem State.setCtx_hm : (s.setCtx c x).hm = s.hm := rfl
@[simp] theorem State.setCtx_ctxs : (s.setCtx c x).ctxs = s.ctxs.set c x := rfl
@[simp] theorem State.setCtx_par : (s.setCtx c x).par = s.par := rfl
@[simp] theorem State.setCtx_draws : (s.setCtx c x).draws = s.draws := rfl
@[simp] theorem State.setCtx_turn : (s.setCtx c x).turn = s.turn := rfl
@[simp] theorem State.setCtx_sched : (s.setCtx c x).sched = s.sched := rfl

end setCtx

section raise
variable (s : State) (src : FaultSource) (k : ModelFault)

@[simp] theorem State.raise_engine : (s.raise src k).engine = s.engine := rfl
@[simp] theorem State.raise_faults :
    (s.raise src k).faults = addFault s.faults ⟨k, s.turn, src⟩ := rfl
@[simp] theorem State.raise_hm : (s.raise src k).hm = s.hm := rfl
@[simp] theorem State.raise_ctxs : (s.raise src k).ctxs = s.ctxs := rfl
@[simp] theorem State.raise_par : (s.raise src k).par = s.par := rfl
@[simp] theorem State.raise_draws : (s.raise src k).draws = s.draws := rfl
@[simp] theorem State.raise_turn : (s.raise src k).turn = s.turn := rfl
@[simp] theorem State.raise_sched : (s.raise src k).sched = s.sched := rfl

end raise

section finish
variable (s : State) (x : Context) (st : Status)

@[simp] theorem State.finish_engine : (s.finish x st).engine = s.engine := rfl
@[simp] theorem State.finish_faults : (s.finish x st).faults = s.faults := rfl
@[simp] theorem State.finish_hm : (s.finish x st).hm = s.hm := rfl
@[simp] theorem State.finish_ctxs : (s.finish x st).ctxs = s.ctxs.set s.turn (x.finish st) := rfl
@[simp] theorem State.finish_par : (s.finish x st).par = s.par := rfl
@[simp] theorem State.finish_draws : (s.finish x st).draws = s.draws := rfl
@[simp] theorem State.finish_turn : (s.finish x st).turn = s.turn := rfl
@[simp] theorem State.finish_sched : (s.finish x st).sched = s.sched := rfl

end finish

section context
variable (x : Context) (f : Flight) (st : Status) (v : Byte)

@[simp] theorem Context.launch_nd : (x.launch f).nd = x.nd := rfl
@[simp] theorem Context.launch_size : (x.launch f).size = x.size := rfl
@[simp] theorem Context.launch_vec : (x.launch f).vec = x.vec := rfl
@[simp] theorem Context.launch_loss : (x.launch f).loss = x.loss := rfl
@[simp] theorem Context.launch_status : (x.launch f).status = x.status := rfl
@[simp] theorem Context.launch_result : (x.launch f).result = x.result := rfl
@[simp] theorem Context.launch_busy : (x.launch f).busy = true := rfl
@[simp] theorem Context.launch_inflight : (x.launch f).inflight = some f := rfl
@[simp] theorem Context.launch_prog : (x.launch f).prog = x.prog := rfl
@[simp] theorem Context.launch_seen : (x.launch f).seen = x.seen := rfl

@[simp] theorem Context.finish_nd : (x.finish st).nd = x.nd := rfl
@[simp] theorem Context.finish_size : (x.finish st).size = x.size := rfl
@[simp] theorem Context.finish_vec : (x.finish st).vec = x.vec := rfl
@[simp] theorem Context.finish_loss : (x.finish st).loss = x.loss := rfl
@[simp] theorem Context.finish_status : (x.finish st).status = some st.code := rfl
@[simp] theorem Context.finish_result : (x.finish st).result = x.result := rfl
@[simp] theorem Context.finish_busy : (x.finish st).busy = false := rfl
@[simp] theorem Context.finish_inflight : (x.finish st).inflight = none := rfl
@[simp] theorem Context.finish_prog : (x.finish st).prog = x.prog := rfl
@[simp] theorem Context.finish_seen : (x.finish st).seen = x.seen := rfl

@[simp] theorem Context.setResult_nd : (x.setResult v).nd = x.nd := rfl
@[simp] theorem Context.setResult_size : (x.setResult v).size = x.size := rfl
@[simp] theorem Context.setResult_vec : (x.setResult v).vec = x.vec := rfl
@[simp] theorem Context.setResult_loss : (x.setResult v).loss = x.loss := rfl
@[simp] theorem Context.setResult_status : (x.setResult v).status = x.status := rfl
@[simp] theorem Context.setResult_result : (x.setResult v).result = some v := rfl
@[simp] theorem Context.setResult_busy : (x.setResult v).busy = x.busy := rfl
@[simp] theorem Context.setResult_inflight : (x.setResult v).inflight = x.inflight := rfl
@[simp] theorem Context.setResult_prog : (x.setResult v).prog = x.prog := rfl
@[simp] theorem Context.setResult_seen : (x.setResult v).seen = x.seen := rfl

/-- Completing what was just launched leaves an idle context with the status written. -/
theorem Context.finish_launch (hb : x.busy = false) (hf : x.inflight = none) :
    (x.launch f).finish st = { x with status := some st.code } := by
  cases x; simp_all [Context.launch, Context.finish]

end context

/-- The second of two replacements of one context stands. -/
theorem State.setCtx_setCtx (s : State) (c : Nat) (x y : Context) :
    (s.setCtx c x).setCtx c y = s.setCtx c y := by
  simp [State.setCtx, List.set_set]

/-- A replaced context reads as replaced. -/
theorem State.setCtx_get {s : State} {c : Nat} {x : Context} (h : s.ctxs[c]? = some x) (y : Context) :
    (s.setCtx c y).ctxs[c]? = some y := by
  have hc : c < s.ctxs.length := (List.getElem?_eq_some_iff.1 h).1
  simp [State.setCtx, hc]

/-- The other contexts are as they were. -/
theorem State.setCtx_get_ne (s : State) {c c' : Nat} (y : Context) (h : c' ≠ c) :
    (s.setCtx c y).ctxs[c']? = s.ctxs[c']? := by
  simp [State.setCtx, List.getElem?_set_ne (Ne.symm h)]

/-- A record is in `FAULTS` after it was added or if it was there. -/
theorem mem_addFault {l : List FaultRecord} {r q : FaultRecord} :
    q ∈ addFault l r ↔ q ∈ l ∨ q = r := by
  unfold addFault; split <;> simp_all

/-- `FAULTS` holds each record once. -/
theorem addFault_nodup {l : List FaultRecord} (h : l.Nodup) (r : FaultRecord) :
    (addFault l r).Nodup := by
  unfold addFault
  split
  · exact h
  · rename_i hr
    exact List.nodup_append.2 ⟨h, by simp, by rintro a ha b hb rfl; simp_all⟩

end Sys2Proof.Machine
end

