-- ==== Sys2Proof/Laws/Ops.lean ====
section
/-! SUPPORT. What each shared operation can do, said once: the checks pass exactly when their condition
holds, and a command's step is its issue or its completion. -/

namespace Sys2Proof.Machine

/-! ## Sequences of checks -/

section except
variable {ε α β : Type}

theorem bind_ok {x : Except ε α} {f : α → Except ε β} {b : β} :
    (x >>= f) = .ok b ↔ ∃ a, x = .ok a ∧ f a = .ok b := by
  cases x <;> simp [bind, Except.bind]

theorem bind_error {x : Except ε α} {f : α → Except ε β} {e : ε} :
    (x >>= f) = .error e ↔ x = .error e ∨ ∃ a, x = .ok a ∧ f a = .error e := by
  cases x <;> simp [bind, Except.bind]

@[simp] theorem ok_bind (a : α) (f : α → Except ε β) : ((Except.ok a : Except ε α) >>= f) = f a := rfl

@[simp] theorem error_bind (e : ε) (f : α → Except ε β) :
    ((Except.error e : Except ε α) >>= f) = .error e := rfl

@[simp] theorem pure_eq_ok (a : α) : (pure a : Except ε α) = .ok a := rfl

end except

@[simp] theorem ensure_ok {b : Bool} {k : ModelFault} {u : Unit} : ensure b k = .ok u ↔ b = true := by
  cases b <;> simp [ensure]

@[simp] theorem ensure_true (k : ModelFault) : ensure true k = .ok () := rfl

@[simp] theorem ensure_false (k : ModelFault) : ensure false k = .error k := rfl

@[simp] theorem ensureAll_ok {l : List Nat} {ok : Nat → Bool} {k : Nat → ModelFault} {u : Unit} :
    ensureAll l ok k = .ok u ↔ ∀ n ∈ l, ok n = true := by
  unfold ensureAll
  split
  · rename_i n h
    simp only [reduceCtorEq, false_iff]
    intro hall
    have := List.find?_some h
    simp [hall n (List.mem_of_find?_eq_some h)] at this
  · rename_i h
    simpa [List.find?_eq_none] using h

/-- Where an index is not `ok`, the fault is that of the first such index. -/
theorem ensureAll_first {l : List Nat} {ok : Nat → Bool} {k : Nat → ModelFault} {n : Nat}
    (h : l.find? (fun n => !ok n) = some n) : ensureAll l ok k = .error (k n) := by
  simp [ensureAll, h]

/-- The other commands in flight are the records of the other contexts. -/
theorem mem_otherFlights {s : State} {c : Nat} {p : Nat × Flight} :
    p ∈ s.otherFlights c ↔ p.1 ≠ c ∧ s.flight? p.1 = some p.2 := by
  obtain ⟨c', f⟩ := p
  simp only [State.otherFlights, List.mem_filterMap, List.mem_range]
  constructor
  · rintro ⟨a, -, h⟩
    split_ifs at h with ha
    obtain ⟨g, hg, e⟩ := Option.map_eq_some_iff.1 h
    cases e; exact ⟨ha, hg⟩
  · rintro ⟨hne, hf⟩
    refine ⟨c', ?_, by simp_all⟩
    by_contra hlen
    have : s.ctxs[c']? = none := by simpa using hlen
    simp [State.flight?, this] at hf

theorem checkReady_ok {s : State} {i : Instr} {r : ReadyRegs} :
    checkReady s i = .ok r ↔ s.engine = .ready r := by
  unfold checkReady; split <;> simp_all

theorem checkSerial_ok {s : State} {i : Instr} {u : Unit} :
    checkSerial s i = .ok u ↔ s.serialFor i := by
  unfold checkSerial State.serialFor
  split
  · rename_i p h
    have h1 := List.find?_some h
    have h2 := mem_otherFlights.1 (List.mem_of_find?_eq_some h)
    simp only [reduceCtorEq, false_iff]
    intro hall
    have := hall p.1 h2.1 p.2 h2.2
    simp [this] at h1
  · rename_i h
    simp only [true_iff]
    intro c hc f hf
    have := List.find?_eq_none.1 h (c, f) (mem_otherFlights.2 ⟨hc, hf⟩)
    simpa using this

theorem checkStart_ok {s : State} {i : Instr} {r : ReadyRegs} :
    checkStart s i = .ok r ↔ s.engine = .ready r ∧ s.serialFor i := by
  unfold checkStart
  simp only [bind_ok, checkReady_ok, pure_eq_ok, Except.ok.injEq]
  constructor
  · rintro ⟨r', h1, u, h2, rfl⟩
    exact ⟨h1, checkSerial_ok.1 h2⟩
  · rintro ⟨h1, h2⟩
    exact ⟨r, h1, (), checkSerial_ok.2 h2, rfl⟩

theorem checkRace_ok {s : State} {f : Flight} {u : Unit} :
    checkRace s f = .ok u ↔ s.raceFreeFor f := by
  unfold checkRace State.raceFreeFor
  split
  · rename_i p h
    have h1 := List.find?_some h
    have h2 := mem_otherFlights.1 (List.mem_of_find?_eq_some h)
    simp only [reduceCtorEq, false_iff]
    intro hall
    simp [hall p.1 h2.1 p.2 h2.2] at h1
  · rename_i h
    simp only [true_iff]
    intro c hc f' hf
    have := List.find?_eq_none.1 h (c, f') (mem_otherFlights.2 ⟨hc, hf⟩)
    simpa using this

/-! ## Issue and completion -/

section run
variable {i : Instr} {s t : State} {x : Context} {check : Context → Except ModelFault Flight}
  {complete : Context → Flight → Result}

/-- On an idle context a command's step is its issue. -/
theorem runCommand_idle (h : s.idleTurn x) :
    runCommand i s check complete = .next (s.issue i x (check x)) := by
  obtain ⟨h1, h2, h3⟩ := h
  simp [runCommand, h1, h2, h3]

/-- On the context that has it in flight a command's step is its completion. -/
theorem runCommand_flight {f : Flight} (h : s.ctxs[s.turn]? = some x) (hf : x.inflight = some f)
    (hi : f.cmd = i) : runCommand i s check complete = complete x f := by
  simp [runCommand, h, hf, hi]

/-- A command's step that answers a next state is an issue or a completion. -/
theorem runCommand_cases (h : runCommand i s check complete = .next t) :
    (∃ x, s.idleTurn x ∧ t = s.issue i x (check x)) ∨
      ∃ x f, s.ctxs[s.turn]? = some x ∧ x.inflight = some f ∧ f.cmd = i ∧ complete x f = .next t := by
  unfold runCommand at h
  split at h
  · cases h
  · rename_i x hx
    split at h
    · rename_i f hf
      split at h
      · exact .inr ⟨x, f, hx, hf, ‹_›, h⟩
      · cases h
    · rename_i hf
      split at h
      · cases h
      · rename_i hb
        cases h
        exact .inl ⟨x, ⟨hx, by simpa using hb, hf⟩, rfl⟩

@[simp] theorem State.issue_ok (f : Flight) : s.issue i x (.ok f) = s.setCtx s.turn (x.launch f) := rfl

@[simp] theorem State.issue_error (k : ModelFault) :
    s.issue i x (.error k) = s.raise (.command (encode i)) k := rfl

/-- An issue raises a fault or launches a record, and does nothing else (60_exceptions.md R253). -/
theorem State.issue_cases (checked : Except ModelFault Flight) :
    (∃ k, checked = .error k ∧ s.issue i x checked = s.raise (.command (encode i)) k) ∨
      ∃ f, checked = .ok f ∧ s.issue i x checked = s.setCtx s.turn (x.launch f) := by
  cases checked
  · exact .inl ⟨_, rfl, rfl⟩
  · exact .inr ⟨_, rfl, rfl⟩

end run

/-- What it takes to instantiate the model (40_field_tables.md R137, 44_selftest.md R231). -/
theorem Params.valid_iff {par : Params} :
    par.valid = true ↔ polyIrreducible par.poly = true ∧ Config.parityMax ≤ par.stNd ∧
      par.stNd ≤ par.ndMax ∧ 1 ≤ par.stSize ∧ par.stSize % par.sizeGranule = 0 := by
  simp only [Params.valid, Bool.and_eq_true, decide_eq_true_eq, and_assoc]

theorem tabulate_get {α : Type} {n : Nat} {f : Nat → α} {k : Nat} (h : k < n) :
    (tabulate n f)[k] = f k := by simp [tabulate]

/-- An entry of a table that is written out row by row. -/
theorem coefAt?_tabulate {n j d : Nat} {f : Nat → Nat → Byte} (hj : j < Config.parityMax) (hd : d < n) :
    coefAt? ⟨n, tabulate _ fun j => tabulate n (f j)⟩ j d = some (f j d) := by
  rw [coefAt?, Vector.getElem?_eq_getElem hj, tabulate_get, Option.bind_some,
    Vector.getElem?_eq_getElem hd, tabulate_get]

/-- An entry of the default table (40_field_tables.md R139). -/
theorem coefAt_default {poly : Poly} {j d : Nat} (hj : j < Config.parityMax)
    (hd : d < Config.defaultNdMax) : coefAt (defaultGen poly) j d = defaultCoef poly j d :=
  congrArg (Option.getD · 0) (coefAt?_tabulate hj hd)

/-- The table has an entry in each of its rows and columns (10_state.md R34). -/
theorem coefAt?_some {t : GenTable} {j d : Nat} (hj : j < Config.parityMax) (hd : d < t.ndMax) :
    ∃ v, coefAt? t j d = some v := ⟨t.rows[j][d], by simp [coefAt?, hj, hd]⟩

theorem withTables_ready {s : State} {r : ReadyRegs} {k : ReadyRegs → Result} (h : s.engine = .ready r) :
    withTables s k = k r := by
  simp [withTables, h]

theorem withTables_next {s t : State} {k : ReadyRegs → Result} (h : withTables s k = .next t) :
    ∃ r, s.engine = .ready r ∧ k r = .next t := by
  unfold withTables at h
  split at h
  · cases h
  · exact ⟨_, ‹_›, h⟩

end Sys2Proof.Machine
end

