-- ==== Sys2Proof/Laws/Operands.lean ====
section
/-! SUPPORT. What the operand forms and the issue checks of the block commands can do: they pass exactly
when the registers hold arguments that meet every condition of the spec. -/

namespace Sys2Proof.Machine

@[simp] theorem readArg_ok {α : Type} {v : Option α} {reg : RegName} {a : α} :
    readArg v reg = .ok a ↔ v = some a := by
  cases v <;> simp [readArg]

theorem readNd_ok {par : Params} {x : Context} {n : Nat} :
    readNd par x = .ok n ↔ ∃ v, x.nd = some v ∧ v.toNat = n ∧ n ≤ par.ndMax := by
  simp only [readNd, bind_ok, readArg_ok, ensure_ok, decide_eq_true_eq, pure_eq_ok, Except.ok.injEq]
  constructor
  · rintro ⟨v, hv, -, hle, rfl⟩; exact ⟨v, hv, rfl, hle⟩
  · rintro ⟨v, hv, rfl, hle⟩; exact ⟨v, hv, (), hle, rfl⟩

theorem readSize_ok {x : Context} {n : Nat} :
    readSize x = .ok n ↔ ∃ v, x.size = some v ∧ v.toNat = n ∧ 1 ≤ n := by
  simp only [readSize, bind_ok, readArg_ok, ensure_ok, decide_eq_true_eq, pure_eq_ok, Except.ok.injEq]
  constructor
  · rintro ⟨v, hv, -, hle, rfl⟩; exact ⟨v, hv, rfl, by omega⟩
  · rintro ⟨v, hv, rfl, hle⟩; exact ⟨v, hv, (), by omega, rfl⟩

theorem readVec_ok {x : Context} {k a : Nat} :
    readVec x k = .ok a ↔ ∃ v, x.vec[k]? = some (some v) ∧ v.toNat = a := by
  simp only [readVec, bind_ok, readArg_ok, pure_eq_ok, Except.ok.injEq]
  constructor
  · rintro ⟨v, hv, rfl⟩
    refine ⟨v, ?_, rfl⟩
    cases h : x.vec[k]? with
    | none => simp [h] at hv
    | some w => simpa [h] using hv
  · rintro ⟨v, hv, rfl⟩; exact ⟨v, by simp [hv], rfl⟩

theorem readLoss_ok {x : Context} {k a : Nat} :
    readLoss x k = .ok a ↔ ∃ v, x.loss[k]? = some (some v) ∧ v.toNat = a := by
  simp only [readLoss, bind_ok, readArg_ok, pure_eq_ok, Except.ok.injEq]
  constructor
  · rintro ⟨v, hv, rfl⟩
    refine ⟨v, ?_, rfl⟩
    cases h : x.loss[k]? with
    | none => simp [h] at hv
    | some w => simpa [h] using hv
  · rintro ⟨v, hv, rfl⟩; exact ⟨v, by simp [hv], rfl⟩

theorem readList_ok {α β : Type} {f : α → Except ModelFault β} {l : List α} {bs : List β} :
    readList f l = .ok bs ↔ List.Forall₂ (fun a b => f a = .ok b) l bs := by
  induction l generalizing bs with
  | nil => cases bs <;> simp [readList]
  | cons a rest ih =>
    simp only [readList, bind_ok, pure_eq_ok, Except.ok.injEq]
    constructor
    · rintro ⟨b, hb, bs', hbs, rfl⟩
      exact .cons hb (ih.1 hbs)
    · intro h
      cases h with
      | cons hb hbs => exact ⟨_, hb, _, ih.2 hbs, rfl⟩

/-- Reading registers `0 .. n-1` answers the list of their values. -/
theorem readList_range_ok {f : Nat → Except ModelFault Nat} {n : Nat} {bs : List Nat} :
    readList f (List.range n) = .ok bs ↔ bs.length = n ∧ ∀ k, k < n → f k = .ok (bs.getD k 0) := by
  rw [readList_ok, List.forall₂_iff_get]
  simp only [List.length_range, List.get_eq_getElem, List.getElem_range]
  constructor
  · rintro ⟨h, hk⟩
    refine ⟨h.symm, fun k hkn => ?_⟩
    rw [hk k hkn (h ▸ hkn)]
    simp [List.getD_eq_getElem?_getD, List.getElem?_eq_getElem (h ▸ hkn)]
  · rintro ⟨h, hk⟩
    refine ⟨h.symm, fun k hkn hkb => ?_⟩
    rw [hk k hkn]
    simp [List.getD_eq_getElem?_getD, List.getElem?_eq_getElem hkb]

theorem checkWrap_ok {b : BlockArgs} {u : Unit} : checkWrap b = .ok u ↔ b.inSpace := by
  simp [checkWrap, BlockArgs.all, BlockArgs.inSpace]

theorem checkGranule_ok {par : Params} {b : BlockArgs} {u : Unit} :
    checkGranule par b = .ok u ↔ b.size % par.sizeGranule = 0 := by
  simp [checkGranule]

theorem checkAlign_ok {par : Params} {b : BlockArgs} {u : Unit} :
    checkAlign par b = .ok u ↔ ∀ k, k < b.nd + b.np → b.addr k % par.blockAlign = 0 := by
  simp [checkAlign, BlockArgs.all]

theorem checkPlaced_ok {par : Params} {constrained : Bool} {b : BlockArgs} {u : Unit} :
    checkPlaced par constrained b = .ok u ↔ (constrained = true → b.aligned par) := by
  cases constrained
  · simp [checkPlaced]
  · simp [checkPlaced, bind_ok, checkGranule_ok, checkAlign_ok, BlockArgs.aligned]

theorem overlapOf_none {b : BlockArgs} {k : Nat} :
    b.overlapOf k = none ↔
      ∀ k', k' < b.nd + b.np → k' ≠ k → (b.span k).meets (b.span k') = false := by
  simp [BlockArgs.overlapOf, BlockArgs.all]

theorem checkOverlap_ok {b : BlockArgs} {dests : List Nat} {u : Unit} :
    checkOverlap b dests = .ok u ↔ b.apart dests := by
  unfold checkOverlap BlockArgs.apart
  split
  · rename_i p h
    obtain ⟨k, hk, h⟩ := List.exists_of_findSome?_eq_some h
    simp only [reduceCtorEq, false_iff]
    intro hall
    rw [overlapOf_none.2 (hall k hk)] at h
    cases h
  · rename_i h
    simp only [true_iff]
    intro k hk
    have := List.findSome?_eq_none_iff.1 h k hk
    exact overlapOf_none.1 (by simpa using this)

theorem holdsBlocks_iff {par : Params} {x : Context} {b : BlockArgs} (hd : b.inDomain par) :
    x.holdsBlocks b ↔ readNd par x = .ok b.nd ∧ readSize x = .ok b.size ∧
      readList (readVec x) (List.range (b.nd + b.np)) = .ok b.vec := by
  obtain ⟨-, -, h3, h4⟩ := hd
  simp only [Context.holdsBlocks, readNd_ok, readSize_ok, readList_range_ok, readVec_ok]
  constructor
  · rintro ⟨⟨v, a1, a2⟩, ⟨w, b1, b2⟩, hl, hv⟩
    exact ⟨⟨v, a1, a2, h3⟩, ⟨w, b1, b2, h4⟩, hl, hv⟩
  · rintro ⟨⟨v, a1, a2, -⟩, ⟨w, b1, b2, -⟩, hl, hv⟩
    exact ⟨⟨v, a1, a2⟩, ⟨w, b1, b2⟩, hl, hv⟩

/-- A generation command goes into flight exactly where its count is invalid, with that status, or its
arguments meet every condition, with its footprint (41_generation.md R161, R162). -/
theorem issueGen_ok {i : Instr} {aligned : Bool} {np : Nat} {s : State} {x : Context} {f : Flight} :
    issueGen i aligned np s x = .ok f ↔
      (∃ r, s.engine = .ready r) ∧ s.serialFor i ∧
        (((np = 0 ∨ Config.parityMax < np) ∧ f = Flight.failedOf i .invalidParityCount) ∨
          ∃ b : BlockArgs, b.np = np ∧ b.loss = [] ∧ b.inDomain s.par ∧ x.holdsBlocks b ∧ b.inSpace ∧
            (aligned = true → b.aligned s.par) ∧ b.apart b.parity ∧ s.raceFreeFor (Flight.genOf i b) ∧
            f = Flight.genOf i b) := by
  unfold issueGen
  simp only [bind_ok, checkStart_ok, pure_eq_ok]
  constructor
  · rintro ⟨r, ⟨hr, hs⟩, h⟩
    refine ⟨⟨r, hr⟩, hs, ?_⟩
    split_ifs at h with hnp
    · exact .inl ⟨hnp, by cases h; rfl⟩
    · push Not at hnp
      simp only [bind_ok, checkWrap_ok, checkPlaced_ok, checkOverlap_ok, checkRace_ok,
        Except.ok.injEq] at h
      obtain ⟨nd, hnd, size, hsize, vec, hvec, -, hw, -, hal, -, hov, -, hrc, rfl⟩ := h
      have hd : BlockArgs.inDomain ⟨np, nd, size, vec, []⟩ s.par := by
        obtain ⟨_, _, _, h1⟩ := readNd_ok.1 hnd
        obtain ⟨_, _, _, h2⟩ := readSize_ok.1 hsize
        exact ⟨Nat.pos_of_ne_zero hnp.1, hnp.2, h1, h2⟩
      exact .inr ⟨⟨np, nd, size, vec, []⟩, rfl, rfl, hd, (holdsBlocks_iff hd).2 ⟨hnd, hsize, hvec⟩,
        hw, hal, hov, hrc, rfl⟩
  · rintro ⟨⟨r, hr⟩, hs, h⟩
    refine ⟨r, ⟨hr, hs⟩, ?_⟩
    rcases h with ⟨hnp, rfl⟩ | ⟨b, rfl, hl, hd, hb, hw, hal, hov, hrc, rfl⟩
    · rw [if_pos hnp]
    · obtain ⟨h1, h2, h3⟩ := (holdsBlocks_iff hd).1 hb
      rw [if_neg (by obtain ⟨a1, a2, -⟩ := hd; omega)]
      have e : (⟨b.np, b.nd, b.size, b.vec, []⟩ : BlockArgs) = b := by cases b; simp_all
      simp only [h1, h2, h3, ok_bind, e, checkWrap_ok (u := ()) |>.2 hw,
        checkPlaced_ok (u := ()) |>.2 hal, checkOverlap_ok (u := ()) |>.2 hov,
        checkRace_ok (u := ()) |>.2 hrc]

theorem checkSingular_ok {r : ReadyRegs} {b : BlockArgs} {u : Unit} :
    checkSingular r b = .ok u ↔ b.solvable r := by
  simp [checkSingular, BlockArgs.solvable]

theorem holdsLoss_iff {x : Context} {b : BlockArgs} :
    x.holdsLoss b ↔ readList (readLoss x) (List.range b.loss.length) = .ok b.loss := by
  simp [Context.holdsLoss, readList_range_ok, readLoss_ok]

/-- `REC` goes into flight exactly where its counts give an error status, or its arguments meet every
condition, with its footprint (43_recovery.md R210). -/
theorem issueRec_ok {i : Instr} {np nr : Nat} {s : State} {x : Context} {f : Flight} :
    issueRec i np nr s x = .ok f ↔
      ∃ r, s.engine = .ready r ∧ s.serialFor i ∧
        (((np = 0 ∨ Config.parityMax < np) ∧ f = Flight.failedOf i .invalidParityCount) ∨
          (1 ≤ np ∧ np ≤ Config.parityMax ∧ np < nr ∧ f = Flight.failedOf i .unrecoverableLoss) ∨
          ∃ b : BlockArgs, b.np = np ∧ b.loss.length = nr ∧ b.inDomain s.par ∧ b.lossOk ∧ x.holdsBlocks b ∧
            x.holdsLoss b ∧ b.inSpace ∧ b.aligned s.par ∧ b.solvable r ∧ b.apart b.loss ∧
            s.raceFreeFor (Flight.recOf i b) ∧ f = Flight.recOf i b) := by
  unfold issueRec
  simp only [bind_ok, checkStart_ok, pure_eq_ok]
  refine exists_congr fun r => ?_
  rw [and_assoc]
  refine and_congr_right fun hr => and_congr_right fun hs => ?_
  split_ifs with hnp hnr
  · constructor
    · rintro ⟨⟩; exact .inl ⟨hnp, rfl⟩
    · rintro (⟨-, rfl⟩ | ⟨h1, h2, -⟩ | ⟨b, rfl, -, ⟨h1, h2, -⟩, -⟩)
      · rfl
      · omega
      · omega
  · constructor
    · rintro ⟨⟩; exact .inr (.inl ⟨by omega, by omega, hnr, rfl⟩)
    · rintro (⟨h1, rfl⟩ | ⟨h1, h2, -, rfl⟩ | ⟨b, rfl, rfl, -, ⟨-, h2, -⟩, -⟩)
      · exact absurd h1 hnp
      · rfl
      · omega
  · push Not at hnp
    simp only [bind_ok, checkWrap_ok, checkPlaced_ok, checkOverlap_ok, checkRace_ok,
      checkSingular_ok, ensure_ok, decide_eq_true_eq, Except.ok.injEq]
    constructor
    · rintro ⟨-, h0, nd, hnd, size, hsize, loss, hloss, -, hval, vec, hvec, -, hw, -, hal, -, hsg, -, hov, -, hrc, rfl⟩
      have hd : BlockArgs.inDomain ⟨np, nd, size, vec, loss⟩ s.par := by
        obtain ⟨_, _, _, h1⟩ := readNd_ok.1 hnd
        obtain ⟨_, _, _, h2⟩ := readSize_ok.1 hsize
        exact ⟨Nat.pos_of_ne_zero hnp.1, hnp.2, h1, h2⟩
      have hlen := (readList_range_ok.1 hloss).1
      subst hlen
      exact .inr (.inr ⟨⟨np, nd, size, vec, loss⟩, rfl, rfl, hd, ⟨by simp only; omega, by simp only; omega, hval⟩,
        (holdsBlocks_iff hd).2 ⟨hnd, hsize, hvec⟩, holdsLoss_iff.2 hloss, hw, hal trivial, hsg, hov, hrc,
        rfl⟩)
    · rintro (⟨h1, -⟩ | ⟨-, -, h1, -⟩ | ⟨b, rfl, rfl, hd, hl, hb, hlo, hw, hal, hsg, hov, hrc, rfl⟩)
      · omega
      · omega
      · obtain ⟨h1, h2, h3⟩ := (holdsBlocks_iff hd).1 hb
        exact ⟨(), by have := hl.1; omega, b.nd, h1, b.size, h2, b.loss, holdsLoss_iff.1 hlo, (), hl.2.2,
          b.vec, h3, (), hw, (), fun _ => hal, (), hsg, (), hov, (), hrc, rfl⟩

/-- What `inRegisters` says. -/
theorem BlockArgs.inRegisters_iff {b : BlockArgs} :
    b.inRegisters = true ↔ b.nd < 2 ^ 32 ∧ b.size < 2 ^ Config.addrW ∧ ∀ k ∈ b.loss, k < 2 ^ 16 := by
  simp only [BlockArgs.inRegisters, Bool.and_eq_true, decide_eq_true_eq, List.all_eq_true, and_assoc]

/-- The arguments a context holds fit its registers (10_state.md R39). -/
theorem Context.holdsBlocks_inRegisters {x : Context} {b : BlockArgs} (h : x.holdsBlocks b)
    (hl : x.holdsLoss b) : b.inRegisters = true := by
  obtain ⟨⟨v, -, hv⟩, ⟨w, -, hw⟩, -, -⟩ := h
  refine BlockArgs.inRegisters_iff.2 ⟨hv ▸ v.isLt, hw ▸ w.isLt, fun k hk => ?_⟩
  obtain ⟨i, hi, rfl⟩ := List.mem_iff_getElem.1 hk
  obtain ⟨u, -, hu⟩ := hl i hi
  rw [List.getD_eq_getElem _ _ hi] at hu
  exact hu ▸ u.isLt

/-- A command without a loss set holds it. -/
theorem Context.holdsLoss_nil {x : Context} {b : BlockArgs} (h : b.loss = []) : x.holdsLoss b := by
  intro k hk
  simp [h] at hk

/-- Captured arguments that meet the conditions are as a completion expects them. -/
theorem BlockArgs.ok_of {par : Params} {b : BlockArgs} (hd : b.inDomain par) (hs : b.inSpace)
    (hv : b.vec.length = b.nd + b.np) (hl : lossValid (b.nd + b.np) b.loss = true)
    (hn : b.loss.length ≤ b.np) (hr : b.inRegisters = true) : b.ok par = true := by
  obtain ⟨h1, h2, h3, -⟩ := hd
  simp only [BlockArgs.ok, Bool.and_eq_true, decide_eq_true_eq, List.all_eq_true]
  refine ⟨⟨⟨⟨⟨⟨⟨h1, h2⟩, h3⟩, hv⟩, fun a ha => ?_⟩, hl⟩, hn⟩, hr⟩
  obtain ⟨k, hk, rfl⟩ := List.mem_iff_getElem.1 ha
  have := hs k (hv ▸ hk)
  simpa [BlockArgs.addr, List.getD_eq_getElem?_getD, List.getElem?_eq_getElem hk] using this

/-- What `ok` says of captured arguments. -/
theorem BlockArgs.ok_iff {par : Params} {b : BlockArgs} :
    b.ok par = true ↔ 1 ≤ b.np ∧ b.np ≤ Config.parityMax ∧ b.nd ≤ par.ndMax ∧
      b.vec.length = b.nd + b.np ∧ b.inSpace ∧ lossValid (b.nd + b.np) b.loss = true ∧
      b.loss.length ≤ b.np ∧ b.inRegisters = true := by
  simp only [BlockArgs.ok, Bool.and_eq_true, decide_eq_true_eq, List.all_eq_true]
  constructor
  · rintro ⟨⟨⟨⟨⟨⟨⟨h1, h2⟩, h3⟩, hv⟩, ha⟩, hl⟩, hn⟩, hr⟩
    refine ⟨h1, h2, h3, hv, fun k hk => ?_, hl, hn, hr⟩
    rw [← hv] at hk
    have := ha _ (List.getElem_mem hk)
    simpa [BlockArgs.addr, List.getD_eq_getElem?_getD, List.getElem?_eq_getElem hk] using this
  · rintro ⟨h1, h2, h3, hv, hs, hl, hn, hr⟩
    refine ⟨⟨⟨⟨⟨⟨⟨h1, h2⟩, h3⟩, hv⟩, fun a ha => ?_⟩, hl⟩, hn⟩, hr⟩
    obtain ⟨k, hk, rfl⟩ := List.mem_iff_getElem.1 ha
    have := hs k (hv ▸ hk)
    simpa [BlockArgs.addr, List.getD_eq_getElem?_getD, List.getElem?_eq_getElem hk] using this

end Sys2Proof.Machine
end

