-- ==== Sys2Proof/Laws/Exec.lean ====
section
/-! SUPPORT. What a command can do, said once: its issue checks (`checkOf`), its completion
(`completeOf`), and the shape of the state a completion leaves. -/

namespace Sys2Proof.Machine

/-- The issue checks of each command. -/
def checkOf (i : Instr) (s : State) (x : Context) : Except ModelFault Flight :=
  match i with
  | .init => do
    checkSerial s .init
    return Flight.plainOf .init
  | .setmode m => do
    let _ ← checkStart s (.setmode m)
    ensure (decide (m = 0x00)) (.mode m)
    return Flight.plainOf (.setmode m)
  | .gfmul a b => do
    let _ ← checkStart s (.gfmul a b)
    return Flight.plainOf (.gfmul a b)
  | .gfcoef j d => do
    let _ ← checkStart s (.gfcoef j d)
    ensure (decide (j < Config.parityMax) && decide (d < s.par.ndMax)) (.arg .coefIndex)
    return Flight.plainOf (.gfcoef j d)
  | .genref np => issueGen (.genref np) false np s x
  | .gen np => issueGen (.gen np) true np s x
  | .recover np nr => issueRec (.recover np nr) np nr s x
  | .selftest => do
    let _ ← checkStart s .selftest
    return Flight.plainOf .selftest

/-- The completion of each command. -/
def completeOf (i : Instr) (s : State) (x : Context) (f : Flight) : Result :=
  match i with
  | .init => .next { s.finish x .ok with engine := initEngine s.par s.engine }
  | .setmode _ => withTables s fun r =>
      .next { s.finish x .ok with engine := .ready { r with mode := .cauchy } }
  | .gfmul a b => withTables s fun r => .next (s.finish (x.setResult (mulAt r.mul a b)) .ok)
  | .gfcoef j d => withTables s fun r =>
      match coefAt? r.genT j d with
      | none => .fault .corruptFlight
      | some v => .next (s.finish (x.setResult v) .ok)
  | .genref _ => completeGen (fun r b data => refGen r b.nd data) s x f
  | .gen _ =>
      completeGen (fun r b data => kernelGen r (r.genSlotOf b.np) b.nd b.np b.size data) s x f
  | .recover _ _ => completeRec s x f
  | .selftest => withTables s fun r =>
      .next { s.finish x (selftestStatus s.par r (Config.allocDraw s.draws)) with draws := s.draws + 1 }

/-- Every command's step is its issue or its completion. -/
theorem exec_eq (i : Instr) (s : State) (hp : s.par.valid = true) :
    exec i s = runCommand i s (checkOf i s) (completeOf i s) := by
  cases i <;>
    simp only [exec, execInit, execSetmode, execGfmul, execGfcoef, execGenref, execGen, execRec,
      execSelftest, hp, if_true] <;> rfl

/-- On an idle context a command's step is its issue. -/
theorem exec_idle {i : Instr} {s : State} {x : Context} (hp : s.par.valid = true)
    (h : s.idleTurn x) : exec i s = .next (s.issue i x (checkOf i s x)) := by
  rw [exec_eq i s hp, runCommand_idle h]

/-- On the context that has it in flight a command's step is its completion. -/
theorem exec_flight {s : State} {x : Context} {f : Flight} (hp : s.par.valid = true)
    (h : s.ctxs[s.turn]? = some x) (hf : x.inflight = some f) :
    exec f.cmd s = completeOf f.cmd s x f := by
  rw [exec_eq f.cmd s hp, runCommand_flight h hf rfl]

/-- The arguments of the model do not matter to any command but `INIT`. -/
theorem exec_eq_of_ne {i : Instr} {s : State} (hi : i ≠ .init) :
    exec i s = runCommand i s (checkOf i s) (completeOf i s) := by
  cases i <;> first
    | exact absurd rfl hi
    | rfl

/-- `INIT` answers a next state only where the model is instantiated. -/
theorem exec_next {i : Instr} {s t : State} (h : exec i s = .next t) :
    runCommand i s (checkOf i s) (completeOf i s) = .next t := by
  by_cases hi : i = .init
  · subst hi
    by_cases hp : s.par.valid = true
    · rw [← exec_eq _ _ hp]; exact h
    · simp [exec, execInit, hp] at h
  · rw [← exec_eq_of_ne hi]; exact h

/-- On an idle context the step of a command other than `INIT` is its issue, whatever the arguments of the model. -/
theorem exec_idle_ne {i : Instr} {s : State} {x : Context} (hi : i ≠ .init) (h : s.idleTurn x) :
    exec i s = .next (s.issue i x (checkOf i s x)) := by
  rw [exec_eq_of_ne hi, runCommand_idle h]

/-- On the context that has it in flight the step of a command other than `INIT` is its completion. -/
theorem exec_flight_ne {s : State} {x : Context} {f : Flight} (hi : f.cmd ≠ .init)
    (h : s.ctxs[s.turn]? = some x) (hf : x.inflight = some f) :
    exec f.cmd s = completeOf f.cmd s x f := by
  rw [exec_eq_of_ne hi, runCommand_flight h hf rfl]

/-- A command whose checks pass goes into flight. -/
theorem exec_launch {i : Instr} {s : State} {x : Context} {f : Flight} (hi : i ≠ .init)
    (h : s.idleTurn x) (hf : checkOf i s x = .ok f) :
    exec i s = .next (s.setCtx s.turn (x.launch f)) := by
  rw [exec_idle_ne hi h, hf]; rfl

/-- A command whose checks raise a fault raises it and does nothing else. -/
theorem exec_raise {i : Instr} {s : State} {x : Context} {k : ModelFault} (hi : i ≠ .init)
    (h : s.idleTurn x) (hf : checkOf i s x = .error k) :
    exec i s = .next (s.raise (.command (encode i)) k) := by
  rw [exec_idle_ne hi h, hf]; rfl

/-- The step after a launch, on the same context, is the completion. -/
theorem exec_launched {i : Instr} {s : State} {x : Context} {f : Flight} (hi : i ≠ .init)
    (h : s.ctxs[s.turn]? = some x) (hf : f.cmd = i) :
    exec i (s.setCtx s.turn (x.launch f)) =
      completeOf i (s.setCtx s.turn (x.launch f)) (x.launch f) f := by
  subst hf
  exact exec_flight_ne hi (State.setCtx_get h _) rfl

/-- Completing what was launched leaves the context as it was but for what the completion writes. -/
theorem State.finish_launched {s : State} {x y : Context} {st : Status} {f : Flight} :
    (s.setCtx s.turn (x.launch f)).finish y st = s.setCtx s.turn (y.finish st) := by
  simp [State.finish, State.setCtx, List.set_set]

/-- Before `INIT` every other command's checks raise `F_UNINIT` (42_registry_control.md R181). -/
theorem checkOf_uninit {i : Instr} {s : State} {x : Context} (hi : i ≠ .init)
    (h : s.engine = .uninit) : checkOf i s x = .error (.uninit i.opcode) := by
  have : checkStart s i = .error (.uninit i.opcode) := by simp [checkStart, checkReady, h]
  cases i <;> first | exact absurd rfl hi | simp [checkOf, issueGen, issueRec, this]

/-- Where a command is not serialized, the check names a context it must wait for (20_memory.md R88). -/
theorem checkSerial_error {s : State} {i : Instr} (h : ¬s.serialFor i) :
    ∃ c f, c ≠ s.turn ∧ s.flight? c = some f ∧ (isExclusive i = true ∨ isExclusive f.cmd = true) ∧
      checkSerial s i = .error (.initRace c) := by
  unfold checkSerial
  split
  · rename_i p hp
    have h1 := List.find?_some hp
    have h2 := mem_otherFlights.1 (List.mem_of_find?_eq_some hp)
    exact ⟨p.1, p.2, h2.1, h2.2, by simpa using h1, rfl⟩
  · rename_i hn
    exact absurd (checkSerial_ok.1 (by unfold checkSerial; rw [hn] : checkSerial s i = .ok ())) h

/-- What the checks of an unserialized command raise. -/
theorem checkOf_unserial {i : Instr} {s : State} {x : Context} {c : Nat}
    (he : i = .init ∨ ∃ r, s.engine = .ready r) (h : checkSerial s i = .error (.initRace c)) :
    checkOf i s x = .error (.initRace c) := by
  rcases he with rfl | ⟨r, hr⟩
  · simp [checkOf, h]
  · have : checkStart s i = .error (.initRace c) := by simp [checkStart, checkReady, hr, h]
    cases i <;> simp [checkOf, issueGen, issueRec, this, h]

/-! ## The shape of a completion -/

/-- The commands that write `RESULT` (40_field_tables.md R142). -/
def isLookup : Instr → Bool
  | .init => false
  | .setmode _ => false
  | .gfmul _ _ => true
  | .gfcoef _ _ => true
  | .genref _ => false
  | .gen _ => false
  | .recover _ _ => false
  | .selftest => false

/-- Everything a completion can change, and how. -/
structure Completed (i : Instr) (s t : State) (x : Context) (f : Flight) : Prop where
  context : ∃ y st, (y = x ∨ ∃ v, y = x.setResult v ∧ isLookup i = true) ∧
    t.ctxs = s.ctxs.set s.turn (y.finish st)
  faults : t.faults = s.faults
  par : t.par = s.par
  turn : t.turn = s.turn
  sched : t.sched = s.sched
  draws : t.draws = s.draws ∨ i = .selftest
  hm : t.hm = s.hm ∨ ∃ b out, f.args = .blocks b ∧ b.ok s.par = true ∧ t.hm = b.write s.hm (destsOf i b) out
  engine : t.engine = s.engine ∨ (i = .init ∧ t.engine = initEngine s.par s.engine) ∨
    ∃ m r, i = .setmode m ∧ s.engine = .ready r ∧ t.engine = .ready { r with mode := .cauchy }

theorem completeGen_next {kernel : ReadyRegs → BlockArgs → (Nat → Nat → Byte) → Nat → Nat → Byte}
    {s t : State} {x : Context} {f : Flight} (h : completeGen kernel s x f = .next t) :
    (∃ st, f.args = .failed st ∧ t = s.finish x st) ∨
      ∃ b r, f.args = .blocks b ∧ b.ok s.par = true ∧ s.engine = .ready r ∧
        t = { s.finish x .ok with
          hm := b.write s.hm b.parity fun k i => kernel r b (b.byte s.hm) (k - b.nd) i } := by
  unfold completeGen at h
  split at h
  · cases h
  · exact .inl ⟨_, ‹_›, by cases h; rfl⟩
  · split at h
    · obtain ⟨r, hr, h⟩ := withTables_next h
      exact .inr ⟨_, r, ‹_›, ‹_›, hr, by cases h; rfl⟩
    · cases h

theorem completeRec_next {s t : State} {x : Context} {f : Flight} (h : completeRec s x f = .next t) :
    (∃ st, f.args = .failed st ∧ t = s.finish x st) ∨
      ∃ b r, f.args = .blocks b ∧ b.ok s.par = true ∧ s.engine = .ready r ∧
        t = { s.finish x .ok with
          hm := b.write s.hm b.loss (kernelRec r b.nd b.np b.size b.loss (b.byte s.hm)) } := by
  unfold completeRec at h
  split at h
  · cases h
  · exact .inl ⟨_, ‹_›, by cases h; rfl⟩
  · split at h
    · obtain ⟨r, hr, h⟩ := withTables_next h
      exact .inr ⟨_, r, ‹_›, ‹_›, hr, by cases h; rfl⟩
    · cases h

/-- A completion changes its own context, the destination bytes, and for `INIT`, `SETMODE` and `SELFTEST`
what they are for; nothing else. -/
theorem completeOf_shape {i : Instr} {s t : State} {x : Context} {f : Flight}
    (h : completeOf i s x f = .next t) : Completed i s t x f := by
  cases i with
  | init =>
    cases h
    exact ⟨⟨x, .ok, .inl rfl, rfl⟩, rfl, rfl, rfl, rfl, .inl rfl, .inl rfl, .inr (.inl ⟨rfl, rfl⟩)⟩
  | setmode m =>
    obtain ⟨r, hr, h⟩ := withTables_next h
    cases h
    exact ⟨⟨x, .ok, .inl rfl, rfl⟩, rfl, rfl, rfl, rfl, .inl rfl, .inl rfl,
      .inr (.inr ⟨m, r, rfl, hr, rfl⟩)⟩
  | gfmul a b =>
    obtain ⟨r, hr, h⟩ := withTables_next h
    cases h
    exact ⟨⟨_, .ok, .inr ⟨_, rfl, rfl⟩, rfl⟩, rfl, rfl, rfl, rfl, .inl rfl, .inl rfl, .inl rfl⟩
  | gfcoef j d =>
    obtain ⟨r, hr, h⟩ := withTables_next h
    split at h
    · cases h
    · cases h
      exact ⟨⟨_, .ok, .inr ⟨_, rfl, rfl⟩, rfl⟩, rfl, rfl, rfl, rfl, .inl rfl, .inl rfl, .inl rfl⟩
  | genref np =>
    rcases completeGen_next h with ⟨st, -, rfl⟩ | ⟨b, r, hf, hb, -, rfl⟩
    · exact ⟨⟨x, st, .inl rfl, rfl⟩, rfl, rfl, rfl, rfl, .inl rfl, .inl rfl, .inl rfl⟩
    · exact ⟨⟨x, .ok, .inl rfl, rfl⟩, rfl, rfl, rfl, rfl, .inl rfl, .inr ⟨b, _, hf, hb, rfl⟩, .inl rfl⟩
  | gen np =>
    rcases completeGen_next h with ⟨st, -, rfl⟩ | ⟨b, r, hf, hb, -, rfl⟩
    · exact ⟨⟨x, st, .inl rfl, rfl⟩, rfl, rfl, rfl, rfl, .inl rfl, .inl rfl, .inl rfl⟩
    · exact ⟨⟨x, .ok, .inl rfl, rfl⟩, rfl, rfl, rfl, rfl, .inl rfl, .inr ⟨b, _, hf, hb, rfl⟩, .inl rfl⟩
  | recover np nr =>
    rcases completeRec_next h with ⟨st, -, rfl⟩ | ⟨b, r, hf, hb, -, rfl⟩
    · exact ⟨⟨x, st, .inl rfl, rfl⟩, rfl, rfl, rfl, rfl, .inl rfl, .inl rfl, .inl rfl⟩
    · exact ⟨⟨x, .ok, .inl rfl, rfl⟩, rfl, rfl, rfl, rfl, .inl rfl, .inr ⟨b, _, hf, hb, rfl⟩, .inl rfl⟩
  | selftest =>
    obtain ⟨r, hr, h⟩ := withTables_next h
    cases h
    exact ⟨⟨x, _, .inl rfl, rfl⟩, rfl, rfl, rfl, rfl, .inr rfl, .inl rfl, .inl rfl⟩

/-- A command's step that answers a next state: it raised a fault, launched a record that passed its
checks, or completed. -/
theorem exec_cases {i : Instr} {s t : State} (h : exec i s = .next t) :
    (∃ x k, s.idleTurn x ∧ t = s.raise (.command (encode i)) k) ∨
      (∃ x f, s.idleTurn x ∧ checkOf i s x = .ok f ∧ t = s.setCtx s.turn (x.launch f)) ∨
      ∃ x f, s.ctxs[s.turn]? = some x ∧ x.inflight = some f ∧ f.cmd = i ∧
        completeOf i s x f = .next t := by
  rcases runCommand_cases (exec_next h) with ⟨x, hx, ht⟩ | h
  · rcases State.issue_cases (i := i) (s := s) (x := x) (checkOf i s x) with ⟨k, -, e⟩ | ⟨f, hf, e⟩
    · exact .inl ⟨x, k, hx, ht.trans e⟩
    · exact .inr (.inl ⟨x, f, hx, hf, ht.trans e⟩)
  · exact .inr (.inr h)

/-- The record a command launches holds that command. -/
theorem checkOf_cmd {i : Instr} {s : State} {x : Context} {f : Flight} (h : checkOf i s x = .ok f) :
    f.cmd = i := by
  cases i with
  | genref np => obtain ⟨-, -, ⟨-, rfl⟩ | ⟨b, -, -, -, -, -, -, -, -, rfl⟩⟩ := issueGen_ok.1 h <;> rfl
  | gen np => obtain ⟨-, -, ⟨-, rfl⟩ | ⟨b, -, -, -, -, -, -, -, -, rfl⟩⟩ := issueGen_ok.1 h <;> rfl
  | recover np nr =>
    obtain ⟨r, -, -, ⟨-, rfl⟩ | ⟨-, -, -, rfl⟩ | ⟨b, -, -, -, -, -, -, -, -, -, -, -, rfl⟩⟩ :=
      issueRec_ok.1 h <;> rfl
  | init | gfmul | selftest =>
    simp only [checkOf, bind_ok, pure_eq_ok, Except.ok.injEq] at h
    obtain ⟨-, -, rfl⟩ := h; rfl
  | setmode | gfcoef =>
    simp only [checkOf, bind_ok, pure_eq_ok, Except.ok.injEq] at h
    obtain ⟨-, -, -, -, rfl⟩ := h; rfl

end Sys2Proof.Machine
end

