-- ==== Sys2Proof/Laws/Memory.lean ====
section
/-! SUPPORT. Host memory (10_state.md R45): reads after writes, and the canonical form every write keeps. -/

namespace Sys2Proof.Machine

/-- Nothing below `lo` is listed. -/
theorem memRead_of_wfFrom {m : List Host.Cell} {lo a : Nat} (h : memWfFrom lo m) (ha : a < lo) :
    memRead m a = unlistedByte := by
  induction m generalizing lo with
  | nil => rfl
  | cons c rest ih =>
    obtain ⟨b, v⟩ := c
    simp only [memWfFrom, Bool.and_eq_true, decide_eq_true_eq] at h
    have hb : b ≠ a := by omega
    simp [memRead, hb, ih h.2 (by omega)]

theorem memWfFrom_mono {m : List Host.Cell} {lo lo' : Nat} (h : memWfFrom lo m) (hl : lo' ≤ lo) :
    memWfFrom lo' m := by
  cases m with
  | nil => rfl
  | cons c rest =>
    simp only [memWfFrom, Bool.and_eq_true, decide_eq_true_eq] at h ⊢
    exact ⟨⟨by omega, h.1.2⟩, h.2⟩

theorem memCons_wfFrom {rest : List Host.Cell} {lo a : Nat} (v : Byte) (h : memWfFrom (a + 1) rest)
    (hl : lo ≤ a) : memWfFrom lo (memCons a v rest) := by
  unfold memCons
  split
  · exact memWfFrom_mono h (by omega)
  · rename_i hv
    simpa [memWfFrom, hl, h] using hv

theorem memWrite_wfFrom {m : List Host.Cell} {lo a : Nat} (v : Byte) (h : memWfFrom lo m)
    (hl : lo ≤ a) : memWfFrom lo (memWrite m a v) := by
  induction m generalizing lo with
  | nil => exact memCons_wfFrom v rfl hl
  | cons c rest ih =>
    obtain ⟨b, u⟩ := c
    have h' := h
    simp only [memWfFrom, Bool.and_eq_true, decide_eq_true_eq] at h'
    simp only [memWrite]
    split
    · refine memCons_wfFrom v ?_ hl
      simp only [memWfFrom, Bool.and_eq_true, decide_eq_true_eq]
      exact ⟨⟨by omega, h'.1.2⟩, h'.2⟩
    · split
      · rename_i hab
        subst hab
        exact memCons_wfFrom v h'.2 hl
      · simp only [memWfFrom, Bool.and_eq_true, decide_eq_true_eq]
        exact ⟨h'.1, ih h'.2 (by omega)⟩

theorem mem_memWrite {m : List Host.Cell} {a : Nat} {v : Byte} {c : Host.Cell}
    (h : c ∈ memWrite m a v) : c ∈ m ∨ c = (a, v) := by
  induction m with
  | nil => revert h; simp only [memWrite, memCons]; split <;> simp_all
  | cons d rest ih =>
    obtain ⟨b, u⟩ := d
    revert h
    simp only [memWrite, memCons]
    split_ifs <;> simp only [List.mem_cons] <;> tauto

/-- A write keeps the canonical form. -/
theorem memWrite_wf {m : List Host.Cell} {a : Nat} (v : Byte) (h : memWf m) (ha : a < 2 ^ Config.addrW) :
    memWf (memWrite m a v) := by
  simp only [memWf, Bool.and_eq_true, List.all_eq_true, decide_eq_true_eq] at h ⊢
  refine ⟨memWrite_wfFrom v h.1 (Nat.zero_le _), fun c hc => ?_⟩
  rcases mem_memWrite hc with hc | rfl
  · exact h.2 c hc
  · exact ha

theorem memRead_memCons {rest : List Host.Cell} {a : Nat} (v : Byte) (b : Nat)
    (h : memWfFrom (a + 1) rest) :
    memRead (memCons a v rest) b = if b = a then v else memRead rest b := by
  unfold memCons
  split_ifs with hv hb hb
  · subst hb; rw [memRead_of_wfFrom h (by omega), hv]
  · rfl
  · subst hb; simp [memRead]
  · simp [memRead, Ne.symm hb]

theorem memRead_memWrite_from {m : List Host.Cell} {lo a : Nat} (v : Byte) (b : Nat)
    (h : memWfFrom lo m) :
    memRead (memWrite m a v) b = if b = a then v else memRead m b := by
  induction m generalizing lo with
  | nil => exact memRead_memCons v b rfl
  | cons c rest ih =>
    obtain ⟨d, u⟩ := c
    have h' := h
    simp only [memWfFrom, Bool.and_eq_true, decide_eq_true_eq] at h'
    simp only [memWrite]
    split
    · rw [memRead_memCons]
      simp only [memWfFrom, Bool.and_eq_true, decide_eq_true_eq]
      exact ⟨⟨by omega, h'.1.2⟩, h'.2⟩
    · split
      · rename_i hab
        subst hab
        rw [memRead_memCons v b h'.2]
        simp only [memRead]
        split_ifs <;> simp_all
      · simp only [memRead, ih h'.2]
        split_ifs <;> first | rfl | omega

/-- A read after a write gives the byte written there, and every other byte as before. -/
theorem memRead_memWrite {m : List Host.Cell} (h : memWf m) (a : Nat) (v : Byte) (b : Nat) :
    memRead (memWrite m a v) b = if b = a then v else memRead m b := by
  simp only [memWf, Bool.and_eq_true] at h
  exact memRead_memWrite_from v b h.1

/-- Two canonical memories that read alike from `lo` on are the same list. -/
theorem memWfFrom_ext {m m' : List Host.Cell} {lo : Nat} (h : memWfFrom lo m) (h' : memWfFrom lo m')
    (e : ∀ a, memRead m a = memRead m' a) : m = m' := by
  induction m generalizing m' lo with
  | nil =>
    cases m' with
    | nil => rfl
    | cons c rest =>
      obtain ⟨b, v⟩ := c
      simp only [memWfFrom, Bool.and_eq_true, decide_eq_true_eq] at h'
      exact absurd (by simpa [memRead] using (e b).symm) h'.1.2
  | cons c rest ih =>
    obtain ⟨a, u⟩ := c
    have h1 := h
    simp only [memWfFrom, Bool.and_eq_true, decide_eq_true_eq] at h1
    cases m' with
    | nil => exact absurd (by simpa [memRead] using e a) h1.1.2
    | cons c' rest' =>
      obtain ⟨b, v⟩ := c'
      have h2 := h'
      simp only [memWfFrom, Bool.and_eq_true, decide_eq_true_eq] at h2
      have hab : a = b := by
        rcases Nat.lt_trichotomy a b with hlt | heq | hgt
        · have ea := e a
          simp only [memRead, if_true, if_neg (show b ≠ a by omega),
            memRead_of_wfFrom h2.2 (show a < b + 1 by omega)] at ea
          exact absurd ea h1.1.2
        · exact heq
        · have eb := e b
          simp only [memRead, if_true, if_neg (show a ≠ b by omega),
            memRead_of_wfFrom h1.2 (show b < a + 1 by omega)] at eb
          exact absurd eb.symm h2.1.2
      subst hab
      have huv : u = v := by simpa [memRead] using e a
      subst huv
      refine congrArg _ (ih h1.2 h2.2 fun k => ?_)
      by_cases hk : a = k
      · subst hk
        rw [memRead_of_wfFrom h1.2 (by omega), memRead_of_wfFrom h2.2 (by omega)]
      · simpa [memRead, hk] using e k

/-- Canonical memories are equal exactly when every byte is. -/
theorem memWf_ext {m m' : List Host.Cell} (h : memWf m) (h' : memWf m')
    (e : ∀ a, memRead m a = memRead m' a) : m = m' := by
  simp only [memWf, Bool.and_eq_true] at h h'
  exact memWfFrom_ext h.1 h'.1 e

/-- A block write keeps the canonical form. -/
theorem memWriteBlock_wf {m : List Host.Cell} {base n : Nat} (f : Nat → Byte) (h : memWf m)
    (hb : base + n ≤ 2 ^ Config.addrW) : memWf (memWriteBlock m base n f) := by
  unfold memWriteBlock
  induction n with
  | zero => simpa using h
  | succ n ih =>
    rw [List.range_succ, List.foldl_append]
    exact memWrite_wf _ (ih (by omega)) (by omega)

/-- A block write sets its bytes and no others. -/
theorem memRead_memWriteBlock {m : List Host.Cell} {base n : Nat} (f : Nat → Byte) (h : memWf m)
    (hb : base + n ≤ 2 ^ Config.addrW) (a : Nat) :
    memRead (memWriteBlock m base n f) a =
      if base ≤ a ∧ a < base + n then f (a - base) else memRead m a := by
  induction n with
  | zero => simp [memWriteBlock]
  | succ n ih =>
    have e : memWriteBlock m base (n + 1) f = memWrite (memWriteBlock m base n f) (base + n) (f n) := by
      simp [memWriteBlock, List.range_succ]
    rw [e, memRead_memWrite (memWriteBlock_wf f h (by omega)), ih (by omega)]
    by_cases h1 : a = base + n
    · subst h1; simp
    · rw [if_neg h1]
      exact if_congr (by omega) rfl rfl

section blocks
variable {b : BlockArgs} {m : List Host.Cell} {ks : List Nat} (out : Nat → Nat → Byte)

/-- Writing the destination blocks keeps the canonical form. -/
theorem BlockArgs.write_wf (h : memWf m) (hk : ∀ k ∈ ks, b.addr k + b.size ≤ 2 ^ Config.addrW) :
    memWf (b.write m ks out) := by
  unfold BlockArgs.write
  induction ks generalizing m with
  | nil => simpa using h
  | cons k rest ih =>
    simp only [List.foldl_cons]
    exact ih (memWriteBlock_wf _ h (hk k (by simp))) fun k' hk' => hk k' (by simp [hk'])

/-- A byte outside every destination block is as before. -/
theorem BlockArgs.read_write_outside (h : memWf m)
    (hk : ∀ k ∈ ks, b.addr k + b.size ≤ 2 ^ Config.addrW) {a : Nat}
    (ha : ∀ k ∈ ks, ¬(b.addr k ≤ a ∧ a < b.addr k + b.size)) :
    memRead (b.write m ks out) a = memRead m a := by
  unfold BlockArgs.write
  induction ks generalizing m with
  | nil => rfl
  | cons k rest ih =>
    simp only [List.foldl_cons]
    rw [ih (memWriteBlock_wf _ h (hk k (by simp))) (fun k' hk' => hk k' (by simp [hk']))
        fun k' hk' => ha k' (by simp [hk']),
      memRead_memWriteBlock _ h (hk k (by simp)), if_neg (ha k (by simp))]

/-- A byte of a destination block that no other destination block holds is the byte written there. -/
theorem BlockArgs.read_write_inside (h : memWf m)
    (hk : ∀ k ∈ ks, b.addr k + b.size ≤ 2 ^ Config.addrW) {k i : Nat} (hkm : k ∈ ks) (hi : i < b.size)
    (ha : ∀ k' ∈ ks, k' ≠ k → ¬(b.addr k' ≤ b.addr k + i ∧ b.addr k + i < b.addr k' + b.size)) :
    memRead (b.write m ks out) (b.addr k + i) = out k i := by
  unfold BlockArgs.write
  induction ks generalizing m with
  | nil => simp at hkm
  | cons d rest ih =>
    simp only [List.foldl_cons]
    have hw := memWriteBlock_wf (out d) h (hk d (by simp))
    by_cases hr : k ∈ rest
    · exact ih hw (fun k' hk' => hk k' (by simp [hk'])) hr fun k' hk' => ha k' (by simp [hk'])
    · have hd : k = d := by simpa [hr] using hkm
      subst hd
      have := BlockArgs.read_write_outside (b := b) (ks := rest) out hw
        (fun k' hk' => hk k' (by simp [hk'])) (a := b.addr k + i) fun k' hk' =>
          ha k' (by simp [hk']) (by rintro rfl; exact hr hk')
      rw [BlockArgs.write] at this
      rw [this, memRead_memWriteBlock _ h (hk k (by simp)), if_pos ⟨by omega, by omega⟩]
      congr 1; omega

end blocks

end Sys2Proof.Machine
end

