-- ==== Sys2Proof/Laws/Step.lean ====
section
/-! SUPPORT. What one step can do, said once: whose turn it is, and the step of a host agent or of a
completing command. -/

namespace Sys2Proof.Machine

/-- Choosing whose turn it is changes the turn and the schedule and nothing else. -/
theorem nextTurn_eq {s s' : State} (h : s.nextTurn = some s') :
    s' = { s with turn := s'.turn, sched := s'.sched } := by
  unfold State.nextTurn at h
  split at h
  · cases h; rfl
  · obtain ⟨c, -, rfl⟩ := Option.map_eq_some_iff.1 h; rfl

theorem nextTurn_engine {s s' : State} (h : s.nextTurn = some s') : s'.engine = s.engine := by
  rw [nextTurn_eq h]
theorem nextTurn_faults {s s' : State} (h : s.nextTurn = some s') : s'.faults = s.faults := by
  rw [nextTurn_eq h]
theorem nextTurn_hm {s s' : State} (h : s.nextTurn = some s') : s'.hm = s.hm := by
  rw [nextTurn_eq h]
theorem nextTurn_ctxs {s s' : State} (h : s.nextTurn = some s') : s'.ctxs = s.ctxs := by
  rw [nextTurn_eq h]
theorem nextTurn_par {s s' : State} (h : s.nextTurn = some s') : s'.par = s.par := by
  rw [nextTurn_eq h]
theorem nextTurn_draws {s s' : State} (h : s.nextTurn = some s') : s'.draws = s.draws := by
  rw [nextTurn_eq h]

/-- Once a run has ended and the schedule is used up, no agent has a step (70_reset_and_hazards.md
R286). -/
theorem nextTurn_ended {s : State} (h : s.ended) (hs : s.sched = []) : s.nextTurn = none := by
  simp only [State.nextTurn, hs, State.firstWithStep, Option.map_eq_none_iff, List.find?_eq_none,
    List.mem_range]
  intro c hc
  obtain ⟨h1, h2⟩ := h s.ctxs[c] (List.getElem_mem hc)
  simp [List.getElem?_eq_getElem hc, Context.hasStep, h1, h2]

theorem step_of_nextTurn {s s' : State} (h : s.nextTurn = some s') : step s = turnStep s' := by
  simp [step, h]

/-- An idle context's host agent performs the head of its program. -/
theorem turnStep_idle {s : State} {x : Context} {act : HostAction} {rest : List HostAction}
    (h : s.idleTurn x) (hp : x.prog = act :: rest) :
    turnStep s = hostStep (s.setCtx s.turn { x with prog := rest }) { x with prog := rest } act := by
  obtain ⟨h1, h2, h3⟩ := h
  simp [turnStep, h1, h2, h3, hp, State.popAction]

/-- A host access to a register answers a next state exactly where that register exists
(10_state.md R39). -/
theorem ifRegister_next {par : Params} {act : HostAction} {t u : State} (h : ifRegister par act t = .next u) :
    act.wf par.vecCount = true ∧ u = t := by
  unfold ifRegister at h
  split at h
  · cases h; exact ⟨‹_›, rfl⟩
  · cases h

theorem ifRegister_of {par : Params} {act : HostAction} {t : State} (h : act.wf par.vecCount = true) :
    ifRegister par act t = .next t := by simp [ifRegister, h]

theorem hostRegWrite_next {s u : State} {x : Context} {act : HostAction}
    (h : hostRegWrite s x act = .next u) : u = s.setCtx s.turn (hostWrite x act) := (ifRegister_next h).2

theorem hostRegRead_next {s u : State} {x : Context} {r : ReadReg} (h : hostRegRead s x r = .next u) :
    u = hostRegReadState s x r := (ifRegister_next h).2

/-- A command in flight on the context whose turn it is completes. -/
theorem turnStep_flight {s : State} {x : Context} {f : Flight} (h : s.ctxs[s.turn]? = some x)
    (hf : x.inflight = some f) : turnStep s = exec f.cmd s := by
  simp [turnStep, h, hf]

/-- The context after its program moved is still idle. -/
theorem idleTurn_pop {s : State} {x : Context} {rest : List HostAction} (h : s.idleTurn x) :
    (s.setCtx s.turn { x with prog := rest }).idleTurn { x with prog := rest } :=
  ⟨State.setCtx_get h.1 _, h.2.1, h.2.2⟩

/-- Moving a program changes no command in flight. -/
theorem flight_setCtx {s : State} {c : Nat} {x : Context} (hx : s.ctxs[c]? = some x) (y : Context)
    (c' : Nat) :
    (s.setCtx c y).flight? c' = if c' = c then y.inflight else s.flight? c' := by
  unfold State.flight?
  split_ifs with h
  · subst h; rw [State.setCtx_get hx]; rfl
  · rw [State.setCtx_get_ne s y h]

/-- A setCtx of a context with the same record in flight changes no command in flight. -/
theorem flight_setCtx_same {s : State} {c : Nat} {x y : Context} (hx : s.ctxs[c]? = some x)
    (hy : y.inflight = x.inflight) (c' : Nat) : (s.setCtx c y).flight? c' = s.flight? c' := by
  rw [flight_setCtx hx]
  split_ifs with h
  · subst h; rw [hy]; simp [State.flight?, hx]
  · rfl

/-- What a step does: the machine waits, a host agent performs an action, or a command completes. -/
theorem step_cases {s t : State} (h : step s = .next t) :
    (s.nextTurn = none ∧ t = s) ∨
      ∃ s', s.nextTurn = some s' ∧
        (t = s' ∨
          (∃ x act rest, s'.idleTurn x ∧ x.prog = act :: rest ∧
            hostStep (s'.setCtx s'.turn { x with prog := rest }) { x with prog := rest } act = .next t) ∨
          ∃ x f, s'.ctxs[s'.turn]? = some x ∧ x.inflight = some f ∧ exec f.cmd s' = .next t) := by
  unfold step at h
  split at h
  · exact .inl ⟨‹_›, by cases h; rfl⟩
  · rename_i s' hs
    refine .inr ⟨s', hs, ?_⟩
    unfold turnStep at h
    split at h
    · exact .inl (by cases h; rfl)
    · rename_i x hx
      split at h
      · exact .inr (.inr ⟨x, _, hx, ‹_›, h⟩)
      · rename_i hf
        split at h
        · exact .inl (by cases h; rfl)
        · rename_i hb
          split at h
          · exact .inl (by cases h; rfl)
          · rename_i act rest hp
            have hi : s'.idleTurn x := ⟨hx, by simpa using hb, hf⟩
            refine .inr (.inl ⟨x, act, rest, hi, hp, ?_⟩)
            simpa [State.popAction, hp] using h

/-- Where a command in flight is looked for, one that is bad is found exactly if there is one. -/
theorem flightWhere_none {s : State} {bad : Flight → Bool} :
    s.flightWhere bad = none ↔ ∀ c f, s.flight? c = some f → bad f = false := by
  simp only [State.flightWhere, List.find?_eq_none, List.mem_range, Bool.not_eq_true]
  constructor
  · intro h c f hf
    have hc : c < s.ctxs.length := by
      by_contra hlen
      have : s.ctxs[c]? = none := by simpa using hlen
      simp [State.flight?, this] at hf
    simpa [hf] using h c hc
  · intro h c hc
    cases hf : s.flight? c with
    | none => rfl
    | some f => simpa using h c f hf

theorem flightWhere_some {s : State} {bad : Flight → Bool} {c : Nat}
    (h : s.flightWhere bad = some c) : ∃ f, s.flight? c = some f ∧ bad f = true := by
  have := List.find?_some h
  cases hf : s.flight? c with
  | none => simp [hf] at this
  | some f => exact ⟨f, rfl, by simpa [hf] using this⟩

/-- Two sets of bytes meet exactly in a byte both hold. -/
theorem Span.meets_iff {p q : Span} : p.meets q = true ↔ ∃ a, p.holds a = true ∧ q.holds a = true := by
  simp only [Span.meets, Span.holds, decide_eq_true_eq, Bool.and_eq_true]
  constructor
  · intro h; exact ⟨max p.base q.base, by omega⟩
  · rintro ⟨a, h⟩; omega

theorem spansMeet_iff {ps qs : List Span} :
    spansMeet ps qs = true ↔ ∃ a, spansHold ps a = true ∧ spansHold qs a = true := by
  simp only [spansMeet, spansHold, List.any_eq_true, Span.meets_iff]
  constructor
  · rintro ⟨p, hp, q, hq, a, h1, h2⟩; exact ⟨a, ⟨p, hp, h1⟩, q, hq, h2⟩
  · rintro ⟨a, ⟨p, hp, h1⟩, q, hq, h2⟩; exact ⟨p, hp, q, hq, a, h1, h2⟩

theorem spansHold_append {ps qs : List Span} {a : Nat} :
    spansHold (ps ++ qs) a = (spansHold ps a || spansHold qs a) := by simp [spansHold]

/-- Two records conflict exactly in a byte one writes and the other reads or writes (20_memory.md R81). -/
theorem conflicts_iff {f g : Flight} :
    f.conflicts g = true ↔ ∃ a,
      (spansHold f.wr a = true ∧ (spansHold g.rd a = true ∨ spansHold g.wr a = true)) ∨
        (spansHold f.rd a = true ∧ spansHold g.wr a = true) := by
  simp only [Flight.conflicts, Bool.or_eq_true, spansMeet_iff, spansHold_append]
  constructor
  · rintro (⟨a, h1, h2⟩ | ⟨a, h1, h2⟩)
    · exact ⟨a, .inl ⟨h1, h2⟩⟩
    · exact ⟨a, .inr ⟨h1, h2⟩⟩
  · rintro ⟨a, ⟨h1, h2⟩ | ⟨h1, h2⟩⟩
    · exact .inl ⟨a, h1, h2⟩
    · exact .inr ⟨a, h1, h2⟩

end Sys2Proof.Machine
end

