-- ==== Sys2Proof/Laws/Blocks.lean ====
section
/-! SUPPORT. Blocks: what writing the destination blocks of a command leaves in memory, and the completions
of the block commands on arguments that passed their checks. -/

namespace Sys2Proof.Machine

theorem BlockArgs.mem_parity {b : BlockArgs} {k : Nat} :
    k ∈ b.parity ↔ b.nd ≤ k ∧ k < b.nd + b.np := by
  simp only [BlockArgs.parity, List.mem_map, List.mem_range]
  constructor
  · rintro ⟨a, h, rfl⟩; omega
  · intro h; exact ⟨k - b.nd, by omega, by omega⟩

theorem lossValid_lt {n : Nat} {l : List Nat} (h : lossValid n l = true) : ∀ k ∈ l, k < n := by
  simp only [lossValid, Bool.and_eq_true, List.all_eq_true, decide_eq_true_eq] at h
  exact h.2

/-- An increasing list holds each element once, and they rise. -/
theorem increasing_pairwise {l : List Nat} (h : increasing l = true) : l.Pairwise (· < ·) := by
  induction l with
  | nil => exact .nil
  | cons a t ih =>
    cases t with
    | nil => simp
    | cons c t =>
      simp only [increasing, Bool.and_eq_true, decide_eq_true_eq] at h
      have ht := ih h.2
      refine List.pairwise_cons.2 ⟨fun d hd => ?_, ht⟩
      rcases List.mem_cons.1 hd with rfl | hd
      · exact h.1
      · exact lt_trans h.1 ((List.pairwise_cons.1 ht).1 d hd)

/-- A destination shares no byte with another block of the command (20_memory.md R80). -/
theorem BlockArgs.apart_disjoint {b : BlockArgs} {ks : List Nat} (h : b.apart ks) {k k' a : Nat}
    (hk : k ∈ ks) (hk' : k' < b.nd + b.np) (hne : k' ≠ k)
    (h1 : b.addr k ≤ a ∧ a < b.addr k + b.size) : ¬(b.addr k' ≤ a ∧ a < b.addr k' + b.size) := by
  intro h2
  have := h k hk k' hk' hne
  rw [← Bool.not_eq_true, Span.meets_iff] at this
  exact this ⟨a, by simp [Span.holds, BlockArgs.span, h1], by simp [Span.holds, BlockArgs.span, h2]⟩

/-- Which bytes the spans of some blocks hold. -/
theorem spansHold_blocks {b : BlockArgs} {ks : List Nat} {a : Nat} :
    spansHold (ks.map b.span) a = true ↔ ∃ k ∈ ks, b.addr k ≤ a ∧ a < b.addr k + b.size := by
  simp only [spansHold, List.any_map, List.any_eq_true, Function.comp, Span.holds, Bool.and_eq_true]
  exact exists_congr fun k => and_congr_right fun _ => and_congr decide_eq_true_iff decide_eq_true_iff

section write
variable {b : BlockArgs} {m : List Host.Cell} {ks : List Nat} {out : Nat → Nat → Byte}

/-- Written destination blocks read as written, and every byte outside them as before. -/
theorem BlockArgs.write_spec (hm : memWf m = true) (hs : b.inSpace) (hk : ∀ k ∈ ks, k < b.nd + b.np)
    (ha : b.apart ks) :
    (∀ k ∈ ks, ∀ i, i < b.size → memRead (b.write m ks out) (b.addr k + i) = out k i) ∧
      ∀ a, (∀ k ∈ ks, ¬(b.addr k ≤ a ∧ a < b.addr k + b.size)) →
        memRead (b.write m ks out) a = memRead m a := by
  have hw : ∀ k ∈ ks, b.addr k + b.size ≤ 2 ^ Config.addrW := fun k h => hs k (hk k h)
  constructor
  · intro k h i hi
    exact BlockArgs.read_write_inside out hm hw h hi fun k' hk' hne =>
      BlockArgs.apart_disjoint ha h (hk k' hk') hne (by omega)
  · intro a h
    exact BlockArgs.read_write_outside out hm hw h

/-- The same for the parity blocks of a generation command, by parity row. -/
theorem BlockArgs.write_parity (hm : memWf m = true) (hs : b.inSpace) (ha : b.apart b.parity) :
    (∀ j i, j < b.np → i < b.size →
      memRead (b.write m b.parity out) (b.addr (b.nd + j) + i) = out (b.nd + j) i) ∧
      ∀ a, (∀ j, j < b.np → ¬(b.addr (b.nd + j) ≤ a ∧ a < b.addr (b.nd + j) + b.size)) →
        memRead (b.write m b.parity out) a = memRead m a := by
  obtain ⟨h1, h2⟩ := BlockArgs.write_spec (out := out) hm hs
    (fun k hk => (BlockArgs.mem_parity.1 hk).2) ha
  refine ⟨fun j i hj hi => h1 _ (BlockArgs.mem_parity.2 (by omega)) i hi, fun a h => h2 a ?_⟩
  intro k hk
  obtain ⟨h3, h4⟩ := BlockArgs.mem_parity.1 hk
  have := h (k - b.nd) (by omega)
  rwa [show b.nd + (k - b.nd) = k by omega] at this

/-- Writing the same bytes leaves the same memory. -/
theorem BlockArgs.write_congr {out' : Nat → Nat → Byte}
    (h : ∀ k ∈ ks, ∀ i, i < b.size → out k i = out' k i) : b.write m ks out = b.write m ks out' := by
  unfold BlockArgs.write
  induction ks generalizing m with
  | nil => rfl
  | cons k ks ih =>
    simp only [List.foldl_cons]
    rw [show memWriteBlock m (b.addr k) b.size (out k) = memWriteBlock m (b.addr k) b.size (out' k) from
      List.foldl_ext _ _ _ fun a i hi => by rw [h k (by simp) i (by simpa using hi)]]
    exact ih fun k hk => h k (by simp [hk])

end write

/-- The completion of a generation command with captured arguments. -/
theorem completeGen_blocks {i : Instr}
    {kernel : ReadyRegs → BlockArgs → (Nat → Nat → Byte) → Nat → Nat → Byte} {s : State} {x : Context}
    {b : BlockArgs} {r : ReadyRegs} (hr : s.engine = .ready r) (hb : b.ok s.par = true) :
    completeGen kernel s x (Flight.genOf i b) = .next { s.finish x .ok with
      hm := b.write s.hm b.parity fun k i => kernel r b (b.byte s.hm) (k - b.nd) i } := by
  simp only [completeGen, Flight.genOf, hb, if_true, withTables_ready hr]

/-- The completion of a recovery command with captured arguments. -/
theorem completeRec_blocks {i : Instr} {s : State} {x : Context} {b : BlockArgs} {r : ReadyRegs}
    (hr : s.engine = .ready r) (hb : b.ok s.par = true) :
    completeRec s x (Flight.recOf i b) = .next { s.finish x .ok with
      hm := b.write s.hm b.loss (kernelRec r b.nd b.np b.size b.loss (b.byte s.hm)) } := by
  simp only [completeRec, Flight.recOf, hb, if_true, withTables_ready hr]

end Sys2Proof.Machine
end

