-- ==== Sys2Proof/Laws/Gf.lean ====
section
/-! SUPPORT. Sums and products in GF(2^8): `gsum` is additive, and the consequences of the field laws
(40_field_tables.md R131, R133, R135). -/

namespace Sys2Proof.Machine

/-! ## Exclusive or -/

theorem xor_swap4 (a b c d : Byte) : (a ^^^ b) ^^^ (c ^^^ d) = (a ^^^ c) ^^^ (b ^^^ d) := by
  rw [BitVec.xor_assoc, BitVec.xor_assoc, ← BitVec.xor_assoc b, BitVec.xor_comm b c, BitVec.xor_assoc]

theorem xor_eq_iff {a b c : Byte} : a ^^^ b = c ↔ a = c ^^^ b := by
  constructor <;> rintro rfl <;> simp

theorem xor_eq_zero {a b : Byte} : a ^^^ b = 0 ↔ a = b := by
  rw [xor_eq_iff]; simp

/-! ## Sums -/

@[simp] theorem gsum_nil : gsum [] = 0 := rfl

@[simp] theorem gsum_cons (a : Byte) (l : List Byte) : gsum (a :: l) = a ^^^ gsum l := rfl

theorem gsum_append (l l' : List Byte) : gsum (l ++ l') = gsum l ^^^ gsum l' := by
  induction l with
  | nil => simp
  | cons a l ih => simp [ih, BitVec.xor_assoc]

section sums
variable {α : Type} (l : List α) (f g : α → Byte)

theorem gsum_map_xor : gsum (l.map fun a => f a ^^^ g a) = gsum (l.map f) ^^^ gsum (l.map g) := by
  induction l with
  | nil => simp
  | cons a l ih => simp only [List.map_cons, gsum_cons, ih, xor_swap4]

variable {l f g} in
theorem gsum_map_congr (h : ∀ a ∈ l, f a = g a) : gsum (l.map f) = gsum (l.map g) := by
  rw [List.map_congr_left h]

variable {l f} in
theorem gsum_map_zero (h : ∀ a ∈ l, f a = 0) : gsum (l.map f) = 0 := by
  induction l with
  | nil => rfl
  | cons a l ih =>
    rw [List.map_cons, gsum_cons, h a (by simp), ih fun b hb => h b (by simp [hb])]; rfl

/-- A sum splits over a test. -/
theorem gsum_filter (p : α → Bool) :
    gsum (l.map f) = gsum ((l.filter p).map f) ^^^ gsum ((l.filter fun a => !p a).map f) := by
  induction l with
  | nil => simp
  | cons a l ih =>
    cases hp : p a
    · rw [List.filter_cons_of_neg (by simp [hp]), List.filter_cons_of_pos (by simp [hp]), List.map_cons,
        gsum_cons, ih, List.map_cons, gsum_cons, ← BitVec.xor_assoc, ← BitVec.xor_assoc,
        BitVec.xor_comm (f a)]
    · rw [List.filter_cons_of_pos (by simp [hp]), List.filter_cons_of_neg (by simp [hp]), List.map_cons,
        gsum_cons, ih, List.map_cons, gsum_cons, BitVec.xor_assoc]

end sums

/-- A sum over `0 .. n-1` with one nonzero term. -/
theorem gsum_range_single {n k : Nat} {f : Nat → Byte} (hk : k < n)
    (h : ∀ j, j < n → j ≠ k → f j = 0) : gsum ((List.range n).map f) = f k := by
  induction n with
  | zero => omega
  | succ n ih =>
    rw [List.range_succ, List.map_append, gsum_append, List.map_singleton, gsum_cons, gsum_nil]
    by_cases hkn : k = n
    · subst hkn
      rw [gsum_map_zero fun j hj => ?_]
      · simp
      · have := List.mem_range.1 hj; exact h j (by omega) (by omega)
    · rw [ih (by omega) fun j hj hne => h j (by omega) hne, h n (by omega) (by omega)]; simp

/-! ## Consequences of the field laws -/

section fieldLaws
variable {mul : Byte → Byte → Byte} (F : FieldLaws mul)

include F

theorem FieldLaws.mul_zero (a : Byte) : mul a 0x00 = 0x00 := by rw [F.comm, F.zero]

theorem FieldLaws.mul_one (a : Byte) : mul a 0x01 = a := by rw [F.comm, F.one]

theorem FieldLaws.distrib_right (a b c : Byte) : mul (a ^^^ b) c = mul a c ^^^ mul b c := by
  rw [F.comm, F.distrib, F.comm c a, F.comm c b]

theorem FieldLaws.mul_gsum (c : Byte) (l : List Byte) : mul c (gsum l) = gsum (l.map (mul c)) := by
  induction l with
  | nil => exact F.mul_zero c
  | cons a l ih => rw [List.map_cons, gsum_cons, gsum_cons, F.distrib, ih]

theorem FieldLaws.cancel {a b c : Byte} (ha : a ≠ 0x00) (h : mul a b = mul a c) : b = c := by
  have h1 : mul a (b ^^^ c) = 0x00 := by rw [F.distrib, h, BitVec.xor_self]; rfl
  rcases F.noZeroDivisors _ _ h1 with h2 | h2
  · exact absurd h2 ha
  · exact xor_eq_zero.1 h2

/-- A nonzero element has an inverse: multiplication by it is injective on a finite type. -/
theorem FieldLaws.exists_inverse {a : Byte} (ha : a ≠ 0x00) : ∃ b, mul a b = 0x01 := by
  have hinj : Function.Injective fun b : Fin (2 ^ 8) => (mul a ⟨b⟩).toFin := by
    intro b c h
    have h1 : mul a ⟨b⟩ = mul a ⟨c⟩ := BitVec.eq_of_toFin_eq h
    exact congrArg BitVec.toFin (F.cancel ha h1)
  obtain ⟨b, hb⟩ := (Finite.injective_iff_surjective.1 hinj) (0x01 : Byte).toFin
  exact ⟨⟨b⟩, BitVec.eq_of_toFin_eq hb⟩

theorem FieldLaws.mul_ginv {a : Byte} (ha : a ≠ 0x00) : mul a (ginv mul a) = 0x01 := by
  obtain ⟨b, hb⟩ := F.exists_inverse ha
  unfold ginv findInverse
  cases h : ((List.range 256).map (BitVec.ofNat 8)).find? fun b => mul a b == 0x01 with
  | some c =>
    have := List.find?_some h
    simpa using this
  | none =>
    exfalso
    have := List.find?_eq_none.1 h b (List.mem_map.2 ⟨b.toNat, List.mem_range.2 b.isLt, by simp⟩)
    simp [hb] at this

theorem FieldLaws.ginv_ne_zero {a : Byte} (ha : a ≠ 0x00) : ginv mul a ≠ 0x00 := by
  intro h
  have := F.mul_ginv ha
  rw [h, F.mul_zero] at this
  exact absurd this (by decide)

end fieldLaws

end Sys2Proof.Machine
end

