-- ==== Sys2Proof/Laws/Solve.lean ====
section
/-! SUPPORT. Elimination (43_recovery.md R204, R206): every round keeps the solutions of the system and
clears one more column, so that at the end the last column is the solution. -/

namespace Sys2Proof.Machine

/-- Row `k` of a matrix; every use reads inside it. -/
def matRow (rows : List (List Byte)) (k : Nat) : List Byte := rows.getD k []

/-- Every row has `w` entries. -/
def Uniform (w : Nat) (rows : List (List Byte)) : Prop := ∀ row ∈ rows, row.length = w

/-- The left-hand side of a row at the point `xs`. -/
def dot (mul : Byte → Byte → Byte) (n : Nat) (row : List Byte) (xs : Nat → Byte) : Byte :=
  gsum ((List.range n).map fun b => mul (rowAt row b) (xs b))

/-- Row `row` of a system in `n` unknowns holds at `xs`: its entry `n` is the right-hand side (0 where the
row has no such entry: a homogeneous system). -/
def rowSat (mul : Byte → Byte → Byte) (n : Nat) (row : List Byte) (xs : Nat → Byte) : Prop :=
  dot mul n row xs = rowAt row n

/-- Columns `0 .. col-1` are those of the identity matrix. -/
def Cleared (col : Nat) (rows : List (List Byte)) : Prop :=
  ∀ c, c < col → ∀ k, k < rows.length → rowAt (matRow rows k) c = if k = c then 0x01 else 0x00

section rows
variable {mul : Byte → Byte → Byte} {rows : List (List Byte)} {w : Nat}

theorem matRow_mem {k : Nat} (h : k < rows.length) : matRow rows k ∈ rows := by
  simp [matRow, List.getD_eq_getElem?_getD, List.getElem?_eq_getElem h]

theorem Uniform.length (h : Uniform w rows) {k : Nat} (hk : k < rows.length) :
    (matRow rows k).length = w := h _ (matRow_mem hk)

theorem rowAt_scaleRow (F : FieldLaws mul) (t : Byte) (row : List Byte) (k : Nat) :
    rowAt (scaleRow mul t row) k = mul t (rowAt row k) := by
  simp only [rowAt, scaleRow, List.getD_eq_getElem?_getD, List.getElem?_map]
  cases row[k]?
  · exact (F.mul_zero t).symm
  · rfl

theorem rowAt_addScaled (F : FieldLaws mul) (f : Byte) {row pivot : List Byte}
    (h : row.length = pivot.length) (k : Nat) :
    rowAt (addScaled mul f row pivot) k = rowAt row k ^^^ mul f (rowAt pivot k) := by
  simp only [rowAt, addScaled, List.getD_eq_getElem?_getD, List.getElem?_zipWith]
  by_cases hk : k < row.length
  · rw [List.getElem?_eq_getElem hk, List.getElem?_eq_getElem (h ▸ hk)]; rfl
  · rw [List.getElem?_eq_none (by omega), List.getElem?_eq_none (by omega)]
    simp only [Option.getD_none]
    exact (by rw [F.mul_zero]; rfl : (0 : Byte) = 0 ^^^ mul f 0)

theorem dot_scaleRow (F : FieldLaws mul) (t : Byte) (n : Nat) (row : List Byte) (xs : Nat → Byte) :
    dot mul n (scaleRow mul t row) xs = mul t (dot mul n row xs) := by
  simp only [dot, F.mul_gsum, List.map_map]
  exact gsum_map_congr fun b _ => by simp [rowAt_scaleRow F, F.assoc]

theorem dot_addScaled (F : FieldLaws mul) (f : Byte) {row pivot : List Byte}
    (h : row.length = pivot.length) (n : Nat) (xs : Nat → Byte) :
    dot mul n (addScaled mul f row pivot) xs = dot mul n row xs ^^^ mul f (dot mul n pivot xs) := by
  simp only [dot, F.mul_gsum, List.map_map, ← gsum_map_xor]
  exact gsum_map_congr fun b _ => by
    simp [rowAt_addScaled F f h, F.distrib_right, F.assoc]

/-- Scaling a row by a nonzero element keeps what it says. -/
theorem rowSat_scaleRow (F : FieldLaws mul) {t : Byte} (ht : t ≠ 0x00) {n : Nat} {row : List Byte}
    {xs : Nat → Byte} : rowSat mul n (scaleRow mul t row) xs ↔ rowSat mul n row xs := by
  unfold rowSat
  rw [dot_scaleRow F, rowAt_scaleRow F]
  exact ⟨F.cancel ht, fun h => by rw [h]⟩

/-- Adding a multiple of a row that holds keeps what a row says. -/
theorem rowSat_addScaled (F : FieldLaws mul) (f : Byte) {row pivot : List Byte}
    (h : row.length = pivot.length) {n : Nat} {xs : Nat → Byte} (hp : rowSat mul n pivot xs) :
    rowSat mul n (addScaled mul f row pivot) xs ↔ rowSat mul n row xs := by
  unfold rowSat at *
  rw [dot_addScaled F f h, rowAt_addScaled F f h, hp]
  constructor
  · intro e
    have := congrArg (· ^^^ mul f (rowAt pivot n)) e
    simpa [BitVec.xor_assoc] using this
  · intro e; rw [e]

theorem swapRows_length (p col : Nat) : (swapRows rows p col).length = rows.length := by
  simp [swapRows]

theorem matRow_swapRows {p col : Nat} (hp : p < rows.length) (hc : col < rows.length) (k : Nat) :
    matRow (swapRows rows p col) k =
      if k = col then matRow rows p else if k = p then matRow rows col else matRow rows k := by
  simp only [matRow, swapRows, List.getD_eq_getElem?_getD, List.getElem?_set, List.length_set]
  by_cases h1 : k = col
  · subst h1; simp [hc]
  · rw [if_neg (Ne.symm h1), if_neg h1]
    by_cases h2 : k = p
    · subst h2; simp [hp]
    · rw [if_neg (Ne.symm h2), if_neg h2]

end rows

/-! ## One round -/

section round
variable {mul : Byte → Byte → Byte} {rows rows' : List (List Byte)} {w col : Nat}

theorem pivotRow_some {p : Nat} (h : pivotRow rows col = some p) :
    col ≤ p ∧ p < rows.length ∧ rowAt (matRow rows p) col ≠ 0x00 := by
  have h1 := List.find?_some h
  have h2 := List.mem_range'_1.1 (List.mem_of_find?_eq_some h)
  exact ⟨h2.1, by omega, by simpa [matRow] using h1⟩

theorem pivotRow_none (h : pivotRow rows col = none) {k : Nat} (hc : col ≤ k) (hk : k < rows.length) :
    rowAt (matRow rows k) col = 0x00 := by
  have := List.find?_eq_none.1 h k (List.mem_range'_1.2 ⟨hc, by omega⟩)
  simpa [matRow] using this

/-- The rows after a round: the pivot row scaled at `col`, and every other row with its entry in column
`col` cleared. -/
theorem eliminate_some (h : eliminate mul rows col = some rows') :
    ∃ p, pivotRow rows col = some p ∧ rows'.length = rows.length ∧
      ∀ k, k < rows.length →
        matRow rows' k =
          if k = col then
            scaleRow mul (ginv mul (rowAt (matRow (swapRows rows p col) col) col))
              (matRow (swapRows rows p col) col)
          else addScaled mul (rowAt (matRow (swapRows rows p col) k) col) (matRow (swapRows rows p col) k)
            (scaleRow mul (ginv mul (rowAt (matRow (swapRows rows p col) col) col))
              (matRow (swapRows rows p col) col)) := by
  unfold eliminate at h
  split at h
  · cases h
  · rename_i p hp
    cases h
    refine ⟨p, hp, by simp [swapRows], fun k hk => ?_⟩
    have hk' : k < (swapRows rows p col).length := by rw [swapRows_length]; exact hk
    conv_lhs => unfold matRow
    rw [List.getD_eq_getElem?_getD, List.getElem?_mapIdx, List.getElem?_eq_getElem hk']
    simp only [Option.map_some, Option.getD_some]
    have e : (swapRows rows p col)[k] = matRow (swapRows rows p col) k := by
      simp [matRow, List.getD_eq_getElem?_getD, List.getElem?_eq_getElem hk']
    rw [e]; rfl

theorem scaleRow_length (t : Byte) (row : List Byte) : (scaleRow mul t row).length = row.length := by
  simp [scaleRow]

theorem addScaled_length (f : Byte) {row pivot : List Byte} (h : row.length = pivot.length) :
    (addScaled mul f row pivot).length = row.length := by
  simp [addScaled, h]

/-- A round keeps the shape, clears column `col`, and keeps the solutions. -/
theorem eliminate_spec (F : FieldLaws mul) (hu : Uniform w rows) (hc : Cleared col rows)
    (h : eliminate mul rows col = some rows') :
    rows'.length = rows.length ∧ Uniform w rows' ∧ Cleared (col + 1) rows' ∧
      ∀ n xs, (∀ k, k < rows.length → rowSat mul n (matRow rows' k) xs) ↔
        ∀ k, k < rows.length → rowSat mul n (matRow rows k) xs := by
  obtain ⟨p, hp, hlen, hrow⟩ := eliminate_some h
  obtain ⟨hcp, hpl, hpv⟩ := pivotRow_some hp
  have hcl : col < rows.length := by omega
  have hsw := matRow_swapRows hpl hcl
  have htop : matRow (swapRows rows p col) col = matRow rows p := by rw [hsw, if_pos rfl]
  have hsl : ∀ k, k < rows.length → (matRow (swapRows rows p col) k).length = w := by
    intro k hk
    rw [hsw]; split_ifs
    · exact hu.length hpl
    · exact hu.length hcl
    · exact hu.length hk
  rw [htop] at hrow
  have hg : ginv mul (rowAt (matRow rows p) col) ≠ 0x00 := F.ginv_ne_zero hpv
  have hpivlen : (scaleRow mul (ginv mul (rowAt (matRow rows p) col)) (matRow rows p)).length = w := by
    rw [scaleRow_length]; exact hu.length hpl
  have hswc : ∀ c, c < col → ∀ k, k < rows.length →
      rowAt (matRow (swapRows rows p col) k) c = if k = c then 0x01 else 0x00 := by
    intro c hcc k hk
    rw [hsw]
    split_ifs with h1 h2 h3 h4 h5
    · omega
    · rw [hc c hcc p hpl, if_neg (by omega)]
    · omega
    · rw [hc c hcc col hcl, if_neg (by omega)]
    · rw [hc c hcc k hk, if_pos h5]
    · rw [hc c hcc k hk, if_neg h5]
  refine ⟨hlen, ?_, ?_, ?_⟩
  · intro row hr
    obtain ⟨k, hk, rfl⟩ := List.mem_iff_getElem.1 hr
    have e : rows'[k] = matRow rows' k := by
      simp [matRow, List.getD_eq_getElem?_getD, List.getElem?_eq_getElem hk]
    rw [e, hrow k (hlen ▸ hk)]
    split_ifs
    · exact hpivlen
    · rw [addScaled_length _ (by rw [hpivlen]; exact hsl k (hlen ▸ hk))]; exact hsl k (hlen ▸ hk)
  · intro c hcc k hk
    rw [hlen] at hk
    rw [hrow k hk]
    have hpiv : rowAt (scaleRow mul (ginv mul (rowAt (matRow rows p) col)) (matRow rows p)) c =
        if c = col then 0x01 else 0x00 := by
      rw [rowAt_scaleRow F]
      split_ifs with h1
      · subst h1; rw [F.comm]; exact F.mul_ginv hpv
      · rw [hc c (by omega) p hpl, if_neg (by omega)]; exact F.mul_zero _
    by_cases hk1 : k = col
    · rw [if_pos hk1, hpiv]
      exact if_congr ⟨fun e => by omega, fun e => by omega⟩ rfl rfl
    · rw [if_neg hk1, rowAt_addScaled F _ (by rw [hpivlen]; exact hsl k hk), hpiv]
      by_cases h1 : c = col
      · subst h1
        rw [if_pos rfl, if_neg hk1, F.mul_one, BitVec.xor_self]; rfl
      · rw [if_neg h1, F.mul_zero, hswc c (by omega) k hk]
        split_ifs <;> rfl
  · intro n xs
    have hswap : (∀ k, k < rows.length → rowSat mul n (matRow (swapRows rows p col) k) xs) ↔
        ∀ k, k < rows.length → rowSat mul n (matRow rows k) xs := by
      constructor
      · intro hall k hk
        by_cases h1 : k = p
        · have := hall col hcl; rw [htop] at this; rw [h1]; exact this
        · by_cases h2 : k = col
          · have := hall p hpl
            rw [hsw, if_neg fun e => h1 (h2.trans e.symm), if_pos rfl] at this
            rw [h2]; exact this
          · have := hall k hk
            rw [hsw, if_neg h2, if_neg h1] at this; exact this
      · intro hall k hk
        rw [hsw]; split_ifs
        · exact hall p hpl
        · exact hall col hcl
        · exact hall k hk
    rw [← hswap]
    have hpivot : rowSat mul n (scaleRow mul (ginv mul (rowAt (matRow rows p) col)) (matRow rows p)) xs ↔
        rowSat mul n (matRow (swapRows rows p col) col) xs := by
      rw [htop]; exact rowSat_scaleRow F hg
    constructor
    · intro hall k hk
      have h0 := hall col hcl
      rw [hrow col hcl, if_pos rfl] at h0
      by_cases hk1 : k = col
      · rw [hk1]; exact hpivot.1 h0
      · have := hall k hk
        rw [hrow k hk, if_neg hk1,
          rowSat_addScaled F _ (by rw [hpivlen]; exact hsl k hk) h0] at this
        exact this
    · intro hall k hk
      have h0 := hpivot.2 (hall col hcl)
      rw [hrow k hk]
      split_ifs with hk1
      · exact h0
      · rw [rowSat_addScaled F _ (by rw [hpivlen]; exact hsl k hk) h0]; exact hall k hk

end round

/-! ## Elimination -/

section elimination
variable {mul : Byte → Byte → Byte} {rows rows' : List (List Byte)} {w n : Nat}

theorem gaussJordan_succ :
    gaussJordan mul (n + 1) rows = (gaussJordan mul n rows).bind fun r => eliminate mul r n := by
  simp only [gaussJordan, List.range_succ, List.foldlM_append]
  cases List.foldlM (eliminate mul) rows (List.range n) <;> simp

/-- Elimination keeps the number of rows. -/
theorem gaussJordan_length (h : gaussJordan mul n rows = some rows') : rows'.length = rows.length := by
  induction n generalizing rows' with
  | zero => simp only [gaussJordan, List.range_zero, List.foldlM_nil] at h; cases h; rfl
  | succ n ih =>
    rw [gaussJordan_succ] at h
    obtain ⟨r, hr, he⟩ := Option.bind_eq_some_iff.1 h
    obtain ⟨-, -, hl, -⟩ := eliminate_some he
    rw [hl, ih hr]

/-- Elimination keeps the shape and the solutions, and leaves the columns of the identity matrix. -/
theorem gaussJordan_spec (F : FieldLaws mul) (hu : Uniform w rows)
    (h : gaussJordan mul n rows = some rows') :
    rows'.length = rows.length ∧ Uniform w rows' ∧ Cleared n rows' ∧
      ∀ m xs, (∀ k, k < rows.length → rowSat mul m (matRow rows' k) xs) ↔
        ∀ k, k < rows.length → rowSat mul m (matRow rows k) xs := by
  induction n generalizing rows' with
  | zero =>
    simp only [gaussJordan, List.range_zero, List.foldlM_nil] at h
    cases h
    exact ⟨rfl, hu, fun c hc => absurd hc (Nat.not_lt_zero c), fun _ _ => Iff.rfl⟩
  | succ n ih =>
    rw [gaussJordan_succ] at h
    obtain ⟨r, hr, he⟩ := Option.bind_eq_some_iff.1 h
    obtain ⟨h1, h2, h3, h4⟩ := ih hr
    obtain ⟨g1, g2, g3, g4⟩ := eliminate_spec F h2 h3 he
    exact ⟨g1.trans h1, g2, g3, fun m xs => by rw [← h4 m xs, ← h1]; exact g4 m xs⟩

/-- Where elimination stops, some rows with the same solutions have the columns of the identity matrix up
to a column with no pivot. -/
theorem gaussJordan_none (F : FieldLaws mul) (hu : Uniform w rows) (h : gaussJordan mul n rows = none) :
    ∃ col r, col < n ∧ r.length = rows.length ∧ Uniform w r ∧ Cleared col r ∧ pivotRow r col = none ∧
      ∀ m xs, (∀ k, k < rows.length → rowSat mul m (matRow r k) xs) ↔
        ∀ k, k < rows.length → rowSat mul m (matRow rows k) xs := by
  induction n with
  | zero => simp [gaussJordan] at h
  | succ n ih =>
    rw [gaussJordan_succ] at h
    cases hr : gaussJordan mul n rows with
    | none => obtain ⟨col, r, hc, rest⟩ := ih hr; exact ⟨col, r, by omega, rest⟩
    | some r =>
      rw [hr, Option.bind_some] at h
      obtain ⟨h1, h2, h3, h4⟩ := gaussJordan_spec F hu hr
      refine ⟨n, r, by omega, h1, h2, h3, ?_, h4⟩
      unfold eliminate at h
      split at h
      · assumption
      · cases h

/-- With every column cleared a row says what its unknown is. -/
theorem rowSat_cleared (F : FieldLaws mul) (hc : Cleared n rows) {k : Nat} (hk : k < rows.length)
    (hn : k < n) (xs : Nat → Byte) : rowSat mul n (matRow rows k) xs ↔ xs k = rowAt (matRow rows k) n := by
  have : dot mul n (matRow rows k) xs = xs k := by
    unfold dot
    rw [gsum_range_single hn]
    · rw [hc k hn k hk, if_pos rfl, F.one]
    · intro j hj hne
      rw [hc j hj k hk, if_neg (Ne.symm hne), F.zero]
  unfold rowSat; rw [this]

end elimination

/-! ## Singular matrices -/

section singular
variable {mul : Byte → Byte → Byte} {coeffs : List (List Byte)}

theorem rowAt_beyond {w : Nat} {rows : List (List Byte)} (h : Uniform w rows) {k : Nat}
    (hk : k < rows.length) : rowAt (matRow rows k) w = 0x00 := by
  have := h.length hk
  simp [rowAt, List.getD_eq_getElem?_getD, this]

/-- A singular matrix maps some nonzero point to zero: the point is read off the column with no pivot
(43_recovery.md R204). -/
theorem kernel_of_singular (F : FieldLaws mul) (hu : Uniform coeffs.length coeffs)
    (hs : singular mul coeffs = true) :
    ∃ xs : Nat → Byte, (∃ b, b < coeffs.length ∧ xs b ≠ 0x00) ∧
      ∀ a, a < coeffs.length → dot mul coeffs.length (matRow coeffs a) xs = 0x00 := by
  have hn : gaussJordan mul coeffs.length coeffs = none := by simpa [singular] using hs
  obtain ⟨col, r, hc, hl, hur, hcl, hp, heq⟩ := gaussJordan_none F hu hn
  let xs : Nat → Byte := fun k => if k = col then 0x01 else if k < col then rowAt (matRow r k) col else 0x00
  have hr : ∀ k, k < coeffs.length → rowSat mul coeffs.length (matRow r k) xs := by
    intro k hk
    unfold rowSat
    rw [rowAt_beyond hur (hl ▸ hk)]
    unfold dot
    have e : ∀ b, b < coeffs.length → b ≠ col → mul (rowAt (matRow r k) b) (xs b) =
        if b = k ∧ k < col then rowAt (matRow r k) col else 0x00 := by
      intro b hb hbc
      by_cases hbl : b < col
      · rw [hcl b hbl k (hl ▸ hk)]
        by_cases hkb : k = b
        · subst hkb; simp only [if_true, F.one, xs, if_neg hbc, if_pos hbl, true_and]
        · rw [if_neg hkb, F.zero, if_neg (by omega)]
      · simp only [xs, if_neg hbc, if_neg hbl]
        rw [if_neg (by omega)]; exact F.mul_zero _
    have ecol : mul (rowAt (matRow r k) col) (xs col) = rowAt (matRow r k) col := by
      simp only [xs, if_true]; exact F.mul_one _
    by_cases hkc : k < col
    · have : gsum ((List.range coeffs.length).map fun b => mul (rowAt (matRow r k) b) (xs b)) =
          gsum ((List.range coeffs.length).map fun b =>
            (if b = k then rowAt (matRow r k) col else 0) ^^^
              (if b = col then rowAt (matRow r k) col else 0)) := by
        refine gsum_map_congr fun b hb => ?_
        have hb := List.mem_range.1 hb
        by_cases hbc : b = col
        · subst hbc; rw [ecol, if_neg (by omega), if_pos rfl]; simp
        · rw [e b hb hbc, if_neg hbc]; simp [hkc]
      rw [this, gsum_map_xor, gsum_range_single hk (by intro j _ hj; simp [hj]),
        gsum_range_single hc (by intro j _ hj; simp [hj])]
      simp
    · rw [gsum_range_single hc]
      · rw [ecol]; exact pivotRow_none hp (by omega) (hl ▸ hk)
      · intro b hb hbc; rw [e b hb hbc, if_neg (by omega)]
  refine ⟨xs, ⟨col, hc, by simp [xs]⟩, fun a ha => ?_⟩
  have := (heq coeffs.length xs).1 hr a ha
  unfold rowSat at this
  rwa [rowAt_beyond hu ha] at this

/-- A matrix that maps some nonzero point to zero is singular (43_recovery.md R204). -/
theorem singular_of_kernel (F : FieldLaws mul) (hu : Uniform coeffs.length coeffs) {xs : Nat → Byte}
    {b : Nat} (hb : b < coeffs.length) (hx : xs b ≠ 0x00)
    (hk : ∀ a, a < coeffs.length → dot mul coeffs.length (matRow coeffs a) xs = 0x00) :
    singular mul coeffs = true := by
  by_contra hs
  obtain ⟨r, hr⟩ : ∃ r, gaussJordan mul coeffs.length coeffs = some r := by
    cases e : gaussJordan mul coeffs.length coeffs with
    | none => simp [singular, e] at hs
    | some r => exact ⟨r, rfl⟩
  obtain ⟨h1, h2, h3, h4⟩ := gaussJordan_spec F hu hr
  have hsat : ∀ k, k < coeffs.length → rowSat mul coeffs.length (matRow coeffs k) xs := by
    intro k hk'
    unfold rowSat; rw [rowAt_beyond hu hk']; exact hk k hk'
  have := (h4 coeffs.length xs).2 hsat b hb
  rw [rowSat_cleared F h3 (h1 ▸ hb) hb, rowAt_beyond h2 (h1 ▸ hb)] at this
  exact hx this

end singular

/-! ## Singularity does not depend on the right-hand side -/

/-- Two systems with the same coefficients in columns `0 .. n-1`. -/
def SameCoeffs (n : Nat) (rows rows' : List (List Byte)) : Prop :=
  rows.length = rows'.length ∧ ∀ k c, k < rows.length → c < n → rowAt (matRow rows k) c = rowAt (matRow rows' k) c

section sameCoeffs
variable {mul : Byte → Byte → Byte} {a b : List (List Byte)} {n w w' : Nat}

theorem SameCoeffs.pivotRow (h : SameCoeffs n a b) {col : Nat} (hc : col < n) :
    pivotRow a col = pivotRow b col := by
  unfold Sys2Proof.Machine.pivotRow
  rw [h.1]
  have : ∀ (l : List Nat), (∀ p ∈ l, p < a.length) →
      l.find? (fun p => rowAt (a.getD p []) col != 0) = l.find? fun p => rowAt (b.getD p []) col != 0 := by
    intro l hl
    induction l with
    | nil => rfl
    | cons p l ih =>
      have e := h.2 p col (hl p (by simp)) hc
      simp only [matRow] at e
      simp only [List.find?_cons, e, ih fun q hq => hl q (by simp [hq])]
  exact this _ fun p hp => by have := List.mem_range'_1.1 hp; have := h.1; omega

theorem SameCoeffs.eliminate (F : FieldLaws mul) (h : SameCoeffs n a b) (hua : Uniform w a)
    (hub : Uniform w' b) {col : Nat} (hc : col < n) :
    (eliminate mul a col = none ∧ eliminate mul b col = none) ∨
      ∃ a' b', eliminate mul a col = some a' ∧ eliminate mul b col = some b' ∧ SameCoeffs n a' b' := by
  have hp := h.pivotRow hc
  cases ha : Sys2Proof.Machine.eliminate mul a col with
  | none =>
    refine .inl ⟨rfl, ?_⟩
    unfold Sys2Proof.Machine.eliminate at ha ⊢
    rw [← hp]
    split at ha
    · rfl
    · cases ha
  | some a' =>
    cases hb : Sys2Proof.Machine.eliminate mul b col with
    | none =>
      exfalso
      unfold Sys2Proof.Machine.eliminate at ha hb
      rw [← hp] at hb
      split at hb
      · rename_i e; rw [e] at ha; cases ha
      · cases hb
    | some b' =>
      refine .inr ⟨a', b', rfl, rfl, ?_⟩
      obtain ⟨p, hpa, hla, hra⟩ := eliminate_some ha
      obtain ⟨q, hqb, hlb, hrb⟩ := eliminate_some hb
      rw [hp] at hpa; rw [hpa] at hqb; cases hqb
      obtain ⟨hcp, hpl, -⟩ := pivotRow_some (hp.trans hpa)
      have hcl : col < a.length := by omega
      have hsw : ∀ k c, k < a.length → c < n →
          rowAt (matRow (swapRows a p col) k) c = rowAt (matRow (swapRows b p col) k) c := by
        intro k c hk hcn
        rw [matRow_swapRows hpl hcl, matRow_swapRows (h.1 ▸ hpl) (h.1 ▸ hcl)]
        split_ifs
        · exact h.2 p c hpl hcn
        · exact h.2 col c hcl hcn
        · exact h.2 k c hk hcn
      have hlen : ∀ k, k < a.length → (matRow (swapRows a p col) k).length = w := by
        intro k hk
        rw [matRow_swapRows hpl hcl]; split_ifs
        · exact hua.length hpl
        · exact hua.length hcl
        · exact hua.length hk
      have hlen' : ∀ k, k < a.length → (matRow (swapRows b p col) k).length = w' := by
        intro k hk
        rw [matRow_swapRows (h.1 ▸ hpl) (h.1 ▸ hcl)]; split_ifs
        · exact hub.length (h.1 ▸ hpl)
        · exact hub.length (h.1 ▸ hcl)
        · exact hub.length (h.1 ▸ hk)
      refine ⟨hla.trans (h.1.trans hlb.symm), fun k c hk hcn => ?_⟩
      rw [hla] at hk
      rw [hra k hk, hrb k (h.1 ▸ hk), ← hsw col col hcl hc]
      split_ifs with hkc
      · rw [rowAt_scaleRow F, rowAt_scaleRow F, hsw col c hcl hcn]
      · rw [rowAt_addScaled F _ (by rw [scaleRow_length, hlen k hk, hlen col hcl]),
          rowAt_addScaled F _ (by rw [scaleRow_length, hlen' k hk, hlen' col hcl]),
          rowAt_scaleRow F, rowAt_scaleRow F, hsw k c hk hcn, hsw k col hk hc, hsw col c hcl hcn]

theorem SameCoeffs.gaussJordan (F : FieldLaws mul) (h : SameCoeffs n a b) (hua : Uniform w a)
    (hub : Uniform w' b) {m : Nat} (hm : m ≤ n) :
    (gaussJordan mul m a = none ∧ gaussJordan mul m b = none) ∨
      ∃ a' b', gaussJordan mul m a = some a' ∧ gaussJordan mul m b = some b' ∧ SameCoeffs n a' b' := by
  induction m with
  | zero => exact .inr ⟨a, b, rfl, rfl, h⟩
  | succ m ih =>
    rw [gaussJordan_succ, gaussJordan_succ]
    rcases ih (by omega) with ⟨h1, h2⟩ | ⟨a', b', h1, h2, h3⟩
    · exact .inl ⟨by rw [h1]; rfl, by rw [h2]; rfl⟩
    · rw [h1, h2, Option.bind_some, Option.bind_some]
      exact h3.eliminate F (gaussJordan_spec F hua h1).2.1 (gaussJordan_spec F hub h2).2.1 hm

end sameCoeffs

section augment
variable {coeffs : List (List Byte)} {rhs : List Byte} {n : Nat}

theorem augment_length (h : coeffs.length = rhs.length) : (augment coeffs rhs).length = rhs.length := by
  simp [augment, h]

theorem matRow_augment (h : coeffs.length = rhs.length) {k : Nat} (hk : k < rhs.length) :
    matRow (augment coeffs rhs) k = matRow coeffs k ++ [rhs.getD k 0] := by
  simp [matRow, augment, List.getD_eq_getElem?_getD, List.getElem?_zipWith,
    List.getElem?_eq_getElem (h ▸ hk), List.getElem?_eq_getElem hk]

theorem uniform_augment (hu : Uniform n coeffs) (h : coeffs.length = rhs.length) :
    Uniform (n + 1) (augment coeffs rhs) := by
  intro row hr
  obtain ⟨k, hk, rfl⟩ := List.mem_iff_getElem.1 hr
  have hk' : k < rhs.length := augment_length h ▸ hk
  have e : (augment coeffs rhs)[k] = matRow (augment coeffs rhs) k := by
    simp [matRow, List.getD_eq_getElem?_getD, List.getElem?_eq_getElem hk]
  rw [e, matRow_augment h hk', List.length_append, hu.length (h ▸ hk')]; rfl

theorem rowAt_append_left {l l' : List Byte} {c : Nat} (h : c < l.length) :
    rowAt (l ++ l') c = rowAt l c := by
  simp [rowAt, List.getD_eq_getElem?_getD, List.getElem?_append_left h]

theorem rowAt_append_last (l : List Byte) (y : Byte) : rowAt (l ++ [y]) l.length = y := by
  simp [rowAt]

theorem sameCoeffs_augment (hu : Uniform n coeffs) (h : coeffs.length = rhs.length) :
    SameCoeffs n coeffs (augment coeffs rhs) := by
  refine ⟨by rw [augment_length h, h], fun k c hk hc => ?_⟩
  rw [matRow_augment h (h ▸ hk), rowAt_append_left (by rw [hu.length hk]; exact hc)]

/-- What a row of an augmented system says. -/
theorem rowSat_augment {mul : Byte → Byte → Byte} (hu : Uniform n coeffs)
    (h : coeffs.length = rhs.length) {k : Nat} (hk : k < rhs.length) (xs : Nat → Byte) :
    rowSat mul n (matRow (augment coeffs rhs) k) xs ↔
      dot mul n (matRow coeffs k) xs = rhs.getD k 0 := by
  have hl : (matRow coeffs k).length = n := hu.length (h ▸ hk)
  unfold rowSat
  rw [matRow_augment h hk]
  have e1 : rowAt (matRow coeffs k ++ [rhs.getD k 0]) n = rhs.getD k 0 := by
    conv_lhs => rw [← hl]
    exact rowAt_append_last _ _
  have e2 : dot mul n (matRow coeffs k ++ [rhs.getD k 0]) xs = dot mul n (matRow coeffs k) xs :=
    gsum_map_congr fun b hb => by
      rw [rowAt_append_left (by rw [hl]; exact List.mem_range.1 hb)]
  rw [e1, e2]

/-- Where the matrix is not singular, elimination of the system with a right-hand side ends. -/
theorem gaussJordan_augment {mul : Byte → Byte → Byte} (F : FieldLaws mul) (hu : Uniform rhs.length coeffs)
    (h : coeffs.length = rhs.length) (hs : singular mul coeffs = false) :
    ∃ rows, gaussJordan mul rhs.length (augment coeffs rhs) = some rows := by
  have hs' : ∃ r, gaussJordan mul coeffs.length coeffs = some r := by
    cases e : gaussJordan mul coeffs.length coeffs with
    | none => simp [singular, e] at hs
    | some r => exact ⟨r, rfl⟩
  obtain ⟨r, hr⟩ := hs'
  rcases (sameCoeffs_augment hu h).gaussJordan F hu (uniform_augment hu h) (le_refl rhs.length) with
    ⟨h1, -⟩ | ⟨_, b', -, h2, -⟩
  · rw [h, h1] at hr; cases hr
  · exact ⟨b', h2⟩

/-- Where the matrix is not singular, a point solves the system exactly if it is what `Solve` returns. -/
theorem solve_iff {mul : Byte → Byte → Byte} (F : FieldLaws mul) (hu : Uniform rhs.length coeffs)
    (h : coeffs.length = rhs.length) (hs : singular mul coeffs = false) (xs : Nat → Byte) :
    (∀ k, k < rhs.length → dot mul rhs.length (matRow coeffs k) xs = rhs.getD k 0) ↔
      ∀ k, k < rhs.length → (solve mul coeffs rhs).getD k 0 = xs k := by
  obtain ⟨rows, hr⟩ := gaussJordan_augment F hu h hs
  have hal := augment_length h
  obtain ⟨h1, -, h3, h4⟩ := gaussJordan_spec F (uniform_augment hu h) hr
  rw [hal] at h1 h4
  have e : ∀ k, k < rhs.length → (solve mul coeffs rhs).getD k 0 = rowAt (matRow rows k) rhs.length := by
    intro k hk
    simp only [solve, hr]
    simp [List.getD_eq_getElem?_getD, matRow, h1, hk]
  have hrow : ∀ k, k < rhs.length → (rowSat mul rhs.length (matRow rows k) xs ↔
      (solve mul coeffs rhs).getD k 0 = xs k) := fun k hk => by
    rw [rowSat_cleared F h3 (h1 ▸ hk) hk, e k hk, eq_comm]
  constructor
  · intro hall k hk
    exact (hrow k hk).1 ((h4 _ xs).2 (fun k hk => (rowSat_augment hu h hk xs).2 (hall k hk)) k hk)
  · intro hall k hk
    exact (rowSat_augment hu h hk xs).1 ((h4 _ xs).1 (fun k hk => (hrow k hk).2 (hall k hk)) k hk)

/-- `Solve` answers one value for each right-hand side. -/
theorem solve_length {mul : Byte → Byte → Byte} (h : coeffs.length = rhs.length) :
    (solve mul coeffs rhs).length = rhs.length := by
  unfold solve
  split
  · rename_i rows hr
    rw [List.length_map, gaussJordan_length hr, augment_length h]
  · simp

end augment

end Sys2Proof.Machine
end

