-- ==== Sys2Proof/Laws/Cauchy.lean ====
section
/-! SUPPORT. Cauchy matrices: over any field no nonzero point is mapped to zero, with a row of ones before
it or not; and the bytes under the field laws are a field (40_field_tables.md R133, R138, R139). -/

namespace Sys2Proof.Machine

section

open Polynomial

/-- The numerator of `Σ c i / (T - y i)` over the common denominator. -/
noncomputable def cauchyNum {K : Type} [Field K] (n : Nat) (y c : Fin n → K) : K[X] :=
  ∑ i, C (c i) * ∏ j ∈ Finset.univ.erase i, (X - C (y j))

variable {K : Type} [Field K] {n : Nat} {y c : Fin n → K}

theorem cauchyNum_eval (x : K) :
    (cauchyNum n y c).eval x = ∑ i, c i * ∏ j ∈ Finset.univ.erase i, (x - y j) := by
  simp [cauchyNum, eval_finsetSum, eval_prod]

theorem cauchyNum_eval_off {x : K} (hx : ∀ i, x - y i ≠ 0) (h : ∑ i, c i * (x - y i)⁻¹ = 0) :
    (cauchyNum n y c).eval x = 0 := by
  rw [cauchyNum_eval]
  have : ∀ i, c i * ∏ j ∈ Finset.univ.erase i, (x - y j) = (∏ j, (x - y j)) * (c i * (x - y i)⁻¹) := by
    intro i
    rw [← Finset.mul_prod_erase Finset.univ (fun j => x - y j) (Finset.mem_univ i)]
    field_simp [hx i]
  simp only [this, ← Finset.mul_sum, h, mul_zero]

theorem cauchyNum_eval_at (k : Fin n) :
    (cauchyNum n y c).eval (y k) = c k * ∏ j ∈ Finset.univ.erase k, (y k - y j) := by
  rw [cauchyNum_eval, Finset.sum_eq_single k]
  · intro i _ hik
    rw [Finset.prod_eq_zero (i := k) (by simp [hik.symm]) (by simp), mul_zero]
  · simp

theorem cauchyNum_degree (m : Nat) (hm : n ≤ m + 1) (h : n = m + 1 → ∑ i, c i = 0) :
    (cauchyNum n y c).degree < m := by
  have hP : ∀ i : Fin n, (∏ j ∈ Finset.univ.erase i, (X - C (y j))).Monic := fun i =>
    monic_prod_of_monic _ _ fun j _ => monic_X_sub_C _
  have hd : ∀ i : Fin n, (∏ j ∈ Finset.univ.erase i, (X - C (y j))).natDegree = n - 1 := by
    intro i
    rw [natDegree_prod_of_monic _ _ fun j _ => monic_X_sub_C _]
    simp
  rw [degree_lt_iff_coeff_zero]
  intro k hk
  rw [cauchyNum, finsetSum_coeff]
  simp only [coeff_C_mul]
  by_cases hkn : k = n - 1 ∧ n ≠ 0
  · have e : ∀ i : Fin n, (∏ j ∈ Finset.univ.erase i, (X - C (y j))).coeff k = 1 := by
      intro i
      rw [hkn.1, ← hd i]; exact hP i
    simp only [e, mul_one]
    exact h (by omega)
  · refine Finset.sum_eq_zero fun i _ => ?_
    have : n ≠ 0 := fun e => absurd i.isLt (by omega)
    rw [coeff_eq_zero_of_natDegree_lt (by rw [hd i]; omega), mul_zero]

/-- Coefficients `c` whose Cauchy sums vanish at as many points as there are poles, or at one point fewer
where the coefficients also sum to zero, are all zero. -/
theorem cauchy_zero (hy : Function.Injective y) (s : Finset K) (hs : ∀ x ∈ s, ∀ i, x - y i ≠ 0)
    (h : ∀ x ∈ s, ∑ i, c i * (x - y i)⁻¹ = 0)
    (hn : n ≤ s.card ∨ (n ≤ s.card + 1 ∧ ∑ i, c i = 0)) (k : Fin n) : c k = 0 := by
  have hz : cauchyNum n y c = 0 := by
    refine eq_zero_of_degree_lt_of_eval_finset_eq_zero s ?_ fun x hx => cauchyNum_eval_off (hs x hx) (h x hx)
    refine cauchyNum_degree _ ?_ ?_
    · rcases hn with h | h <;> omega
    · intro e; rcases hn with h | h
      · omega
      · exact h.2
  have := cauchyNum_eval_at (y := y) (c := c) k
  rw [hz, eval_zero] at this
  refine (mul_eq_zero.1 this.symm).resolve_right (Finset.prod_ne_zero_iff.2 fun j hj => ?_)
  rw [sub_ne_zero]
  exact fun e => (Finset.ne_of_mem_erase hj) (hy e).symm

end

/-- The bytes as the field whose multiplication is `mul`. -/
def GfOf (_mul : Byte → Byte → Byte) : Type := Byte

def gfAdd (a b : Byte) : Byte := a ^^^ b

def gfInv (mul : Byte → Byte → Byte) (a : Byte) : Byte := if a = 0x00 then 0x00 else ginv mul a

theorem mul_gfInv {mul : Byte → Byte → Byte} (F : FieldLaws mul) {a : Byte} (ha : a ≠ 0x00) :
    mul a (gfInv mul a) = 0x01 := by
  rw [gfInv, if_neg ha]; exact F.mul_ginv ha

/-- Under the field laws it is a field, with exclusive or as the addition (40_field_tables.md R131, R133). -/
@[reducible] def gfField {mul : Byte → Byte → Byte} (F : FieldLaws mul) : Field (GfOf mul) :=
  letI : Zero (GfOf mul) := ⟨(0x00 : Byte)⟩
  letI : One (GfOf mul) := ⟨(0x01 : Byte)⟩
  letI : Add (GfOf mul) := ⟨gfAdd⟩
  letI : Neg (GfOf mul) := ⟨fun a => a⟩
  letI : Mul (GfOf mul) := ⟨mul⟩
  { sub := gfAdd
    inv := gfInv mul
    add_assoc := fun a b c => BitVec.xor_assoc (w := 8) a b c
    zero_add := fun a => BitVec.zero_xor (w := 8)
    add_zero := fun a => BitVec.xor_zero (w := 8)
    add_comm := fun a b => BitVec.xor_comm (w := 8) a b
    neg_add_cancel := fun a => BitVec.xor_self (w := 8)
    sub_eq_add_neg := fun a b => rfl
    mul_assoc := fun a b c => F.assoc a b c
    one_mul := fun a => F.one a
    mul_one := fun a => F.mul_one a
    zero_mul := fun a => F.zero a
    mul_zero := fun a => F.mul_zero a
    left_distrib := fun a b c => F.distrib a b c
    right_distrib := fun a b c => F.distrib_right a b c
    mul_comm := fun a b => F.comm a b
    exists_pair_ne := ⟨(0x00 : Byte), (0x01 : Byte), show (0x00 : Byte) ≠ 0x01 by decide⟩
    mul_inv_cancel := fun a ha => mul_gfInv F ha
    inv_zero := if_pos rfl
    nsmul := nsmulRec
    zsmul := zsmulRec
    nnqsmul := _
    nnqsmul_def := fun _ _ => rfl
    qsmul := _
    qsmul_def := fun _ _ => rfl }


/-- A byte as an element of that field. -/
def toGf (mul : Byte → Byte → Byte) (a : Byte) : GfOf mul := a

/-- `gsum` is the field's sum. -/
theorem gsum_eq_sum {mul : Byte → Byte → Byte} (F : FieldLaws mul) (n : Nat) (f : Nat → Byte) :
    letI := gfField F
    toGf mul (gsum ((List.range n).map f)) = ∑ i : Fin n, toGf mul (f i) := by
  let := gfField F
  rw [Fin.sum_univ_def]
  have : ∀ l : List Nat, toGf mul (gsum (l.map f)) = (l.map fun i => toGf mul (f i)).sum := by
    intro l
    induction l with
    | nil => rfl
    | cons a l ih => rw [List.map_cons, List.map_cons, List.sum_cons, ← ih]; rfl
  rw [this, ← List.map_coe_finRange_eq_range, List.map_map]
  rfl

/-- A square matrix of `1` in its first row, or not, and of inverses `ginv (x ⊕ y)` below it, for distinct
`x` and distinct `y` that never meet, maps no nonzero point to zero. -/
theorem cauchy_kernel {mul : Byte → Byte → Byte} (F : FieldLaws mul) {n : Nat} {y c : Nat → Byte}
    (hy : ∀ i, i < n → ∀ j, j < n → y i = y j → i = j) (xs : List Byte) (hx : xs.Nodup)
    (hxy : ∀ x ∈ xs, ∀ i, i < n → x ≠ y i)
    (h : ∀ x ∈ xs, gsum ((List.range n).map fun i => mul (ginv mul (x ^^^ y i)) (c i)) = 0x00)
    (hn : n ≤ xs.length ∨ (n ≤ xs.length + 1 ∧ gsum ((List.range n).map c) = 0x00)) :
    ∀ i, i < n → c i = 0x00 := by
  let := gfField F
  let : DecidableEq (GfOf mul) := inferInstanceAs (DecidableEq Byte)
  intro k hk
  have hX : (List.toFinset (α := GfOf mul) xs).card = xs.length :=
    List.toFinset_card_of_nodup (α := GfOf mul) hx
  have ne : ∀ x ∈ xs, ∀ i, i < n → x ^^^ y i ≠ 0x00 := fun x hx i hi e => hxy x hx i hi (xor_eq_zero.1 e)
  have term : ∀ x ∈ xs, ∀ i : Fin n,
      toGf mul (c i) * (toGf mul x - toGf mul (y i))⁻¹ = toGf mul (mul (ginv mul (x ^^^ y i)) (c i)) :=
    fun x hx i => (F.comm _ _).trans (congrArg (fun a => mul a (c i)) (if_neg (ne x hx i i.2)))
  refine cauchy_zero (K := GfOf mul) (y := fun i : Fin n => toGf mul (y i))
    (c := fun i : Fin n => toGf mul (c i))
    (fun i j e => Fin.ext (hy i i.2 j j.2 e)) (List.toFinset (α := GfOf mul) xs) ?_ ?_ ?_ ⟨k, hk⟩
  · intro x hx' i e
    exact hxy x (List.mem_toFinset.1 hx') i i.2 (xor_eq_zero.1 e)
  · intro x hx'
    have hx'' : x ∈ xs := List.mem_toFinset.1 hx'
    exact (Finset.sum_congr rfl fun i _ => term x hx'' i).trans ((gsum_eq_sum F n _).symm.trans (h x hx''))
  · rw [hX]
    refine hn.imp_right fun h => ⟨h.1, ?_⟩
    rw [← gsum_eq_sum F n c]
    exact h.2

end Sys2Proof.Machine
end

