-- ==== Sys2Proof/Laws/Issue.lean ====
section
/-! SUPPORT. The issue checks of the block commands in order (60_exceptions.md R254): each lemma gives what
the checks are once the ones before have passed, and which fault a failing check raises. -/

namespace Sys2Proof.Machine

section issue
variable {i : Instr} {s : State} {x : Context} {r : ReadyRegs} {b : BlockArgs} {np nr : Nat}

/-- The checks of a generation command after steps 2 to 4. -/
theorem issueGen_eq {al : Bool} (hr : s.engine = .ready r) (hs : s.serialFor i)
    (hc : 1 ≤ np ∧ np ≤ Config.parityMax) :
    issueGen i al np s x = do
      let nd ← readNd s.par x
      let size ← readSize x
      let vec ← readList (readVec x) (List.range (nd + np))
      let b : BlockArgs := ⟨np, nd, size, vec, []⟩
      checkWrap b
      checkPlaced s.par al b
      checkOverlap b b.parity
      checkRace s (Flight.genOf i b)
      return Flight.genOf i b := by
  unfold issueGen
  rw [checkStart_ok.2 ⟨hr, hs⟩]
  simp only [ok_bind]
  rw [if_neg (by omega)]

/-- The checks of a recovery command after steps 2 to 4. -/
theorem issueRec_eq (hr : s.engine = .ready r) (hs : s.serialFor i)
    (hc : 1 ≤ np ∧ np ≤ Config.parityMax ∧ 1 ≤ nr ∧ nr ≤ np) :
    issueRec i np nr s x = do
      let nd ← readNd s.par x
      let size ← readSize x
      let loss ← readList (readLoss x) (List.range nr)
      ensure (lossValid (nd + np) loss) (.arg .loss)
      let vec ← readList (readVec x) (List.range (nd + np))
      let b : BlockArgs := ⟨np, nd, size, vec, loss⟩
      checkWrap b
      checkPlaced s.par true b
      checkSingular r b
      checkOverlap b b.loss
      checkRace s (Flight.recOf i b)
      return Flight.recOf i b := by
  unfold issueRec
  rw [checkStart_ok.2 ⟨hr, hs⟩]
  simp only [ok_bind]
  rw [if_neg (by omega), if_neg (by omega), decide_eq_true (by omega)]
  rfl

/-- The first check of a block command's registers is that of `ND`. -/
theorem checkOf_readNd {k : ModelFault} (hr : s.engine = .ready r) (hs : s.serialFor i)
    (hc : countsOk i) (h : readNd s.par x = .error k) : checkOf i s x = .error k := by
  cases i with
  | init | setmode | gfmul | gfcoef | selftest => exact hc.elim
  | genref np | gen np => simp only [checkOf]; rw [issueGen_eq hr hs hc, h]; rfl
  | recover np nr => simp only [checkOf]; rw [issueRec_eq hr hs hc, h]; rfl

/-- The second is that of `SIZE`. -/
theorem checkOf_readSize {n : Nat} {k : ModelFault} (hr : s.engine = .ready r) (hs : s.serialFor i)
    (hc : countsOk i) (hn : readNd s.par x = .ok n) (h : readSize x = .error k) :
    checkOf i s x = .error k := by
  cases i with
  | init | setmode | gfmul | gfcoef | selftest => exact hc.elim
  | genref np | gen np => simp only [checkOf]; rw [issueGen_eq hr hs hc, hn, ok_bind, h]; rfl
  | recover np nr => simp only [checkOf]; rw [issueRec_eq hr hs hc, hn, ok_bind, h]; rfl

/-- A list of reads stops at the first register that was never written. -/
theorem readList_first {f : Nat → Except ModelFault Nat} {n k : Nat} {e : ModelFault} (hk : k < n)
    (h : f k = .error e) (hb : ∀ j, j < k → ∃ v, f j = .ok v) :
    readList f (List.range n) = .error e := by
  have key : ∀ (m a : Nat), a ≤ k → k < a + m → readList f (List.range' a m) = .error e := by
    intro m
    induction m with
    | zero => intro a h1 h2; omega
    | succ m ih =>
      intro a h1 h2
      rw [List.range'_succ, readList]
      rcases Nat.eq_or_lt_of_le h1 with rfl | hlt
      · rw [h]; rfl
      · obtain ⟨v, hv⟩ := hb a hlt
        rw [hv, ok_bind, ih (a + 1) hlt (by omega)]; rfl
  rw [List.range_eq_range']
  exact key n 0 (Nat.zero_le _) (by omega)

/-- The checks of a block command whose registers hold its arguments: those on the blocks. -/
theorem checkOf_args (hr : s.engine = .ready r) (hs : s.serialFor i) (h : x.holdsArgs s.par i b) :
    checkOf i s x = do
      checkWrap b
      checkPlaced s.par (constrained i) b
      if hasLoss i then checkSingular r b else .ok ()
      checkOverlap b (destsOf i b)
      checkRace s (recordOf i b)
      return recordOf i b := by
  obtain ⟨hc, hnp, hl, hd, hb, hloss⟩ := h
  obtain ⟨h1, h2, h3⟩ := (holdsBlocks_iff hd).1 hb
  cases i with
  | init | setmode | gfmul | gfcoef | selftest => exact hc.elim
  | genref np | gen np =>
    simp only [countOf] at hnp; subst hnp
    have e : (⟨b.np, b.nd, b.size, b.vec, []⟩ : BlockArgs) = b := by cases b; simp_all [lossCountOf]
    simp only [checkOf]; rw [issueGen_eq hr hs hc]
    simp only [h1, h2, h3, ok_bind, e]; rfl
  | recover np nr =>
    simp only [countOf, lossCountOf] at hnp hl; subst hnp; subst hl
    obtain ⟨g1, g2⟩ := hloss rfl
    simp only [checkOf]; rw [issueRec_eq hr hs hc]
    simp only [h1, h2, h3, ok_bind, holdsLoss_iff.1 g1, g2.2.2, ensure_true]; rfl

theorem countsOk_ne_init (h : countsOk i) : i ≠ .init := by rintro rfl; exact h.elim

theorem checkSingular_error (h : ¬b.solvable r) : checkSingular r b = .error (.singular b.loss) := by
  unfold checkSingular ensure
  rw [if_neg]
  intro h'
  exact h (checkSingular_ok (u := ()) |>.1 (by unfold checkSingular ensure; rw [if_pos h']))

/-- The first block for which a check fails is the one named. -/
theorem ensureAll_range {n k : Nat} {ok : Nat → Bool} {f : Nat → ModelFault} (hk : k < n)
    (h : ok k = false) (hb : ∀ j, j < k → ok j = true) :
    ensureAll (List.range n) ok f = .error (f k) := by
  refine ensureAll_first (List.find?_range_eq_some.2 ⟨by simp [h], by simpa using hk, ?_⟩)
  intro j hj; simp [hb j hj]

/-- The last checks of a block command, once every check on its arguments has passed. -/
theorem checkOf_placed (hr : s.engine = .ready r) (hs : s.serialFor i) (ha : x.holdsArgs s.par i b)
    (hsp : b.inSpace) (hal : constrained i = true → b.aligned s.par)
    (hso : hasLoss i = true → b.solvable r) :
    checkOf i s x = do
      checkOverlap b (destsOf i b)
      checkRace s (recordOf i b)
      return recordOf i b := by
  rw [checkOf_args hr hs ha, (checkWrap_ok (u := ())).2 hsp, ok_bind,
    (checkPlaced_ok (u := ())).2 hal, ok_bind]
  split_ifs with h
  · rw [(checkSingular_ok (u := ())).2 (hso h), ok_bind]
  · rfl

/-- Where some destination overlaps another block, the check names two such blocks. -/
theorem checkOverlap_error {dests : List Nat} (h : ¬b.apart dests) :
    ∃ k k', k ∈ dests ∧ k' < b.nd + b.np ∧ k' ≠ k ∧ (b.span k).meets (b.span k') = true ∧
      checkOverlap b dests = .error (.overlap k k') := by
  unfold checkOverlap
  split
  · rename_i p hp
    obtain ⟨k, hk, he⟩ := List.exists_of_findSome?_eq_some hp
    obtain ⟨k', hk', rfl⟩ := Option.map_eq_some_iff.1 he
    have h1 := List.find?_some hk'
    have h2 := List.mem_of_find?_eq_some hk'
    simp only [Bool.and_eq_true, decide_eq_true_eq] at h1
    exact ⟨k, k', hk, by simpa [BlockArgs.all] using h2, h1.1, h1.2, rfl⟩
  · rename_i hn
    exact absurd (checkOverlap_ok (u := ()) |>.1 (by unfold checkOverlap; rw [hn])) h

/-- Where a record conflicts with one in flight, the check names such a context (20_memory.md R81). -/
theorem checkRace_error {f : Flight} (h : ¬s.raceFreeFor f) :
    ∃ c g, c ≠ s.turn ∧ s.flight? c = some g ∧ f.conflicts g = true ∧
      checkRace s f = .error (.race (.context s.turn) c) := by
  unfold checkRace
  split
  · rename_i p hp
    have h1 := List.find?_some hp
    have h2 := mem_otherFlights.1 (List.mem_of_find?_eq_some hp)
    exact ⟨p.1, p.2, h2.1, h2.2, h1, rfl⟩
  · rename_i hn
    exact absurd (checkRace_ok (u := ()) |>.1 (by unfold checkRace; rw [hn])) h

/-- A command that went into flight with an error status completes with that status and writes nothing
else (60_exceptions.md R254, R255). -/
theorem exec_failed {st : Status} (hi : i ≠ .init) (hx : s.idleTurn x)
    (hb : ∃ np, i = .genref np ∨ i = .gen np ∨ ∃ nr, i = .recover np nr) :
    exec i (s.setCtx s.turn (x.launch (Flight.failedOf i st))) =
      .next (s.setCtx s.turn { x with status := some st.code }) := by
  refine (exec_launched hi hx.1 rfl).trans ?_
  have : completeOf i (s.setCtx s.turn (x.launch (Flight.failedOf i st)))
      (x.launch (Flight.failedOf i st)) (Flight.failedOf i st) =
      .next ((s.setCtx s.turn (x.launch (Flight.failedOf i st))).finish
        (x.launch (Flight.failedOf i st)) st) := by
    rcases hb with ⟨np, rfl | rfl | ⟨nr, rfl⟩⟩ <;> rfl
  rw [this, State.finish_launched, Context.finish_launch _ _ _ hx.2.1 hx.2.2]

end issue

end Sys2Proof.Machine
end

