-- ==== Sys2Proof/Laws/Inv.lean ====
section
/-! SUPPORT. The invariant, update by update: each kind of change a step makes keeps it. -/

namespace Sys2Proof.Machine

/-- The invariant does not look at whose turn it is, at the schedule or at the draws. -/
theorem inv_congr {s t : State} (h : s.Inv) (h1 : t.engine = s.engine) (h2 : t.faults = s.faults)
    (h3 : t.hm = s.hm) (h4 : t.ctxs = s.ctxs) (h5 : t.par = s.par) : t.Inv := by
  have hf : ∀ c, t.flight? c = s.flight? c := fun c => by simp [State.flight?, h4]
  refine ⟨h3 ▸ h.mem, h2 ▸ h.faults, h4 ▸ h.busy, h4 ▸ h.status, ?_, ?_, ?_, h4 ▸ h5 ▸ h.vecs,
    h4 ▸ h5 ▸ h.progs⟩
  · intro c f hc; rw [h1, h5]; exact h.flights c f (by rw [← hf]; exact hc)
  · intro c c' f g hne hc hc'
    exact h.raceFree c c' f g hne (by rw [← hf]; exact hc) (by rw [← hf]; exact hc')
  · intro r hr; rw [h5]; exact h.tables r (h1 ▸ hr)

/-- Raising a fault keeps the invariant. -/
theorem inv_raise {s : State} (h : s.Inv) (src : FaultSource) (k : ModelFault) : (s.raise src k).Inv :=
  ⟨h.mem, addFault_nodup h.faults _, h.busy, h.status, h.flights, h.raceFree, h.tables, h.vecs, h.progs⟩

/-- A write of memory in canonical form keeps the invariant. -/
theorem inv_mem {s : State} (h : s.Inv) {m : List Host.Cell} (hm : memWf m = true) :
    ({ s with hm := m } : State).Inv :=
  ⟨hm, h.faults, h.busy, h.status, h.flights, h.raceFree, h.tables, h.vecs, h.progs⟩

/-- Replacing the registers of a context, its record in flight, `BUSY`, `STATUS` and number of registers kept
and no action added to its program, keeps the invariant. -/
theorem inv_setReg {s : State} (h : s.Inv) {c : Nat} {x y : Context} (hx : s.ctxs[c]? = some x)
    (h1 : y.busy = x.busy) (h2 : y.inflight = x.inflight) (h3 : y.status = x.status)
    (h4 : y.vec.length = x.vec.length) (h5 : ∀ act ∈ y.prog, act ∈ x.prog) : (s.setCtx c y).Inv := by
  have hf := flight_setCtx_same hx h2
  have hget : ∀ (c' : Nat) (z : Context), (s.setCtx c y).ctxs[c']? = some z →
      ∃ z', s.ctxs[c']? = some z' ∧ z.busy = z'.busy ∧ z.inflight = z'.inflight ∧ z.status = z'.status ∧
        z.vec.length = z'.vec.length ∧ ∀ act ∈ z.prog, act ∈ z'.prog := by
    intro c' z hz
    by_cases hc : c' = c
    · subst hc; rw [State.setCtx_get hx] at hz; cases hz; exact ⟨x, hx, h1, h2, h3, h4, h5⟩
    · rw [State.setCtx_get_ne s y hc] at hz; exact ⟨z, hz, rfl, rfl, rfl, rfl, fun _ h => h⟩
  refine ⟨h.mem, h.faults, ?_, ?_, ?_, ?_, h.tables, ?_, ?_⟩
  · intro c' z hz
    obtain ⟨z', hz', e1, e2, -⟩ := hget c' z hz
    rw [e1, e2]; exact h.busy c' z' hz'
  · intro c' z hz v hv
    obtain ⟨z', hz', -, -, e3, -⟩ := hget c' z hz
    exact h.status c' z' hz' v (e3 ▸ hv)
  · intro c' f hc; rw [hf] at hc; exact h.flights c' f hc
  · intro c c' f g hne hc hc'
    rw [hf] at hc hc'
    exact h.raceFree c c' f g hne hc hc'
  · intro c' z hz
    obtain ⟨z', hz', -, -, -, e4, -⟩ := hget c' z hz
    rw [e4]; exact h.vecs c' z' hz'
  · intro c' z hz act hact
    obtain ⟨z', hz', -, -, -, -, e5⟩ := hget c' z hz
    exact h.progs c' z' hz' act (e5 act hact)

/-- Conflict is symmetric (20_memory.md R81). -/
theorem conflicts_comm (f g : Flight) : f.conflicts g = g.conflicts f := by
  rw [Bool.eq_iff_iff, conflicts_iff, conflicts_iff]
  exact exists_congr fun a => by tauto

/-- A record with an empty footprint conflicts with none. -/
theorem conflicts_empty {f : Flight} (h1 : f.rd = []) (h2 : f.wr = []) (g : Flight) :
    f.conflicts g = false := by
  rw [← Bool.not_eq_true, conflicts_iff]
  rintro ⟨a, h⟩
  simp [h1, h2, spansHold] at h

/-- What a command that passes its checks puts in flight: a record its completion expects, in conflict with
none in flight, and serialized. -/
theorem checkOf_sound {i : Instr} {s : State} {x : Context} {f : Flight} (h : checkOf i s x = .ok f) :
    flightSound s.par s.engine f ∧ s.raceFreeFor f ∧ s.serialFor i := by
  cases i with
  | init =>
    simp only [checkOf, bind_ok, pure_eq_ok, Except.ok.injEq, checkSerial_ok] at h
    obtain ⟨-, hs, rfl⟩ := h
    refine ⟨?_, fun c _ g _ => conflicts_empty rfl rfl g, hs⟩
    cases s.engine <;> rfl
  | setmode m =>
    simp only [checkOf, bind_ok, pure_eq_ok, Except.ok.injEq, checkStart_ok, ensure_ok,
      decide_eq_true_eq] at h
    obtain ⟨r, ⟨hr, hs⟩, -, hm, rfl⟩ := h
    rw [hr]
    exact ⟨⟨hm, rfl⟩, fun c _ g _ => conflicts_empty rfl rfl g, hs⟩
  | gfmul a b =>
    simp only [checkOf, bind_ok, pure_eq_ok, Except.ok.injEq, checkStart_ok] at h
    obtain ⟨r, ⟨hr, hs⟩, rfl⟩ := h
    rw [hr]
    exact ⟨rfl, fun c _ g _ => conflicts_empty rfl rfl g, hs⟩
  | gfcoef j d =>
    simp only [checkOf, bind_ok, pure_eq_ok, Except.ok.injEq, checkStart_ok, ensure_ok,
      Bool.and_eq_true, decide_eq_true_eq] at h
    obtain ⟨r, ⟨hr, hs⟩, -, ⟨h1, h2⟩, rfl⟩ := h
    rw [hr]
    exact ⟨⟨h1, h2, rfl⟩, fun c _ g _ => conflicts_empty rfl rfl g, hs⟩
  | genref np =>
    obtain ⟨⟨r, hr⟩, hs, ⟨-, rfl⟩ | ⟨b, h1, h2, hd, hb, hsp, hal, hap, hrf, rfl⟩⟩ := issueGen_ok.1 h
    · rw [hr]; exact ⟨.inl rfl, fun c _ g _ => conflicts_empty rfl rfl g, hs⟩
    · rw [hr]
      exact ⟨.inr ⟨b, BlockArgs.ok_of hd hsp hb.2.2.1 (by simp [h2, lossValid, increasing])
        (by simp [h2]) (Context.holdsBlocks_inRegisters hb (Context.holdsLoss_nil h2)),
        h1, h2, hap, rfl⟩, hrf, hs⟩
  | gen np =>
    obtain ⟨⟨r, hr⟩, hs, ⟨-, rfl⟩ | ⟨b, h1, h2, hd, hb, hsp, hal, hap, hrf, rfl⟩⟩ := issueGen_ok.1 h
    · rw [hr]; exact ⟨.inl rfl, fun c _ g _ => conflicts_empty rfl rfl g, hs⟩
    · rw [hr]
      exact ⟨.inr ⟨b, BlockArgs.ok_of hd hsp hb.2.2.1 (by simp [h2, lossValid, increasing])
        (by simp [h2]) (Context.holdsBlocks_inRegisters hb (Context.holdsLoss_nil h2)),
        h1, h2, hal rfl, hap, rfl⟩, hrf, hs⟩
  | recover np nr =>
    obtain ⟨r, hr, hs, ⟨-, rfl⟩ | ⟨-, -, -, rfl⟩ |
      ⟨b, h1, h2, hd, hl, hb, hlo, hsp, hal, hso, hap, hrf, rfl⟩⟩ := issueRec_ok.1 h
    · rw [hr]; exact ⟨.inl rfl, fun c _ g _ => conflicts_empty rfl rfl g, hs⟩
    · rw [hr]; exact ⟨.inr (.inl rfl), fun c _ g _ => conflicts_empty rfl rfl g, hs⟩
    · rw [hr]
      exact ⟨.inr (.inr ⟨b, BlockArgs.ok_of hd hsp hb.2.2.1 hl.2.2 hl.2.1
        (Context.holdsBlocks_inRegisters hb hlo), h1, h2, hl, hal, hso, hap,
        rfl⟩), hrf, hs⟩
  | selftest =>
    simp only [checkOf, bind_ok, pure_eq_ok, Except.ok.injEq, checkStart_ok] at h
    obtain ⟨r, ⟨hr, hs⟩, rfl⟩ := h
    rw [hr]
    exact ⟨rfl, fun c _ g _ => conflicts_empty rfl rfl g, hs⟩

/-- Putting a command that passed its checks in flight keeps the invariant. -/
theorem inv_launch {i : Instr} {s : State} {x : Context} {f : Flight} (h : s.Inv) (hx : s.idleTurn x)
    (hf : checkOf i s x = .ok f) : (s.setCtx s.turn (x.launch f)).Inv := by
  obtain ⟨h1, h2, h3⟩ := checkOf_sound hf
  have hcmd := checkOf_cmd hf
  have hfl := flight_setCtx hx.1 (x.launch f)
  refine ⟨h.mem, h.faults, ?_, ?_, ?_, ?_, h.tables, ?_, ?_⟩
  · intro c z hz
    by_cases hc : c = s.turn
    · subst hc; rw [State.setCtx_get hx.1] at hz; cases hz; rfl
    · rw [State.setCtx_get_ne s _ hc] at hz; exact h.busy c z hz
  · intro c z hz v hv
    by_cases hc : c = s.turn
    · subst hc; rw [State.setCtx_get hx.1] at hz; cases hz; exact h.status _ x hx.1 v hv
    · rw [State.setCtx_get_ne s _ hc] at hz; exact h.status c z hz v hv
  · intro c g hg
    rw [hfl] at hg
    split_ifs at hg with hc
    · cases hg; exact h1
    · exact h.flights c g hg
  · intro c c' g g' hne hg hg'
    rw [hfl] at hg hg'
    split_ifs at hg hg' with hc hc' hc'
    · exact absurd (hc.trans hc'.symm) hne
    · cases hg; exact ⟨h2 c' hc' g' hg', hcmd ▸ (h3 c' hc' g' hg').1⟩
    · cases hg'
      exact ⟨by rw [conflicts_comm]; exact h2 c hc g hg, (h3 c hc g hg).2⟩
    · exact h.raceFree c c' g g' hne hg hg'
  · intro c z hz
    by_cases hc : c = s.turn
    · subst hc; rw [State.setCtx_get hx.1] at hz; cases hz; exact h.vecs _ x hx.1
    · rw [State.setCtx_get_ne s _ hc] at hz; exact h.vecs c z hz
  · intro c z hz
    by_cases hc : c = s.turn
    · subst hc; rw [State.setCtx_get hx.1] at hz; cases hz; exact h.progs _ x hx.1
    · rw [State.setCtx_get_ne s _ hc] at hz; exact h.progs c z hz

/-- A command in flight that must be alone is alone (20_memory.md R88). -/
theorem alone_of_exclusive {s : State} (h : s.Inv) {c c' : Nat} {f g : Flight} (hf : s.flight? c = some f)
    (he : isExclusive f.cmd = true) (hg : s.flight? c' = some g) : c' = c := by
  by_contra hne
  have := (h.raceFree c c' f g (Ne.symm hne) hf hg).2
  simp [this] at he

/-- A completion leaves the engine as it was (`CAUCHY` is the only mode), or is the first
`INIT`. -/
theorem completed_engine {i : Instr} {s t : State} {x : Context} {f : Flight}
    (hc : Completed i s t x f) :
    t.engine = s.engine ∨ (i = .init ∧ s.engine = .uninit ∧ t.engine = .ready (initRegs s.par)) := by
  rcases hc.engine with he | ⟨rfl, he⟩ | ⟨m, r, rfl, hr, he⟩
  · exact .inl he
  · cases hs : s.engine with
    | uninit => exact .inr ⟨rfl, rfl, by rw [he, hs]; rfl⟩
    | ready r => exact .inl (by rw [he, hs]; rfl)
  · refine .inl ?_
    rw [he, hr]

/-- Every destination of a captured command is one of its blocks. -/
theorem destsOf_lt {par : Params} {i : Instr} {b : BlockArgs} (hb : b.ok par = true) :
    ∀ k ∈ destsOf i b, k < b.nd + b.np := by
  have hl := lossValid_lt (BlockArgs.ok_iff.1 hb).2.2.2.2.2.1
  cases i with
  | genref np | gen np => exact fun k hk => (BlockArgs.mem_parity.1 hk).2
  | recover np nr => exact hl
  | init | setmode | gfmul | gfcoef | selftest => intro k hk; cases hk

/-- A completion keeps the canonical form of memory. -/
theorem completed_mem {i : Instr} {s t : State} {x : Context} {f : Flight} (h : memWf s.hm = true)
    (hc : Completed i s t x f) : memWf t.hm = true := by
  rcases hc.hm with he | ⟨b, out, -, hb, he⟩
  · rw [he]; exact h
  · rw [he]
    exact BlockArgs.write_wf out h fun k hk =>
      (BlockArgs.ok_iff.1 hb).2.2.2.2.1 k (destsOf_lt hb k hk)

/-- The context a completion leaves is idle, with a status code, the same `VEC` registers and program. -/
theorem completed_ctx {i : Instr} {s t : State} {x : Context} {f : Flight}
    (hc : Completed i s t x f) : ∃ z : Context, t.ctxs = s.ctxs.set s.turn z ∧ z.busy = false ∧
      z.inflight = none ∧ (∃ v, z.status = some v ∧ v ∈ statusCodes) ∧ z.vec = x.vec ∧
      z.prog = x.prog := by
  obtain ⟨y, st, hy, he⟩ := hc.context
  refine ⟨y.finish st, he, rfl, rfl, ⟨st.code, rfl, by cases st <;> decide⟩, ?_⟩
  rcases hy with rfl | ⟨v, rfl, -⟩ <;> exact ⟨rfl, rfl⟩

/-- A completion keeps the invariant. -/
theorem inv_complete {i : Instr} {s t : State} {x : Context} {f : Flight} (h : s.Inv)
    (hx : s.ctxs[s.turn]? = some x) (hf : x.inflight = some f) (hi : f.cmd = i)
    (hc : Completed i s t x f) : t.Inv := by
  obtain ⟨z, hz, hb, hn, ⟨v, hv, hm⟩, hvec, hprog⟩ := completed_ctx hc
  have hfl : ∀ c, t.flight? c = if c = s.turn then none else s.flight? c := by
    intro c
    have := flight_setCtx hx z c
    rw [hn] at this
    rw [← this]; simp [State.flight?, hz]
  have hget : ∀ (c : Nat) (y : Context), t.ctxs[c]? = some y → (c = s.turn ∧ y = z) ∨ s.ctxs[c]? = some y := by
    intro c y hy
    have hy' : (s.setCtx s.turn z).ctxs[c]? = some y := by rw [State.setCtx_ctxs, ← hz]; exact hy
    by_cases hct : c = s.turn
    · subst hct; rw [State.setCtx_get hx] at hy'; cases hy'; exact .inl ⟨rfl, rfl⟩
    · rw [State.setCtx_get_ne s z hct] at hy'; exact .inr hy'
  have hsf : s.flight? s.turn = some f := by simp [State.flight?, hx, hf]
  refine ⟨completed_mem h.mem hc, hc.faults ▸ h.faults, ?_, ?_, ?_, ?_, ?_, ?_, ?_⟩
  · intro c y hy
    rcases hget c y hy with ⟨-, rfl⟩ | hy
    · rw [hb, hn]; rfl
    · exact h.busy c y hy
  · intro c y hy w hw
    rcases hget c y hy with ⟨-, rfl⟩ | hy
    · rw [hv] at hw; cases hw; exact hm
    · exact h.status c y hy w hw
  · intro c g hg
    rw [hfl] at hg
    split_ifs at hg with hct
    rcases completed_engine hc with he | ⟨rfl, -, -⟩
    · rw [he, hc.par]; exact h.flights c g hg
    · exact absurd (alone_of_exclusive h hsf (by rw [hi]; rfl) hg) hct
  · intro c c' g g' hne hg hg'
    rw [hfl] at hg hg'
    split_ifs at hg hg'
    exact h.raceFree c c' g g' hne hg hg'
  · intro r hr
    rw [hc.par]
    rcases completed_engine hc with he | ⟨-, -, he⟩
    · exact h.tables r (he ▸ hr)
    · rw [he] at hr; cases hr; rfl
  · intro c y hy
    rw [hc.par]
    rcases hget c y hy with ⟨-, rfl⟩ | hy
    · rw [hvec]; exact h.vecs _ x hx
    · exact h.vecs c y hy
  · intro c y hy
    rw [hc.par]
    rcases hget c y hy with ⟨-, rfl⟩ | hy
    · rw [hprog]; exact h.progs _ x hx
    · exact h.progs c y hy

/-- A command's step that answers a next state keeps the invariant. -/
theorem inv_exec {i : Instr} {s t : State} (h : s.Inv) (he : exec i s = .next t) : t.Inv := by
  rcases exec_cases he with ⟨x, k, -, rfl⟩ | ⟨x, f, hx, hf, rfl⟩ | ⟨x, f, hx, hf, hi, hc⟩
  · exact inv_raise h _ _
  · exact inv_launch h hx hf
  · exact inv_complete h hx hf hi (completeOf_shape hc)

theorem flight_of {s : State} {x : Context} {f : Flight} {c : Nat} (hx : s.ctxs[c]? = some x)
    (hf : x.inflight = some f) : s.flight? c = some f := by
  simp [State.flight?, hx, hf]

theorem of_flight {s : State} {f : Flight} {c : Nat} (h : s.flight? c = some f) :
    ∃ x, s.ctxs[c]? = some x ∧ x.inflight = some f := by
  simpa [State.flight?, Option.bind_eq_some_iff] using h

/-- Choosing whose turn it is keeps the invariant. -/
theorem inv_turn {s s' : State} (h : s.Inv) (hs : s.nextTurn = some s') : s'.Inv :=
  inv_congr h (nextTurn_engine hs) (nextTurn_faults hs) (nextTurn_hm hs) (nextTurn_ctxs hs)
    (nextTurn_par hs)

/-- A host agent's action keeps the invariant. -/
theorem inv_hostStep {s t : State} {x : Context} {act : HostAction} (h : s.Inv) (hx : s.idleTurn x)
    (he : hostStep s x act = .next t) : t.Inv := by
  cases act with
  | wrNd v | wrSize v | wrLoss k v =>
    cases hostRegWrite_next he
    exact inv_setReg h hx.1 rfl rfl rfl rfl fun _ h => h
  | wrVec k v =>
    cases hostRegWrite_next he
    exact inv_setReg h hx.1 rfl rfl rfl (by simp [hostWrite]) fun _ h => h
  | rd q =>
    cases hostRegRead_next he
    unfold hostRegReadState
    split
    · exact inv_raise h _ _
    · exact inv_setReg h hx.1 rfl rfl rfl rfl fun _ h => h
  | cmd w =>
    simp only [hostStep, issueWord] at he
    split at he
    · exact inv_exec h he
    · cases he; exact inv_raise h _ _
  | mw a v =>
    cases he
    unfold hostMemWrite
    split
    · exact inv_raise h _ _
    · exact inv_mem h (memWrite_wf v h.mem a.isLt)
  | mr a =>
    cases he
    unfold hostMemRead
    split
    · exact inv_raise h _ _
    · exact inv_setReg h hx.1 rfl rfl rfl rfl fun _ h => h

/-- The completion of a record an issue makes answers a next state. -/
theorem completeOf_answers {s : State} {x : Context} {f : Flight} (hs : flightSound s.par s.engine f)
    (ht : ∀ r, s.engine = .ready r → r.genT = s.par.gen) :
    ∃ t, completeOf f.cmd s x f = .next t := by
  cases he : s.engine with
  | uninit =>
    rw [he] at hs
    simp only [flightSound] at hs
    subst hs; exact ⟨_, rfl⟩
  | ready r =>
    rw [he] at hs
    obtain ⟨i, args, rd, wr⟩ := f
    simp only [flightSound, readyFlightSound] at hs
    cases i with
    | init => exact ⟨_, rfl⟩
    | setmode | gfmul | selftest => simp only [completeOf, withTables_ready he]; exact ⟨_, rfl⟩
    | gfcoef j d =>
      simp only [completeOf, withTables_ready he]
      obtain ⟨h1, h2, -⟩ := hs
      obtain ⟨v, hv⟩ := coefAt?_some (t := r.genT) h1 (by rw [ht r he]; exact h2)
      rw [hv]; exact ⟨_, rfl⟩
    | genref np =>
      rcases hs with e | ⟨b, hb, -, -, -, e⟩
      · cases e; exact ⟨_, rfl⟩
      · cases e
        simp only [completeOf, completeGen, hb, if_true, withTables_ready he]; exact ⟨_, rfl⟩
    | gen np =>
      rcases hs with e | ⟨b, hb, -, -, -, -, e⟩
      · cases e; exact ⟨_, rfl⟩
      · cases e
        simp only [completeOf, completeGen, hb, if_true, withTables_ready he]; exact ⟨_, rfl⟩
    | recover np nr =>
      rcases hs with e | e | ⟨b, hb, -, -, -, -, -, -, e⟩
      · cases e; exact ⟨_, rfl⟩
      · cases e; exact ⟨_, rfl⟩
      · cases e
        simp only [completeOf, completeRec, hb, if_true, withTables_ready he]; exact ⟨_, rfl⟩

/-- What the footprint of a sound record with captured arguments is. -/
theorem sound_wr {par : Params} {e : Engine} {f : Flight} {b : BlockArgs} (hs : flightSound par e f)
    (hb : f.args = .blocks b) : f.wr = (destsOf f.cmd b).map b.span := by
  cases e with
  | uninit => simp only [flightSound] at hs; subst hs; cases hb
  | ready r =>
    obtain ⟨i, args, rd, wr⟩ := f
    simp only [flightSound, readyFlightSound] at hs
    simp only at hb; subst hb
    cases i with
    | init | gfmul | selftest => cases hs
    | setmode => obtain ⟨-, h⟩ := hs; cases h
    | gfcoef => obtain ⟨-, -, h⟩ := hs; cases h
    | genref np =>
      rcases hs with e | ⟨b, -, -, -, -, e⟩ <;> cases e
      rfl
    | gen np =>
      rcases hs with e | ⟨b, -, -, -, -, -, e⟩ <;> cases e
      rfl
    | recover np nr =>
      rcases hs with e | e | ⟨b, -, -, -, -, -, -, -, e⟩ <;> cases e
      rfl

/-- A completion changes a byte only inside the footprint of its record (20_memory.md R75, R79). -/
theorem completed_read {i : Instr} {s t : State} {x : Context} {f : Flight} {a : Nat}
    (hm : memWf s.hm = true) (hs : flightSound s.par s.engine f) (hi : f.cmd = i) (hc : Completed i s t x f)
    (ha : spansHold f.wr a = false) : memRead t.hm a = memRead s.hm a := by
  rcases hc.hm with he | ⟨b, out, hb, hok, he⟩
  · rw [he]
  · rw [he]
    refine BlockArgs.read_write_outside out hm (fun k hk => (BlockArgs.ok_iff.1 hok).2.2.2.2.1 k
      (destsOf_lt hok k hk)) fun k hk h => ?_
    rw [sound_wr hs hb, hi] at ha
    have := spansHold_blocks.2 ⟨k, hk, h⟩
    rw [ha] at this; cases this

/-! ## What a step leaves alone -/

/-- A command's step leaves the number of contexts, the arguments of the model, every fault record and every
other context. -/
theorem exec_frame {i : Instr} {s t : State} (h : exec i s = .next t) :
    t.ctxs.length = s.ctxs.length ∧ t.par = s.par ∧ (∀ q ∈ s.faults, q ∈ t.faults) ∧
      ∀ c, c ≠ s.turn → t.ctxs[c]? = s.ctxs[c]? := by
  rcases exec_cases h with ⟨x, k, -, rfl⟩ | ⟨x, f, hx, hf, rfl⟩ | ⟨x, f, hx, hf, hi, hc⟩
  · exact ⟨rfl, rfl, fun q hq => mem_addFault.2 (.inl hq), fun _ _ => rfl⟩
  · exact ⟨by simp, rfl, fun q hq => hq, fun c hc => State.setCtx_get_ne s _ hc⟩
  · have hc := completeOf_shape hc
    obtain ⟨z, hz, -⟩ := completed_ctx hc
    exact ⟨by simp [hz], hc.par, fun q hq => hc.faults ▸ hq,
      fun c hct => by rw [hz]; exact State.setCtx_get_ne s z hct⟩

/-- So does a host agent's action. -/
theorem hostStep_frame {s t : State} {x : Context} {act : HostAction}
    (he : hostStep s x act = .next t) :
    t.ctxs.length = s.ctxs.length ∧ t.par = s.par ∧ (∀ q ∈ s.faults, q ∈ t.faults) ∧
      ∀ c, c ≠ s.turn → t.ctxs[c]? = s.ctxs[c]? := by
  have hset : ∀ y, (s.setCtx s.turn y).ctxs.length = s.ctxs.length ∧ (s.setCtx s.turn y).par = s.par ∧
      (∀ q ∈ s.faults, q ∈ (s.setCtx s.turn y).faults) ∧
      ∀ c, c ≠ s.turn → (s.setCtx s.turn y).ctxs[c]? = s.ctxs[c]? := fun y =>
    ⟨by simp, rfl, fun q hq => hq, fun c hc => State.setCtx_get_ne s _ hc⟩
  have hraise : ∀ src k, (s.raise src k).ctxs.length = s.ctxs.length ∧ (s.raise src k).par = s.par ∧
      (∀ q ∈ s.faults, q ∈ (s.raise src k).faults) ∧
      ∀ c, c ≠ s.turn → (s.raise src k).ctxs[c]? = s.ctxs[c]? := fun src k =>
    ⟨rfl, rfl, fun q hq => mem_addFault.2 (.inl hq), fun _ _ => rfl⟩
  cases act with
  | wrNd v | wrSize v | wrVec k v | wrLoss k v => cases hostRegWrite_next he; exact hset _
  | rd q =>
    cases hostRegRead_next he
    unfold hostRegReadState
    split
    · exact hraise _ _
    · exact hset _
  | cmd w =>
    simp only [hostStep, issueWord] at he
    split at he
    · exact exec_frame he
    · cases he; exact hraise _ _
  | mw a v =>
    cases he
    unfold hostMemWrite
    split
    · exact hraise _ _
    · exact ⟨rfl, rfl, fun q hq => hq, fun _ _ => rfl⟩
  | mr a =>
    cases he
    unfold hostMemRead
    split
    · exact hraise _ _
    · exact hset _

/-- A command's step changes memory only by completing. -/
theorem exec_hm {i : Instr} {s t : State} (h : exec i s = .next t) :
    t.hm = s.hm ∨ ∃ x f, s.ctxs[s.turn]? = some x ∧ x.inflight = some f ∧ f.cmd = i ∧
      Completed i s t x f := by
  rcases exec_cases h with ⟨x, k, -, rfl⟩ | ⟨x, f, hx, hf, rfl⟩ | ⟨x, f, hx, hf, hi, hc⟩
  · exact .inl rfl
  · exact .inl rfl
  · exact .inr ⟨x, f, hx, hf, hi, completeOf_shape hc⟩

/-- A host agent's action changes memory only where it writes a byte that no command in flight uses
(20_memory.md R82). -/
theorem hostStep_hm {s t : State} {x : Context} {act : HostAction} (hx : s.idleTurn x)
    (he : hostStep s x act = .next t) :
    t.hm = s.hm ∨ ∃ a v, act = .mw a v ∧ t.hm = memWrite s.hm a.toNat v ∧
      ∀ c f, s.flight? c = some f →
        spansHold f.rd a.toNat = false ∧ spansHold f.wr a.toNat = false := by
  cases act with
  | wrNd v | wrSize v | wrVec k v | wrLoss k v => cases hostRegWrite_next he; exact .inl rfl
  | rd q => cases hostRegRead_next he; unfold hostRegReadState; split <;> exact .inl rfl
  | cmd w =>
    simp only [hostStep, issueWord] at he
    split at he
    · rcases exec_hm he with h | ⟨y, f, hy, hf, -⟩
      · exact .inl h
      · rw [hx.1] at hy; cases hy; rw [hx.2.2] at hf; cases hf
    · cases he; exact .inl rfl
  | mw a v =>
    cases he
    unfold hostMemWrite
    split
    · exact .inl rfl
    · rename_i hn
      refine .inr ⟨a, v, rfl, rfl, fun c f hf => ?_⟩
      have := flightWhere_none.1 hn c f hf
      rw [spansHold_append, Bool.or_eq_false_iff] at this
      exact this
  | mr a => cases he; unfold hostMemRead; split <;> exact .inl rfl

end Sys2Proof.Machine
end

