-- ==== Sys2Proof/Laws/Recover.lean ====
section
/-! SUPPORT. Recovery (43_recovery.md R200 to R206): the partition of a valid loss set, and what `RefRec`
gives when the surviving blocks hold some data and its reference parity. -/

namespace Sys2Proof.Machine

section partition
variable {nd np d j : Nat} {loss : List Nat}

theorem mem_lostData : d ∈ lostData nd loss ↔ d ∈ loss ∧ d < nd := by simp [lostData]

theorem mem_lostParity : j ∈ lostParity nd loss ↔ nd + j ∈ loss := by
  simp only [lostParity, List.mem_map, List.mem_filter, decide_eq_true_eq]
  constructor
  · rintro ⟨k, ⟨h1, h2⟩, rfl⟩; rwa [show nd + (k - nd) = k by omega]
  · intro h; exact ⟨nd + j, ⟨h, by omega⟩, by omega⟩

theorem loss_nodup {n : Nat} (h : lossValid n loss = true) : loss.Nodup := by
  simp only [lossValid, Bool.and_eq_true] at h
  exact (increasing_pairwise h.1).imp fun hlt => Nat.ne_of_lt hlt

theorem lostData_nodup {n : Nat} (h : lossValid n loss = true) : (lostData nd loss).Nodup :=
  (loss_nodup h).filter _

theorem lostParity_nodup {n : Nat} (h : lossValid n loss = true) : (lostParity nd loss).Nodup := by
  unfold lostParity
  refine List.Nodup.map_on ?_ ((loss_nodup h).filter _)
  intro a ha b hb e
  simp only [List.mem_filter, decide_eq_true_eq] at ha hb
  omega

theorem lost_length : (lostData nd loss).length + (lostParity nd loss).length = loss.length := by
  unfold lostData lostParity
  rw [List.length_map]
  induction loss with
  | nil => rfl
  | cons a l ih =>
    by_cases h : a < nd
    · rw [List.filter_cons_of_pos (by simpa using h), List.filter_cons_of_neg (by simpa using h)]
      simp only [List.length_cons]; omega
    · rw [List.filter_cons_of_neg (by simpa using h), List.filter_cons_of_pos (by simpa using h)]
      simp only [List.length_cons]; omega

theorem mem_solveRows (h : j ∈ solveRows nd np loss) : j < np ∧ nd + j ∉ loss := by
  have := List.mem_of_mem_take h
  simp only [List.mem_filter, List.mem_range, Bool.not_eq_true', List.contains_eq_mem,
    decide_eq_false_iff_not, mem_lostParity] at this
  exact this

/-- There are enough surviving parity rows for the lost data (43_recovery.md R202). -/
theorem solveRows_length (hv : lossValid (nd + np) loss = true) (hn : loss.length ≤ np) :
    (solveRows nd np loss).length = lostCount nd loss := by
  unfold solveRows
  rw [List.length_take]
  have hP : (lostParity nd loss).toFinset ⊆ Finset.range np := by
    intro j hj
    have := lossValid_lt hv _ (mem_lostParity.1 (List.mem_toFinset.1 hj))
    exact Finset.mem_range.2 (by omega)
  have hc : ((List.range np).filter fun j => !(lostParity nd loss).contains j).length =
      np - (lostParity nd loss).length := by
    have e : ((List.range np).filter fun j => !(lostParity nd loss).contains j).toFinset =
        Finset.range np \ (lostParity nd loss).toFinset := by
      ext j; simp
    rw [← List.toFinset_card_of_nodup (List.nodup_range.filter _), e, Finset.card_sdiff_of_subset hP,
      Finset.card_range, List.toFinset_card_of_nodup (lostParity_nodup hv)]
  have := lost_length (nd := nd) (loss := loss)
  rw [hc]; unfold lostCount; omega

theorem submatrix_length (r : ReadyRegs) : (submatrix r nd np loss).length = (solveRows nd np loss).length := by
  simp [submatrix]

theorem submatrix_uniform (r : ReadyRegs) : Uniform (lostCount nd loss) (submatrix r nd np loss) := by
  intro row h
  obtain ⟨j, -, rfl⟩ := List.mem_map.1 h
  simp [lostCount]

end partition

section refRec
variable {r : ReadyRegs} {nd np : Nat} {loss : List Nat} {blk : Nat → Nat → Byte} {i d : Nat}

theorem lookup_zip_none {l : List Nat} {l' : List Byte} (h : d ∉ l) : (l.zip l').lookup d = none := by
  induction l generalizing l' with
  | nil => rfl
  | cons a l ih =>
    cases l' with
    | nil => rfl
    | cons b l' =>
      have hne : (d == a) = false := by simpa using fun e : d = a => h (by simp [e])
      rw [List.zip_cons_cons, List.lookup_cons, hne]
      exact ih fun hd => h (by simp [hd])

theorem lookup_zip_getElem {l : List Nat} {l' : List Byte} (hn : l.Nodup) (hl : l.length = l'.length)
    {b : Nat} (hb : b < l.length) : (l.zip l').lookup l[b] = some (l'.getD b 0) := by
  induction l generalizing l' b with
  | nil => simp at hb
  | cons a l ih =>
    cases l' with
    | nil => simp at hl
    | cons c l' =>
      cases b with
      | zero => simp
      | succ b =>
        simp only [List.length_cons, Nat.add_lt_add_iff_right] at hb
        have hne : (l[b] == a) = false := by
          simpa using fun e : l[b] = a => (List.nodup_cons.1 hn).1 (e ▸ List.getElem_mem hb)
        rw [List.zip_cons_cons, List.getElem_cons_succ, List.lookup_cons, hne]
        simpa using ih (List.nodup_cons.1 hn).2 (by simpa using hl) hb

/-- There is one solved byte for each lost data block. -/
theorem lostBytes_length (hv : lossValid (nd + np) loss = true) (hn : loss.length ≤ np) :
    (lostBytes r nd np loss blk i).length = (lostData nd loss).length := by
  unfold lostBytes
  rw [solve_length (by simp [submatrix]), List.length_map]
  exact solveRows_length hv hn

/-- A lost data block is as solved. -/
theorem restored_lost (hv : lossValid (nd + np) loss = true) (hn : loss.length ≤ np) {b : Nat}
    (hb : b < (lostData nd loss).length) :
    restored r nd np loss blk i (lostData nd loss)[b] = (lostBytes r nd np loss blk i).getD b 0 := by
  unfold restored
  rw [lookup_zip_getElem (lostData_nodup hv) (lostBytes_length hv hn).symm hb, Option.getD_some]

/-- A data block that is not lost is as it stands. -/
theorem restored_kept (h : d ∉ lostData nd loss) : restored r nd np loss blk i d = blk d i := by
  simp [restored, lookup_zip_none h]

/-- The syndrome of a surviving parity row is the part of the parity that the lost data makes
(43_recovery.md R203). -/
theorem syndrome_eq {data : Nat → Nat → Byte} {j : Nat}
    (hd : ∀ d, d < nd → d ∉ loss → blk d i = data d i)
    (hp : blk (nd + j) i = refGen r nd data j i) (hv : (lostData nd loss).Nodup) :
    syndrome r nd loss blk i j =
      gsum ((lostData nd loss).map fun d => r.gmul (data d i) (r.coef j d)) := by
  have e1 : gsum (((List.range nd).filter fun d => !(lostData nd loss).contains d).map fun d =>
      r.gmul (blk d i) (r.coef j d)) =
      gsum (((List.range nd).filter fun d => !(lostData nd loss).contains d).map fun d =>
        r.gmul (data d i) (r.coef j d)) := gsum_map_congr fun d h => by
    simp only [List.mem_filter, List.mem_range, Bool.not_eq_true', List.contains_eq_mem,
      decide_eq_false_iff_not, mem_lostData, not_and] at h
    rw [hd d h.1 fun hl => h.2 hl h.1]
  have e2 : gsum (((List.range nd).filter fun d => (lostData nd loss).contains d).map fun d =>
      r.gmul (data d i) (r.coef j d)) =
      gsum ((lostData nd loss).map fun d => r.gmul (data d i) (r.coef j d)) := by
    refine List.Perm.foldr_eq (f := fun x y : Byte => x ^^^ y) (lcomm := ⟨fun a b c => ?_⟩) (List.Perm.map _ ?_) 0
    · rw [← BitVec.xor_assoc, BitVec.xor_comm a b, BitVec.xor_assoc]
    · refine (List.perm_ext_iff_of_nodup (List.nodup_range.filter _) hv).2 fun d => ?_
      simp only [List.mem_filter, List.mem_range, List.contains_eq_mem, decide_eq_true_eq]
      exact ⟨fun h => h.2, fun h => ⟨(mem_lostData.1 h).2, h⟩⟩
  unfold syndrome
  rw [hp, e1, refGen, gsum_filter (List.range nd) _ fun d => (lostData nd loss).contains d, e2,
    BitVec.xor_assoc, BitVec.xor_self]
  exact BitVec.xor_zero

/-- Where the surviving blocks hold data and its reference parity, every data block is restored
(43_recovery.md R205, R206). -/
theorem restored_eq (F : FieldLaws (mulAt r.mul)) {data : Nat → Nat → Byte}
    (hv : lossValid (nd + np) loss = true) (hn : loss.length ≤ np)
    (hs : lostCount nd loss = 0 ∨ singular r.gmul (submatrix r nd np loss) = false)
    (hd : ∀ d, d < nd → d ∉ loss → blk d i = data d i)
    (hp : ∀ j, j < np → nd + j ∉ loss → blk (nd + j) i = refGen r nd data j i) {d : Nat} (hdn : d < nd) :
    restored r nd np loss blk i d = data d i := by
  by_cases hm : d ∈ lostData nd loss
  · have F' : FieldLaws r.gmul := F
    have hlen := solveRows_length hv hn
    obtain ⟨b, hb, rfl⟩ := List.mem_iff_getElem.1 hm
    have hs' : singular r.gmul (submatrix r nd np loss) = false := by
      rcases hs with h | h
      · have : lostCount nd loss = (lostData nd loss).length := rfl
        omega
      · exact h
    let rhs := (solveRows nd np loss).map (syndrome r nd loss blk i)
    have hrl : rhs.length = lostCount nd loss := by simp [rhs, hlen]
    have hml : (submatrix r nd np loss).length = rhs.length := by rw [submatrix_length, hlen, hrl]
    have hu : Uniform rhs.length (submatrix r nd np loss) := by rw [hrl]; exact submatrix_uniform r
    have hsol := (solve_iff F' hu hml hs' fun b => data ((lostData nd loss).getD b 0) i).1 ?_
    · have hbl : b < rhs.length := by rw [hrl]; exact hb
      rw [restored_lost hv hn hb]
      refine (hsol b hbl).trans ?_
      simp [List.getD_eq_getElem?_getD, hb]
    · intro k hk
      have hk' : k < (solveRows nd np loss).length := by rw [hlen, ← hrl]; exact hk
      obtain ⟨h1, h2⟩ := mem_solveRows (List.getElem_mem hk')
      have er : rhs.getD k 0 = syndrome r nd loss blk i (solveRows nd np loss)[k] := by
        simp [rhs, List.getD_eq_getElem?_getD, hk']
      have em : matRow (submatrix r nd np loss) k =
          (lostData nd loss).map fun d => r.coef (solveRows nd np loss)[k] d := by
        simp [matRow, submatrix, List.getD_eq_getElem?_getD, hk']
      rw [er, em, syndrome_eq hd (hp _ h1 h2) (lostData_nodup hv), hrl]
      unfold dot lostCount
      congr 1
      refine List.ext_getElem (by simp) fun b hb _ => ?_
      have hb' : b < (lostData nd loss).length := by simpa using hb
      simp only [List.getElem_map, List.getElem_range, rowAt, List.getD_eq_getElem?_getD,
        List.getElem?_map, List.getElem?_eq_getElem hb', Option.map_some, Option.getD_some]
      exact F'.comm _ _
  · rw [restored_kept hm]
    exact hd d hdn fun h => hm (mem_lostData.2 ⟨h, hdn⟩)

/-- `RefRec` looks at no lost block (20_memory.md R78, R79). -/
theorem refRec_congr {blk' : Nat → Nat → Byte} (hv : lossValid (nd + np) loss = true)
    (hn : loss.length ≤ np) (h : ∀ k, k < nd + np → k ∉ loss → blk k i = blk' k i) (k : Nat) :
    refRec r nd np loss blk k i = refRec r nd np loss blk' k i := by
  have hsyn : ∀ j, j ∈ solveRows nd np loss →
      syndrome r nd loss blk i j = syndrome r nd loss blk' i j := by
    intro j hj
    obtain ⟨h1, h2⟩ := mem_solveRows hj
    unfold syndrome
    rw [h _ (by omega) h2]
    congr 1
    refine gsum_map_congr fun d hd => ?_
    simp only [List.mem_filter, List.mem_range, Bool.not_eq_true', List.contains_eq_mem,
      decide_eq_false_iff_not, mem_lostData, not_and] at hd
    rw [h d (by omega) fun hl => hd.2 hl hd.1]
  have hlost : lostBytes r nd np loss blk i = lostBytes r nd np loss blk' i := by
    unfold lostBytes; rw [List.map_congr_left hsyn]
  have hres : ∀ d, d < nd → restored r nd np loss blk i d = restored r nd np loss blk' i d := by
    intro d hd
    by_cases hm : d ∈ lostData nd loss
    · obtain ⟨b, hb, rfl⟩ := List.mem_iff_getElem.1 hm
      rw [restored_lost hv hn hb, restored_lost hv hn hb, hlost]
    · rw [restored_kept hm, restored_kept hm]
      exact h d (by omega) fun hl => hm (mem_lostData.2 ⟨hl, hd⟩)
  unfold refRec
  split_ifs with hkd
  · exact hres k hkd
  · exact gsum_map_congr fun d hd => by simp only; rw [hres d (List.mem_range.1 hd)]

/-- A recovery kernel looks at no lost block (20_memory.md R78, R79). -/
theorem kernelRec_congr {blk' : Nat → Nat → Byte} {size : Nat} (hv : lossValid (nd + np) loss = true)
    (hn : loss.length ≤ np)
    (h : ∀ k, k < nd + np → k ∉ loss → ∀ i, i < size → blk k i = blk' k i) (k : Nat) (hi : i < size) :
    kernelRec r nd np size loss blk k i = kernelRec r nd np size loss blk' k i := by
  unfold kernelRec
  split_ifs
  · exact refRec_congr hv hn (fun k h1 h2 => h k h1 h2 i hi) k
  · have : survivorList (nd + np) size loss blk = survivorList (nd + np) size loss blk' := by
      refine List.map_congr_left fun k hk => ?_
      split_ifs with hl
      · rfl
      · exact List.map_congr_left fun i hi => h k (List.mem_range.1 hk) (by simpa using hl) i
          (List.mem_range.1 hi)
    rw [this]

/-- A generation kernel looks at data bytes inside the blocks only. -/
theorem kernelGen_congr {data data' : Nat → Nat → Byte} {v j size : Nat}
    (h : ∀ d, d < nd → ∀ i, i < size → data d i = data' d i) (hi : i < size) :
    kernelGen r v nd np size data j i = kernelGen r v nd np size data' j i := by
  unfold kernelGen
  split_ifs
  · exact gsum_map_congr fun d hd => by rw [h d (List.mem_range.1 hd) i hi]
  · have : blockList nd size data = blockList nd size data' :=
      List.map_congr_left fun d hd => List.map_congr_left fun i hi =>
        h d (List.mem_range.1 hd) i (List.mem_range.1 hi)
    rw [this]

end refRec

end Sys2Proof.Machine
end

