-- ==== Sys2Proof/Laws/Footprint.lean ====
section
/-! SUPPORT. A completion depends on memory only through its footprint (20_memory.md R75, R79): what it
leaves in its context does not depend on memory at all, and what it writes depends only on the bytes it
reads. -/

namespace Sys2Proof.Machine

/-- What a completion in `READY` does, as a function of the memory, the context and the draws: `mem` for
memory, `reg` for the context. -/
structure Effect (par : Params) (r : ReadyRegs) (f : Flight) where
  mem : List Host.Cell → List Host.Cell
  reg : Nat → Context → Context
  /-- The completion is this effect. -/
  run : ∀ (s : State) (x : Context), s.par = par → s.engine = .ready r → completeOf f.cmd s x f =
    .next { s.setCtx s.turn (reg s.draws x) with
      hm := mem s.hm, draws := if f.cmd = .selftest then s.draws + 1 else s.draws }
  /-- Only `SELFTEST` looks at the draws. -/
  draws : ∀ d d' x, f.cmd ≠ .selftest → reg d x = reg d' x
  wf : ∀ m, memWf m = true → memWf (mem m) = true
  /-- Bytes outside the footprint's writes stay. -/
  outside : ∀ m a, memWf m = true → spansHold f.wr a = false → memRead (mem m) a = memRead m a
  /-- Bytes written depend only on the bytes the footprint reads. -/
  inside : ∀ m m' a, memWf m = true → memWf m' = true →
    (∀ a, spansHold f.rd a = true → memRead m a = memRead m' a) → spansHold f.wr a = true →
    memRead (mem m) a = memRead (mem m') a

/-- A completion that writes no memory. -/
def Effect.ofReg {par : Params} {r : ReadyRegs} {f : Flight} (reg : Nat → Context → Context)
    (hw : f.wr = [])
    (run : ∀ (s : State) (x : Context), s.par = par → s.engine = .ready r → completeOf f.cmd s x f =
      .next { s.setCtx s.turn (reg s.draws x) with
        draws := if f.cmd = .selftest then s.draws + 1 else s.draws })
    (draws : ∀ d d' x, f.cmd ≠ .selftest → reg d x = reg d' x) : Effect par r f where
  mem := id
  reg := reg
  run := run
  draws := draws
  wf := fun _ h => h
  outside := fun _ _ _ _ => rfl
  inside := fun _ _ a _ _ _ h => by simp [hw, spansHold] at h

/-- A completion that writes the blocks `ks` of its captured arguments. -/
def Effect.ofBlocks {par : Params} {r : ReadyRegs} {f : Flight} {b : BlockArgs} {ks : List Nat}
    (out : List Host.Cell → Nat → Nat → Byte) (hsp : b.inSpace) (hk : ∀ k ∈ ks, k < b.nd + b.np)
    (hap : b.apart ks) (hw : f.wr = ks.map b.span) (hne : f.cmd ≠ .selftest)
    (run : ∀ (s : State) (x : Context), s.par = par → s.engine = .ready r → completeOf f.cmd s x f =
      .next { s.setCtx s.turn (x.finish .ok) with hm := b.write s.hm ks (out s.hm) })
    (reads : ∀ m m', (∀ a, spansHold f.rd a = true → memRead m a = memRead m' a) →
      ∀ k ∈ ks, ∀ i, i < b.size → out m k i = out m' k i) : Effect par r f where
  mem := fun m => b.write m ks (out m)
  reg := fun _ x => x.finish .ok
  run := fun s x hp h => by rw [run s x hp h, if_neg hne]; rfl
  draws := fun _ _ _ _ => rfl
  wf := fun m h => BlockArgs.write_wf _ h fun k h => hsp k (hk k h)
  outside := fun m a hm ha => by
    refine (BlockArgs.write_spec hm hsp hk hap).2 a fun k hkm h => ?_
    rw [hw] at ha
    have := spansHold_blocks.2 ⟨k, hkm, h⟩
    rw [ha] at this; cases this
  inside := fun m m' a hm hm' hr ha => by
    rw [hw, spansHold_blocks] at ha
    obtain ⟨k, hkm, h1, h2⟩ := ha
    have e : a = b.addr k + (a - b.addr k) := by omega
    have hi : a - b.addr k < b.size := by omega
    rw [e, (BlockArgs.write_spec hm hsp hk hap).1 k hkm _ hi,
      (BlockArgs.write_spec hm' hsp hk hap).1 k hkm _ hi]
    exact reads m m' hr k hkm _ hi

/-- The byte of a block the footprint reads. -/
theorem read_of_block {b : BlockArgs} {ks : List Nat} {f : Flight} {m m' : List Host.Cell}
    (hr : f.rd = ks.map b.span) (h : ∀ a, spansHold f.rd a = true → memRead m a = memRead m' a) {k i : Nat}
    (hk : k ∈ ks) (hi : i < b.size) : b.byte m k i = b.byte m' k i :=
  h _ (by rw [hr]; exact spansHold_blocks.2 ⟨k, hk, by omega, by omega⟩)

/-- Every command in flight in `READY` that need not be alone has such an effect. -/
theorem effect_of_sound {par : Params} {r : ReadyRegs} {f : Flight} (hs : readyFlightSound par r f)
    (hg : r.genT = par.gen) (he : isExclusive f.cmd = false) : Nonempty (Effect par r f) := by
  obtain ⟨i, args, rd, wr⟩ := f
  simp only [readyFlightSound] at hs
  cases i with
  | init => cases he
  | setmode => cases he
  | gfmul a b =>
    cases hs
    exact ⟨.ofReg (fun _ x => (x.setResult (mulAt r.mul a b)).finish .ok) rfl
      (fun s x _ h => by simp only [completeOf, withTables_ready h]; rfl)
      fun _ _ _ _ => rfl⟩
  | gfcoef j d =>
    obtain ⟨h1, h2, e⟩ := hs
    cases e
    obtain ⟨v, e⟩ := coefAt?_some (t := r.genT) h1 (by rw [hg]; exact h2)
    refine ⟨.ofReg (fun _ x => (x.setResult v).finish .ok) rfl (fun s x _ h => ?_) fun _ _ _ _ => rfl⟩
    simp only [completeOf, withTables_ready h, e]
    rfl
  | selftest =>
    cases hs
    exact ⟨.ofReg (fun d x => x.finish (selftestStatus par r (Config.allocDraw d))) rfl
      (fun s x hp h => by simp only [completeOf, withTables_ready h, hp]; rfl)
      fun _ _ _ h => absurd rfl h⟩
  | genref np =>
    rcases hs with e | ⟨b, hb, -, -, hap, e⟩
    · cases e
      exact ⟨.ofReg (fun _ x => x.finish .invalidParityCount) rfl (fun s x _ h => rfl) fun _ _ _ _ => rfl⟩
    · cases e
      have hk := BlockArgs.ok_iff.1 hb
      refine ⟨.ofBlocks (b := b) (ks := b.parity) (fun m k i => refGen r b.nd (b.byte m) (k - b.nd) i)
        hk.2.2.2.2.1 (fun k hk => (BlockArgs.mem_parity.1 hk).2) hap rfl (by simp)
        (fun s x hp h => completeGen_blocks (i := .genref np)
          (kernel := fun r b data => refGen r b.nd data) h (hp ▸ hb)) fun m m' h k _ i hi => ?_⟩
      exact gsum_map_congr fun d hd => by
        rw [read_of_block (ks := b.data) rfl h hd hi]
  | gen np =>
    rcases hs with e | ⟨b, hb, -, -, -, hap, e⟩
    · cases e
      exact ⟨.ofReg (fun _ x => x.finish .invalidParityCount) rfl (fun s x _ h => rfl) fun _ _ _ _ => rfl⟩
    · cases e
      have hk := BlockArgs.ok_iff.1 hb
      refine ⟨.ofBlocks (b := b) (ks := b.parity)
        (fun m k i => kernelGen r (r.genSlotOf b.np) b.nd b.np b.size (b.byte m) (k - b.nd) i)
        hk.2.2.2.2.1 (fun k hk => (BlockArgs.mem_parity.1 hk).2) hap rfl (by simp)
        (fun s x hp h => completeGen_blocks (i := .gen np)
          (kernel := fun r b data => kernelGen r (r.genSlotOf b.np) b.nd b.np b.size data) h (hp ▸ hb)) fun m m' h k _ i hi => ?_⟩
      exact kernelGen_congr (fun d hd i hi =>
        read_of_block (ks := b.data) rfl h (List.mem_range.2 hd) hi) hi
  | recover np nr =>
    rcases hs with e | e | ⟨b, hb, -, -, hl, -, -, hap, e⟩
    · cases e
      exact ⟨.ofReg (fun _ x => x.finish .invalidParityCount) rfl (fun s x _ h => rfl) fun _ _ _ _ => rfl⟩
    · cases e
      exact ⟨.ofReg (fun _ x => x.finish .unrecoverableLoss) rfl (fun s x _ h => rfl) fun _ _ _ _ => rfl⟩
    · cases e
      have hk := BlockArgs.ok_iff.1 hb
      refine ⟨.ofBlocks (b := b) (ks := b.loss)
        (fun m => kernelRec r b.nd b.np b.size b.loss (b.byte m))
        hk.2.2.2.2.1 (lossValid_lt hl.2.2) hap rfl (by simp)
        (fun s x hp h => completeRec_blocks (i := .recover np nr) h (hp ▸ hb)) fun m m' h k _ i hi => ?_⟩
      refine kernelRec_congr hl.2.2 hl.2.1 (fun k hk hkl i hi =>
        read_of_block (ks := b.surviving) rfl h ?_ hi) k hi
      simpa [BlockArgs.surviving, BlockArgs.all] using ⟨hk, hkl⟩

/-- The memories two effects leave, in either order, where their footprints do not conflict. -/
theorem Effect.mem_comm {par : Params} {r : ReadyRegs} {f g : Flight} (ef : Effect par r f)
    (eg : Effect par r g)
    (hc : f.conflicts g = false) {m : List Host.Cell} (hm : memWf m = true) :
    eg.mem (ef.mem m) = ef.mem (eg.mem m) := by
  have hno : ∀ a, ¬((spansHold f.wr a = true ∧ (spansHold g.rd a = true ∨ spansHold g.wr a = true)) ∨
      (spansHold f.rd a = true ∧ spansHold g.wr a = true)) := by
    intro a h
    rw [← Bool.not_eq_true, conflicts_iff] at hc
    exact hc ⟨a, h⟩
  refine memWf_ext (eg.wf _ (ef.wf _ hm)) (ef.wf _ (eg.wf _ hm)) fun a => ?_
  have hff : ∀ b, spansHold f.rd b = true → memRead (eg.mem m) b = memRead m b := fun b h =>
    eg.outside _ _ hm (by rw [← Bool.not_eq_true]; exact fun h' => hno b (.inr ⟨h, h'⟩))
  have hgg : ∀ b, spansHold g.rd b = true → memRead (ef.mem m) b = memRead m b := fun b h =>
    ef.outside _ _ hm (by rw [← Bool.not_eq_true]; exact fun h' => hno b (.inl ⟨h', .inl h⟩))
  cases hf : spansHold f.wr a
  · rw [ef.outside _ _ (eg.wf _ hm) hf]
    cases hg : spansHold g.wr a
    · rw [eg.outside _ _ (ef.wf _ hm) hg, ef.outside _ _ hm hf, eg.outside _ _ hm hg]
    · exact eg.inside _ _ a (ef.wf _ hm) hm hgg hg
  · have hg : spansHold g.wr a = false := by
      rw [← Bool.not_eq_true]; exact fun h => hno a (.inl ⟨hf, .inr h⟩)
    rw [eg.outside _ _ (ef.wf _ hm) hg]
    exact (ef.inside _ _ a (eg.wf _ hm) hm hff hf).symm

end Sys2Proof.Machine
end

