-- ==== Sys2Proof/Laws/PerInstr.lean ====
section
/-! SUPPORT. Family RowMatch: the word of every command matches, under its mask, the row of the match and
mask table that has its mnemonic (30_encoding.md R103, R104). One lemma per command. -/

namespace Sys2Proof.Laws.RowMatch

/-- The word of the command matches the row of its mnemonic. -/
def Statement (i : Instr) : Prop :=
  ∃ r ∈ opcodeTable, r.mnemonic = i.mnemonic ∧ r.hits (encode i) = true

/-- A word matches a row written out by fields where its fields do. -/
theorem hits_of_fields (m : String) (z b a o z' b' a' o' z'' b'' a'' o'' : Byte)
    (h : z &&& z' = z'' ∧ b &&& b' = b'' ∧ a &&& a' = a'' ∧ o &&& o' = o'') :
    OpcodeRow.hits ⟨m, wordOf z'' b'' a'' o'', wordOf z' b' a' o'⟩ (wordOf z b a o) = true := by
  obtain ⟨h1, h2, h3, h4⟩ := h
  simp only [OpcodeRow.hits, decide_eq_true_eq, wordOf_and, h1, h2, h3, h4]

theorem and_zero (v : Byte) : v &&& 0 = 0 := by simp

theorem and_ones (v : Byte) : v &&& 0xFF = v := by revert v; decide

/-- The row as its fields. -/
theorem row_eq {m : String} {p k : Word} {z'' b'' a'' o'' z' b' a' o' : Byte}
    (hp : p = wordOf z'' b'' a'' o'') (hk : k = wordOf z' b' a' o') :
    (⟨m, p, k⟩ : OpcodeRow) = ⟨m, wordOf z'' b'' a'' o'', wordOf z' b' a' o'⟩ := by rw [hp, hk]

theorem init : Statement .init :=
  ⟨⟨"INIT", 0x00000001, 0xFFFFFFFF⟩, by decide, rfl, by decide⟩

theorem setmode (mode : Byte) : Statement (.setmode mode) :=
  ⟨⟨"SETMODE", 0x00000002, 0xFFFF00FF⟩, by decide, rfl, by
    rw [row_eq (z'' := 0) (b'' := 0) (a'' := 0) (o'' := 0x02) (z' := 0xFF) (b' := 0xFF) (a' := 0)
      (o' := 0xFF) (by decide) (by decide)]
    exact hits_of_fields _ _ _ _ _ _ _ _ _ _ _ _ _ ⟨and_ones _, and_ones _, and_zero _, and_ones _⟩⟩

theorem gfmul (a b : Byte) : Statement (.gfmul a b) :=
  ⟨⟨"GFMUL", 0x00000010, 0xFF0000FF⟩, by decide, rfl, by
    rw [row_eq (z'' := 0) (b'' := 0) (a'' := 0) (o'' := 0x10) (z' := 0xFF) (b' := 0) (a' := 0)
      (o' := 0xFF) (by decide) (by decide)]
    exact hits_of_fields _ _ _ _ _ _ _ _ _ _ _ _ _ ⟨and_ones _, and_zero _, and_zero _, and_ones _⟩⟩

theorem gfcoef (j d : Nat) : Statement (.gfcoef j d) :=
  ⟨⟨"GFCOEF", 0x00000011, 0xFF0000FF⟩, by decide, rfl, by
    rw [row_eq (z'' := 0) (b'' := 0) (a'' := 0) (o'' := 0x11) (z' := 0xFF) (b' := 0) (a' := 0)
      (o' := 0xFF) (by decide) (by decide)]
    exact hits_of_fields _ _ _ _ _ _ _ _ _ _ _ _ _ ⟨and_ones _, and_zero _, and_zero _, and_ones _⟩⟩

theorem genref (np : Nat) : Statement (.genref np) :=
  ⟨⟨"GENREF", 0x00000020, 0xFFFF00FF⟩, by decide, rfl, by
    rw [row_eq (z'' := 0) (b'' := 0) (a'' := 0) (o'' := 0x20) (z' := 0xFF) (b' := 0xFF) (a' := 0)
      (o' := 0xFF) (by decide) (by decide)]
    exact hits_of_fields _ _ _ _ _ _ _ _ _ _ _ _ _ ⟨and_ones _, and_ones _, and_zero _, and_ones _⟩⟩

theorem gen (np : Nat) : Statement (.gen np) :=
  ⟨⟨"GEN", 0x00000021, 0xFFFF00FF⟩, by decide, rfl, by
    rw [row_eq (z'' := 0) (b'' := 0) (a'' := 0) (o'' := 0x21) (z' := 0xFF) (b' := 0xFF) (a' := 0)
      (o' := 0xFF) (by decide) (by decide)]
    exact hits_of_fields _ _ _ _ _ _ _ _ _ _ _ _ _ ⟨and_ones _, and_ones _, and_zero _, and_ones _⟩⟩

theorem recover (np nr : Nat) : Statement (.recover np nr) :=
  ⟨⟨"REC", 0x00000030, 0xFF0000FF⟩, by decide, rfl, by
    rw [row_eq (z'' := 0) (b'' := 0) (a'' := 0) (o'' := 0x30) (z' := 0xFF) (b' := 0) (a' := 0)
      (o' := 0xFF) (by decide) (by decide)]
    exact hits_of_fields _ _ _ _ _ _ _ _ _ _ _ _ _ ⟨and_ones _, and_zero _, and_zero _, and_ones _⟩⟩

theorem selftest : Statement .selftest :=
  ⟨⟨"SELFTEST", 0x00000040, 0xFFFFFFFF⟩, by decide, rfl, by decide⟩

end Sys2Proof.Laws.RowMatch
end

