-- ==== Sys2Proof/Laws/Poly.lean ====
section
/-! SUPPORT. Multiplication modulo an irreducible polynomial of degree 8 (40_field_tables.md R132, R137): it is additive in both
arguments, and multiplying by `b` is a sum of powers of multiplication by `x`, so it commutes and
associates. -/

namespace Sys2Proof.Machine

/-! ## Additive maps -/

/-- The map takes exclusive or to exclusive or. -/
def Additive {v w : Nat} (f : BitVec v → BitVec w) : Prop := ∀ p q, f (p ^^^ q) = f p ^^^ f q

theorem Additive.zero {v w : Nat} {f : BitVec v → BitVec w} (h : Additive f) : f 0 = 0 := by
  have := h 0 0
  simpa using this

theorem Additive.comp {u v w : Nat} {f : BitVec v → BitVec w} {g : BitVec u → BitVec v} (hf : Additive f)
    (hg : Additive g) : Additive fun p => f (g p) := fun p q => by simp only [hg p q, hf (g p)]

theorem additive_gsum {f : Byte → Byte} (h : Additive f) (l : List Byte) : f (gsum l) = gsum (l.map f) := by
  induction l with
  | nil => exact h.zero
  | cons a l ih => rw [gsum_cons, h, ih]; rfl

/-- The exclusive or of the bits of `p` at the places in `l`. -/
def bitSum {w : Nat} (p : BitVec w) (l : List Nat) : BitVec w :=
  l.foldr (fun k q => (if p.getLsbD k then BitVec.twoPow w k else 0) ^^^ q) 0

theorem getLsbD_bitSum {w : Nat} (p : BitVec w) {l : List Nat} (hl : l.Nodup) (i : Nat) :
    (bitSum p l).getLsbD i = (decide (i ∈ l) && p.getLsbD i) := by
  induction l with
  | nil => simp [bitSum]
  | cons k l ih =>
    have e : bitSum p (k :: l) = (if p.getLsbD k then BitVec.twoPow w k else 0) ^^^ bitSum p l := rfl
    rw [e, BitVec.getLsbD_xor, ih (List.nodup_cons.1 hl).2]
    have hk := (List.nodup_cons.1 hl).1
    by_cases hik : i = k
    · subst hik
      have hlt : p.getLsbD i = true → i < w := BitVec.lt_of_getLsbD
      cases hp : p.getLsbD i
      · simp
      · simp [hk, hlt hp]
    · have : (if p.getLsbD k then BitVec.twoPow w k else 0).getLsbD i = false := by
        split_ifs
        · simp [BitVec.getLsbD_twoPow, Ne.symm hik]
        · simp
      rw [this]; simp [hik]

/-- A bit vector is the sum of its bits. -/
theorem bitSum_range {w : Nat} (p : BitVec w) : bitSum p (List.range w) = p := by
  apply BitVec.eq_of_getLsbD_eq
  intro i hi
  rw [getLsbD_bitSum p List.nodup_range]; simp [hi]

/-- Two additive maps that agree on the powers of two are equal. -/
theorem Additive.ext {v w : Nat} {f g : BitVec v → BitVec w} (hf : Additive f) (hg : Additive g)
    (h : ∀ k, k < v → f (BitVec.twoPow v k) = g (BitVec.twoPow v k)) (p : BitVec v) : f p = g p := by
  have key : ∀ l : List Nat, (∀ k ∈ l, k < v) → f (bitSum p l) = g (bitSum p l) := by
    intro l
    induction l with
    | nil => intro _; exact hf.zero.trans hg.zero.symm
    | cons k l ih =>
      intro hl
      have e : bitSum p (k :: l) = (if p.getLsbD k then BitVec.twoPow v k else 0) ^^^ bitSum p l := rfl
      rw [e, hf, hg, ih fun j hj => hl j (by simp [hj])]
      congr 1
      split_ifs
      · exact h k (hl k (by simp))
      · exact hf.zero.trans hg.zero.symm
  rw [← bitSum_range p]
  exact key _ fun k hk => List.mem_range.1 hk

/-! ## Reduction -/

/-- A loop that adds a constant at each step whose test is additive is additive. -/
theorem additive_condFold {w : Nat} (ks : List Nat) (g : Nat → BitVec w) (t : Nat → BitVec w → Bool)
    (ht : ∀ k p q, t k (p ^^^ q) = (t k p ^^ t k q)) :
    Additive fun p => ks.foldl (fun p k => if t k p then p ^^^ g k else p) p := by
  intro p q
  simp only
  induction ks generalizing p q with
  | nil => rfl
  | cons k ks ih =>
    simp only [List.foldl_cons]
    rw [← ih]
    congr 1
    rw [ht]
    cases h1 : t k p <;> cases h2 : t k q <;> simp
    · rw [BitVec.xor_assoc]
    · rw [BitVec.xor_assoc, BitVec.xor_comm q, ← BitVec.xor_assoc]
    · rw [BitVec.xor_assoc, ← BitVec.xor_assoc (g k), BitVec.xor_comm (g k) q, BitVec.xor_assoc q,
        BitVec.xor_self]
      simp

theorem polyReduce_additive (poly : Poly) : Additive (polyReduce poly) := by
  intro p q
  exact (congrArg (BitVec.setWidth 8) (additive_condFold [14, 13, 12, 11, 10, 9, 8]
    (fun k => poly.setWidth 15 <<< (k - 8)) (fun k p => p.getLsbD k) (by simp) p q)).trans
      BitVec.setWidth_xor

theorem shift_additive {v w : Nat} (k : Nat) : Additive fun p : BitVec v => (p.setWidth w) <<< k :=
  fun p q => by simp only [BitVec.setWidth_xor, BitVec.shiftLeft_xor_distrib]

/-- Multiplication by `x`. -/
def xtime (poly : Poly) (a : Byte) : Byte := polyReduce poly (a.setWidth 15 <<< 1)

theorem xtime_additive (poly : Poly) : Additive (xtime poly) :=
  (polyReduce_additive poly).comp (shift_additive 1)

/-- The product is a sum of shifts, reduced. -/
theorem gfmul_sum (poly : Poly) (a b : Byte) :
    gfmulPoly poly a b = gsum ((List.range 8).map fun k =>
      if b.getLsbD k then polyReduce poly (a.setWidth 15 <<< k) else 0) := by
  have e : ∀ (l : List Nat) (p : BitVec 15), polyReduce poly
      (l.foldl (fun p k => if b.getLsbD k then p ^^^ (a.setWidth 15 <<< k) else p) p) =
      polyReduce poly p ^^^ gsum (l.map fun k =>
        if b.getLsbD k then polyReduce poly (a.setWidth 15 <<< k) else 0) := by
    intro l
    induction l with
    | nil => simp
    | cons k l ih =>
      intro p
      simp only [List.foldl_cons, List.map_cons, gsum_cons]
      rw [ih]
      split_ifs
      · rw [polyReduce_additive, BitVec.xor_assoc]
      · simp
  rw [gfmulPoly, polyMul, e]
  have := (polyReduce_additive poly).zero
  simp only [BitVec.ofNat_eq_ofNat] at this ⊢
  rw [this]; simp

/-- Reducing after a shift is multiplying the remainder by `x`, where `POLY` is irreducible. -/
theorem polyReduce_shift_basis : ∀ poly : Poly, polyIrreducible poly = true → ∀ k : Fin 14,
    polyReduce poly ((BitVec.twoPow 14 k).setWidth 15 <<< 1) =
      xtime poly (polyReduce poly ((BitVec.twoPow 14 k).setWidth 15 <<< 0)) := by
  decide +kernel

theorem polyReduce_shift {poly : Poly} (h : polyIrreducible poly = true) (p : BitVec 14) :
    polyReduce poly (p.setWidth 15 <<< 1) = xtime poly (polyReduce poly (p.setWidth 15 <<< 0)) :=
  Additive.ext ((polyReduce_additive poly).comp (shift_additive 1))
    ((xtime_additive poly).comp ((polyReduce_additive poly).comp (shift_additive 0)))
    (fun k hk => polyReduce_shift_basis poly h ⟨k, hk⟩) p

/-- A byte is its own remainder. -/
theorem polyReduce_byte (poly : Poly) (a : Byte) : polyReduce poly (a.setWidth 15) = a := by
  have e : ∀ l : List Nat, (∀ k ∈ l, 8 ≤ k) →
      l.foldl (fun p k => if p.getLsbD k then p ^^^ (poly.setWidth 15 <<< (k - 8)) else p)
        (a.setWidth 15) = a.setWidth 15 := by
    intro l
    induction l with
    | nil => intro _; rfl
    | cons k l ih =>
      intro hl
      have : (a.setWidth 15).getLsbD k = false := by
        rw [BitVec.getLsbD_setWidth, BitVec.getLsbD_of_ge a k (hl k (by simp))]; simp
      simp only [List.foldl_cons, this]
      exact ih fun j hj => hl j (by simp [hj])
  unfold polyReduce
  rw [e _ (by decide)]
  simp

/-- Shifts by up to seven places are powers of multiplication by `x`. -/
theorem polyReduce_power {poly : Poly} (h : polyIrreducible poly = true) (a : Byte) {k : Nat} (hk : k ≤ 7) :
    polyReduce poly (a.setWidth 15 <<< k) = (xtime poly)^[k] a := by
  induction k with
  | zero => simpa using polyReduce_byte poly a
  | succ k ih =>
    have e : a.setWidth 15 <<< (k + 1) = ((a.setWidth 14 <<< k).setWidth 15) <<< 1 := by
      apply BitVec.eq_of_getLsbD_eq
      intro i hi
      simp only [BitVec.getLsbD_shiftLeft, BitVec.getLsbD_setWidth]
      by_cases h1 : i < k + 1
      · by_cases h2 : i < 1
        · simp [h1, h2]
        · simp [h1, show i - 1 < k by omega]
      · simp only [h1, show ¬i < 1 by omega, show ¬i - 1 < k by omega, show i - 1 - k = i - (k + 1) by omega,
          hi, show i - 1 < 15 by omega, show i - 1 < 14 by omega, show i - (k + 1) < 15 by omega,
          show i - (k + 1) < 14 by omega, decide_true, decide_false, Bool.not_false, Bool.true_and]
    have e0 : ((a.setWidth 14 <<< k).setWidth 15) <<< 0 = a.setWidth 15 <<< k := by
      apply BitVec.eq_of_getLsbD_eq
      intro i hi
      simp only [BitVec.getLsbD_shiftLeft, BitVec.getLsbD_setWidth]
      by_cases h1 : i < k
      · simp [h1]
      · by_cases h2 : i < 14
        · simp [h1, h2, show i - k < 14 by omega, show i - k < 15 by omega, hi]
        · have : a.getLsbD (i - k) = false := BitVec.getLsbD_of_ge a _ (by omega)
          simp [this]
    rw [e, polyReduce_shift h, e0, ih (by omega), Function.iterate_succ_apply']

/-- The product by `b` is the sum of the powers of multiplication by `x` at the bits of `b`. -/
theorem gfmul_powers {poly : Poly} (h : polyIrreducible poly = true) (a b : Byte) :
    gfmulPoly poly a b =
      gsum ((List.range 8).map fun k => if b.getLsbD k then (xtime poly)^[k] a else 0) := by
  rw [gfmul_sum]
  exact gsum_map_congr fun k hk => by
    have := List.mem_range.1 hk
    rw [polyReduce_power h a (by omega)]

/-! ## The laws -/

theorem gfmul_distrib (poly : Poly) (a b c : Byte) :
    gfmulPoly poly a (b ^^^ c) = gfmulPoly poly a b ^^^ gfmulPoly poly a c := by
  simp only [gfmul_sum, ← gsum_map_xor]
  refine gsum_map_congr fun k _ => ?_
  rw [BitVec.getLsbD_xor]
  cases b.getLsbD k <;> cases c.getLsbD k <;> simp

theorem gfmul_additive (poly : Poly) (c : Byte) : Additive fun a => gfmulPoly poly a c := by
  intro a b
  simp only [gfmul_sum, ← gsum_map_xor]
  refine gsum_map_congr fun k _ => ?_
  rw [BitVec.setWidth_xor, BitVec.shiftLeft_xor_distrib, polyReduce_additive]
  split_ifs <;> simp

theorem gfmul_one_left (poly : Poly) (b : Byte) : gfmulPoly poly 0x01 b = b := by
  have : polyMul 0x01 b = b.setWidth 15 := by revert b; decide +kernel
  rw [gfmulPoly, this, polyReduce_byte]

theorem gfmul_zero_left (poly : Poly) (b : Byte) : gfmulPoly poly 0x00 b = 0x00 :=
  (gfmul_additive poly b).zero

/-- Multiplying by `x` commutes with multiplying by `c`. -/
theorem gfmul_xtime {poly : Poly} (h : polyIrreducible poly = true) (a c : Byte) :
    gfmulPoly poly (xtime poly a) c = xtime poly (gfmulPoly poly a c) := by
  rw [gfmul_powers h, gfmul_powers h, additive_gsum (xtime_additive poly), List.map_map]
  refine gsum_map_congr fun k _ => ?_
  simp only [Function.comp]
  split_ifs
  · rw [← Function.iterate_succ_apply, Function.iterate_succ_apply']
  · exact (xtime_additive poly).zero.symm

theorem gfmul_iterate {poly : Poly} (h : polyIrreducible poly = true) (a c : Byte) (k : Nat) :
    gfmulPoly poly ((xtime poly)^[k] a) c = (xtime poly)^[k] (gfmulPoly poly a c) := by
  induction k with
  | zero => rfl
  | succ k ih => rw [Function.iterate_succ_apply', Function.iterate_succ_apply', gfmul_xtime h, ih]

/-- Multiplying by `b` commutes with multiplying by `c`. -/
theorem gfmul_swap {poly : Poly} (h : polyIrreducible poly = true) (a b c : Byte) :
    gfmulPoly poly (gfmulPoly poly a b) c = gfmulPoly poly (gfmulPoly poly a c) b := by
  conv_lhs => rw [gfmul_powers h a b]
  rw [additive_gsum (f := fun a => gfmulPoly poly a c) (gfmul_additive poly c), List.map_map, gfmul_powers h (gfmulPoly poly a c) b]
  refine gsum_map_congr fun k _ => ?_
  simp only [Function.comp]
  split_ifs
  · exact gfmul_iterate h a c k
  · exact gfmul_zero_left poly c

theorem gfmul_comm {poly : Poly} (h : polyIrreducible poly = true) (a b : Byte) :
    gfmulPoly poly a b = gfmulPoly poly b a := by
  have := gfmul_swap h 0x01 a b
  rwa [gfmul_one_left, gfmul_one_left] at this

theorem gfmul_assoc {poly : Poly} (h : polyIrreducible poly = true) (a b c : Byte) :
    gfmulPoly poly (gfmulPoly poly a b) c = gfmulPoly poly a (gfmulPoly poly b c) := by
  rw [gfmul_comm h a b, gfmul_swap h b a c, gfmul_comm h _ a]

end Sys2Proof.Machine
end

