-- ==== Sys2Proof/Tests/Slice0.lean ====
section
/-! SUPPORT. Tests of the model against values the spec gives (95_test_vectors.md), and for every
statement with hypotheses a state and operands that meet them all (`test_witness_…`). -/

open Sys2Proof Sys2Proof.Machine

namespace Sys2Proof.Tests

/-! ## Small states -/

/-- A context right after reset, under the spec's defaults. -/
abbrev ctx0 : Context := Context.reset defaultParams.vecCount

/-- The default `GEN` has 251 columns (00_scope.md R9), so a context has 257 registers `VEC[k]`. -/
theorem default_nd : defaultParams.gen.ndMax = 251 := rfl

theorem default_vecs : defaultParams.vecCount = 257 := rfl

/-- What the engine holds after `INIT` at the spec's defaults. -/
def regs : ReadyRegs := initRegs defaultParams

/-- A context whose registers hold `nd`, `size`, the block addresses `vec` and the loss set `loss`. -/
def argCtx (nd size : Nat) (vec loss : List Nat) : Context :=
  { ctx0 with
    nd := some (BitVec.ofNat 32 nd)
    size := some (BitVec.ofNat 64 size)
    vec := (List.range 257).map fun k => (vec[k]?).map (BitVec.ofNat 64)
    loss := tabulate Config.parityMax fun k => (loss[k]?).map (BitVec.ofNat 16) }

/-- A context with a command in flight. -/
def flying (x : Context) (f : Flight) : Context := x.launch f

/-- `READY` at the defaults, with the given contexts and memory. -/
def readyState (xs : List Context) (m : List Host.Cell) : State :=
  { State.reset with engine := .ready regs, ctxs := xs, hm := m }

/-- Reset, with host agent 0 about to perform `act`. -/
def hostState (act : HostAction) : State :=
  { State.reset with ctxs := [{ ctx0 with prog := [act] }, ctx0] }

/-- A field of the next state, if the outcome is one. -/
def after {α : Type} (o : Result) (f : State → α) : Option α :=
  match o with
  | .next t => some (f t)
  | .fault _ => none
  | .refused _ => none

/-- `STATUS`, `RESULT` of a context. -/
def statusOf (c : Nat) (s : State) : Option Byte := s.ctxs[c]?.bind Context.status
def resultOf (c : Nat) (s : State) : Option Byte := s.ctxs[c]?.bind Context.result

/-- The bytes of memory at the listed addresses. -/
def bytesAt (l : List Nat) (s : State) : List Byte := l.map (memRead s.hm)

/-- The model fault a step adds to an empty `FAULTS`. -/
def faultOf (s : State) : List ModelFault := s.faults.map FaultRecord.fault

/-! ## Decoding: the words of V-DEC (95_test_vectors.md), written from 30_encoding.md R100, R103 -/

theorem test_decode_init : decode 0x00000001 = .ok .init := by decide
theorem test_decode_setmode : decode 0x00000002 = .ok (.setmode 0x00) := by decide
theorem test_decode_setmode_other : decode 0x00000102 = .ok (.setmode 0x01) := by decide
theorem test_decode_gfmul : decode 0x008E0210 = .ok (.gfmul 0x02 0x8E) := by decide
theorem test_decode_gfcoef : decode 0x00000111 = .ok (.gfcoef 1 0) := by decide
theorem test_decode_gfcoef_edge : decode 0x00FB0011 = .ok (.gfcoef 0 251) := by decide
theorem test_decode_genref : decode 0x00000620 = .ok (.genref 6) := by decide
theorem test_decode_gen : decode 0x00000321 = .ok (.gen 3) := by decide
theorem test_decode_rec : decode 0x00020330 = .ok (.recover 3 2) := by decide
theorem test_decode_selftest : decode 0x00000040 = .ok .selftest := by decide
theorem test_decode_illegal :
    decode 0x00000101 = .illegal .operandA ∧ decode 0x00010002 = .illegal .operandB ∧
      decode 0x01000010 = .illegal .reserved ∧ decode 0x00010321 = .illegal .operandB ∧
      decode 0x00000000 = .illegal .opcode ∧ decode 0x000000FF = .illegal .opcode ∧
      decode 0x00000012 = .illegal .opcode := by decide

/-- The table numbers bits as the word does. -/
theorem test_decodeTableWord : decodeTableWord 32 0x00020330 = some (.recover 3 2) := by decide

/-! ## Well-formedness: one ill-formed term for each check -/

theorem test_wf_gfcoef : (Instr.gfcoef 256 0).wf = false ∧ (Instr.gfcoef 0 256).wf = false := by decide
theorem test_wf_genref : (Instr.genref 256).wf = false := by decide
theorem test_wf_gen : (Instr.gen 256).wf = false := by decide
theorem test_wf_rec : (Instr.recover 256 0).wf = false ∧ (Instr.recover 0 256).wf = false := by decide
theorem test_wf_setblocks :
    (Pseudo.setblocks (2 ^ 32) 1 []).wf 257 = false ∧ (Pseudo.setblocks 1 (2 ^ 64) []).wf 257 = false ∧
      (Pseudo.setblocks 1 1 [0, 0, 0]).wf 2 = false ∧
      (Pseudo.setblocks 1 1 [2 ^ 64]).wf 257 = false := by decide +kernel
theorem test_wf_setloss :
    (Pseudo.setloss [0, 1, 2, 3, 4, 5, 6]).wf 257 = false ∧ (Pseudo.setloss [65536]).wf 257 = false := by decide
theorem test_wf_recover :
    (Pseudo.recoverSet 256 [0]).wf 257 = false ∧ (Pseudo.recoverSet 1 [0, 1, 2, 3, 4, 5, 6]).wf 257 = false ∧
      (Pseudo.recoverSet 1 [65536]).wf 257 = false := by decide
theorem test_wf_fill : (Pseudo.fill (2 ^ 64) 1 0).wf 257 = false := by decide
theorem test_wf_erase : (Pseudo.erase 257).wf 257 = false := by decide
theorem test_wf_registers :
    (HostAction.wrVec 257 0).wf 257 = false ∧ (HostAction.rd (.vec 257)).wf 257 = false := by decide

/-! ## States of the tests and witnesses below -/

/-- V-CTL-9: the later variant wins slot 2. -/
def variants9 : List Variant :=
  [⟨1, .always, [1, 2, 3], [1]⟩, ⟨2, .has .wideVector128, [2], []⟩]

/-- `UNINIT` with `INIT` in flight, for the variants of V-CTL-9 and the given capabilities. -/
def initState (caps : List Cap) : State :=
  { State.reset with
    ctxs := [flying ctx0 (Flight.plainOf .init), ctx0]
    par := { defaultParams with variants := variants9, caps := caps } }

/-- The slots of a state in `READY`. -/
def slotsOf (s : State) : Option (List Nat × List Nat) :=
  match s.engine with
  | .uninit => none
  | .ready r => some (r.genSlot.toList, r.recSlot.toList)

/-- Columns 0 to 7 of the default table as 95_test_vectors.md V-COEF lists them. -/
def listedColumns : List (List Byte) :=
  [[0x01, 0x01, 0x01, 0x01, 0x01, 0x01, 0x01, 0x01],
   [0xA7, 0x7A, 0xBA, 0xAD, 0x9D, 0xDD, 0x98, 0x3D],
   [0x47, 0xBA, 0x7A, 0x9D, 0xAD, 0x98, 0xDD, 0xAA],
   [0xBA, 0x47, 0xA7, 0xDD, 0x98, 0xAD, 0x9D, 0x5D],
   [0x7A, 0xA7, 0x47, 0x98, 0xDD, 0x9D, 0xAD, 0x96],
   [0x01, 0x8E, 0xF4, 0x3D, 0xAA, 0x5D, 0x96, 0xAD]]

/-- `READY` with the listed columns for `GEN_T`. -/
def listedRegs : ReadyRegs :=
  { regs with genT := ⟨251, tabulate _ fun j => tabulate _ fun d => (listedColumns.getD j []).getD d 0⟩ }

def listedState (xs : List Context) (m : List Host.Cell) : State :=
  { readyState xs m with engine := .ready listedRegs }

/-- V-GEN-4: `nd = 2`, `np = 6`, one byte a block. -/
def args4 : BlockArgs := ⟨6, 2, 1, [0, 1, 2, 3, 4, 5, 6, 7], []⟩

/-- V-GEN-3 and V-REC-12 with their offsets 0 and 63 brought together as offsets 0 and 1, in a record cut to
two bytes a block (each byte is computed on its own: 41_generation.md R160, 43_recovery.md R205). -/
def pair3 (loss : List Nat) : BlockArgs := ⟨3, 4, 2, [0, 2, 4, 6, 8, 10, 12], loss⟩

/-! ## Witnesses: for every statement with hypotheses, a state and operands that meet them all -/

/-- With no command in flight anywhere. -/
theorem no_flight {s : State} (h : ∀ x ∈ s.ctxs, x.inflight = none) (c : Nat) : s.flight? c = none := by
  unfold State.flight?
  cases hc : s.ctxs[c]? with
  | none => rfl
  | some x => exact h x (List.mem_of_getElem? hc)

/-- Nothing in flight is serialized with every command. -/
theorem calm_serial {s : State} (h : ∀ x ∈ s.ctxs, x.inflight = none) (i : Instr) : s.serialFor i := by
  intro c _ f hf; rw [no_flight h] at hf; cases hf

theorem calm_race {s : State} (h : ∀ x ∈ s.ctxs, x.inflight = none) (f : Flight) : s.raceFreeFor f := by
  intro c _ g hg; rw [no_flight h] at hg; cases hg

/-- The registers of `argCtx` hold the arguments they were made from. -/
theorem argCtx_blocks {np nd size : Nat} {vec loss : List Nat} (h1 : nd < 2 ^ 32) (h2 : size < 2 ^ 64)
    (h3 : vec.length = nd + np) (h4 : nd + np ≤ 257) (h5 : ∀ a ∈ vec, a < 2 ^ 64) :
    (argCtx nd size vec loss).holdsBlocks ⟨np, nd, size, vec, loss⟩ := by
  refine ⟨⟨_, rfl, by simpa using Nat.mod_eq_of_lt h1⟩, ⟨_, rfl, by simpa using Nat.mod_eq_of_lt h2⟩,
    h3, fun k hk => ⟨BitVec.ofNat 64 (vec.getD k 0), ?_, ?_⟩⟩
  · have hk' : k < 257 := lt_of_lt_of_le hk h4
    have hk'' : k < vec.length := by rw [h3]; exact hk
    simp [argCtx, tabulate, hk', hk'', List.getD_eq_getElem?_getD]
  · have hk'' : k < vec.length := by rw [h3]; exact hk
    simp only [BlockArgs.addr, BitVec.toNat_ofNat]
    refine Nat.mod_eq_of_lt (h5 _ ?_)
    simp [List.getD_eq_getElem?_getD, hk'']

theorem argCtx_loss {np nd size : Nat} {vec loss : List Nat} (h1 : loss.length ≤ Config.parityMax)
    (h2 : ∀ l ∈ loss, l < 2 ^ 16) : (argCtx nd size vec loss).holdsLoss ⟨np, nd, size, vec, loss⟩ := by
  intro k hk
  have hk'' : k < loss.length := hk
  refine ⟨BitVec.ofNat 16 (loss.getD k 0), ?_, ?_⟩
  · have hk' : k < Config.parityMax := lt_of_lt_of_le hk h1
    simp [argCtx, tabulate, hk', hk'', List.getD_eq_getElem?_getD]
  · simp only [BitVec.toNat_ofNat]
    refine Nat.mod_eq_of_lt (h2 _ ?_)
    simp [List.getD_eq_getElem?_getD, hk'']

/-- The one-context state whose registers hold `b`. -/
def workState (b : BlockArgs) : State :=
  readyState [argCtx b.nd b.size b.vec b.loss, ctx0] [(0, 0x53)]

theorem work_idle (b : BlockArgs) : (workState b).idleTurn (argCtx b.nd b.size b.vec b.loss) :=
  ⟨rfl, rfl, rfl⟩

theorem work_calm (b : BlockArgs) : ∀ x ∈ (workState b).ctxs, x.inflight = none := by
  intro x hx
  simp only [workState, readyState, List.mem_cons, List.not_mem_nil, or_false] at hx
  rcases hx with rfl | rfl <;> rfl

/-! Encoding. -/

theorem test_witness_DecodeOfEncodeIsTheCommand :
    Instr.wf (.gfcoef 255 255) = true ∧ Instr.wf (.recover 255 255) = true ∧
      Instr.wf (.genref 0) = true ∧ Instr.wf (.gen 255) = true := by decide

theorem test_witness_EncodeOfDecodedIsTheWord : ∃ w i, decode w = .ok i := ⟨_, _, test_decode_rec⟩

theorem test_witness_DecodePicksTheUniqueTableRow :
    (∃ w i, decode w = .ok i) ∧ ∃ w why, decode w = .illegal why :=
  ⟨⟨_, _, test_decode_rec⟩, _, _, test_decode_illegal.1⟩

/-- Host agent 0 of `hostState act` has the step. -/
theorem hostState_turn (act : HostAction) :
    ∃ (s s' : State) (x : Context), s.nextTurn = some s' ∧ s'.idleTurn x ∧ x.prog = [act] ∧
      s = hostState act :=
  ⟨hostState act, hostState act, { ctx0 with prog := [act] }, rfl, ⟨rfl, rfl, rfl⟩, rfl, rfl⟩

/-- One word for each clause. -/
theorem test_witness_IllegalWordOnlyRaisesItsFault :
    ∀ w ∈ ([0x00000012, 0x01000010, 0x00000101, 0x00010321] : List Word),
      (∃ (s s' : State) (x : Context) (rest : List HostAction),
          s.nextTurn = some s' ∧ s'.idleTurn x ∧ x.prog = .cmd w :: rest) ∧
        (opField w ∉ [0x01, 0x02, 0x10, 0x11, 0x20, 0x21, 0x30, 0x40] ∨ rsvField w ≠ 0 ∨
          (opField w ∈ [0x01, 0x40] ∧ aField w ≠ 0) ∨
          (opField w ∈ [0x01, 0x02, 0x20, 0x21, 0x40] ∧ bField w ≠ 0)) := by
  intro w hw
  refine ⟨?_, ?_⟩
  swap
  · simp only [List.mem_cons, List.not_mem_nil, or_false] at hw
    rcases hw with rfl | rfl | rfl | rfl <;> decide
  obtain ⟨s, s', x, h1, h2, h3, -⟩ := hostState_turn (.cmd w)
  exact ⟨s, s', x, [], h1, h2, h3⟩

theorem test_witness_StepRunsTheDecodedCommand :
    ∃ (s s' : State) (x : Context) (w : Word) (rest : List HostAction) (i : Instr),
      s.nextTurn = some s' ∧ s'.idleTurn x ∧ x.prog = .cmd w :: rest ∧ decode w = .ok i := by
  obtain ⟨s, s', x, h1, h2, h3, -⟩ := hostState_turn (.cmd 0x00000001)
  exact ⟨s, s', x, _, [], _, h1, h2, h3, test_decode_init⟩

/-! Issue. -/

theorem reset_idle : State.reset.idleTurn ctx0 := ⟨rfl, rfl, rfl⟩

theorem reset_calm : ∀ x ∈ State.reset.ctxs, x.inflight = none := by decide

theorem poly_default : polyIrreducible Config.defaultPoly = true := by decide

/-- The defaults may be instantiated (40_field_tables.md R137, 44_selftest.md R231). -/
theorem default_valid : defaultParams.valid = true := by decide

theorem test_witness_CommandBeforeInitFaults :
    ∃ (i : Instr) (s : State) (x : Context), i ≠ .init ∧ s.idleTurn x ∧ s.engine = .uninit :=
  ⟨.selftest, _, _, by decide, reset_idle, rfl⟩

/-- V-CTL-7 and V-CTL-8. -/
theorem test_witness_UnserializedCommandFaults :
    (∃ (s : State) (x : Context), s.par.valid = true ∧ s.idleTurn x ∧ ¬s.serialFor .init) ∧
      ∃ (s : State) (x : Context) (r : ReadyRegs), s.par.valid = true ∧ s.idleTurn x ∧
        s.engine = .ready r ∧ ¬s.serialFor (.gfmul 1 1) :=
  ⟨⟨readyState [ctx0, flying ctx0 (Flight.genOf (.gen 3) (pair3 []))] [], _, default_valid,
      ⟨rfl, rfl, rfl⟩, fun h => absurd (h 1 (by decide) _ rfl).1 (by decide)⟩,
    readyState [ctx0, flying ctx0 (Flight.plainOf (.setmode 0))] [], _, _, default_valid,
      ⟨rfl, rfl, rfl⟩, rfl, fun h => absurd (h 1 (by decide) _ rfl).2 (by decide)⟩

theorem test_witness_IssueRaisesOrLaunchesAndNothingElse :
    ∃ (i : Instr) (s t : State) (x : Context), s.idleTurn x ∧ exec i s = .next t :=
  ⟨.selftest, _, _, _, reset_idle, exec_idle_ne (by decide) reset_idle⟩

/-! Lookups and control. -/

/-- `READY`, two idle contexts. -/
def calmState : State := readyState [ctx0, ctx0] []

theorem calm_idle : calmState.idleTurn ctx0 := ⟨rfl, rfl, rfl⟩

theorem calm_calm : ∀ x ∈ calmState.ctxs, x.inflight = none := reset_calm

theorem test_witness_GfmulWritesTheTableEntry :
    ∃ (a b : Byte) (s : State) (x : Context) (r : ReadyRegs), s.idleTurn x ∧ s.engine = .ready r ∧
      s.serialFor (.gfmul a b) :=
  ⟨0xFF, 0xFF, calmState, _, _, calm_idle, rfl, calm_serial calm_calm _⟩

theorem test_witness_GfcoefWritesTheCoefficient :
    ∃ (s : State) (x : Context) (r : ReadyRegs), 5 < Config.parityMax ∧ 250 < r.genT.ndMax ∧
      s.idleTurn x ∧ s.engine = .ready r ∧ r.genT = s.par.gen ∧ s.serialFor (.gfcoef 5 250) :=
  ⟨calmState, _, regs, by decide, by decide, calm_idle, rfl, rfl, calm_serial calm_calm _⟩

/-- `j = 6`, then `d = 251`, then mode code 1. -/
theorem test_witness_WordOperandsOutOfDomainFault :
    ∃ (s : State) (x : Context) (r : ReadyRegs), s.idleTurn x ∧ s.engine = .ready r ∧
      s.serialFor (.gfcoef 6 0) ∧ s.serialFor (.gfcoef 0 251) ∧ s.serialFor (.setmode 1) ∧
      Config.parityMax ≤ 6 ∧ s.par.gen.ndMax ≤ 251 ∧ (1 : Byte) ≠ 0x00 :=
  ⟨calmState, ctx0, regs, calm_idle, rfl, calm_serial calm_calm _, calm_serial calm_calm _,
    calm_serial calm_calm _, le_refl _, default_nd.le, by decide⟩

theorem test_witness_FirstInitFillsTheTables :
    ∃ (s : State) (x : Context), s.par.valid = true ∧ s.idleTurn x ∧
      s.engine = .uninit ∧ s.serialFor .init :=
  ⟨State.reset, _, default_valid, reset_idle, rfl, calm_serial reset_calm _⟩

theorem test_witness_SecondInitOnlyReportsOk :
    ∃ (s : State) (x : Context) (r : ReadyRegs), s.par.valid = true ∧ s.idleTurn x ∧
      s.engine = .ready r ∧ s.serialFor .init :=
  ⟨calmState, _, _, default_valid, calm_idle, rfl, calm_serial calm_calm _⟩

/-- `x^8 + x^4 + x^3 + x`, which `x` divides; `ST_ND` of 5, and of 252 with 251 columns; `ST_SIZE` of 0, and
of 65 with a granule of 64. -/
theorem test_witness_UnfitParametersAreRefused :
    ∃ p1 p2 p3 p4 p5 : Params, polyIrreducible p1.poly = false ∧ p2.stNd < Config.parityMax ∧
      p3.gen.ndMax < p3.stNd ∧ p4.stSize = 0 ∧ p5.stSize % p5.sizeGranule ≠ 0 :=
  ⟨{ defaultParams with poly := 0x11A }, { defaultParams with stNd := 5 },
    { defaultParams with stNd := 252 }, { defaultParams with stSize := 0 },
    { defaultParams with stSize := 65 }, by decide, by decide,
    by decide, rfl, by decide⟩

/-- V-CTL-9: variant 2 is the last for `n = 2`; no variant accelerates `n = 6`. -/
theorem test_witness_LastApplicableVariantWins :
    ∃ (par : Params) (before after : List Variant) (v : Variant), par.variants = before ++ v :: after ∧
      v.pre.holds par.caps par.word64 = true ∧ 2 ∈ v.genNp ∧
      (∀ u ∈ after, ¬(u.pre.holds par.caps par.word64 = true ∧ 2 ∈ u.genNp)) ∧
      ∀ u ∈ par.variants, ¬(u.pre.holds par.caps par.word64 = true ∧ 6 ∈ u.genNp) :=
  ⟨{ defaultParams with variants := variants9, caps := [.wideVector128] },
    [⟨1, .always, [1, 2, 3], [1]⟩], [], ⟨2, .has .wideVector128, [2], []⟩, rfl, by decide, by decide,
    by decide, by decide⟩

theorem test_witness_SetmodeSetsCauchy :
    ∃ (s : State) (x : Context) (r : ReadyRegs), s.idleTurn x ∧ s.engine = .ready r ∧
      s.serialFor (.setmode 0x00) :=
  ⟨calmState, _, _, calm_idle, rfl, calm_serial calm_calm _⟩

/-! Generation and recovery. -/

/-- One data block at 0 and one parity block at 64. -/
def small : BlockArgs := ⟨1, 1, 64, [0, 64], []⟩

/-- `nd = 0` and six parity blocks, all lost. -/
def allLost : BlockArgs := ⟨6, 0, 64, [0, 64, 128, 192, 256, 320], [0, 1, 2, 3, 4, 5]⟩

theorem apart_of_all {b : BlockArgs} {ks : List Nat}
    (h : (ks.all fun k => (List.range (b.nd + b.np)).all fun k' =>
      k' == k || !(b.span k).meets (b.span k')) = true) : b.apart ks := by
  intro k hk k' hk' hne
  simp only [List.all_eq_true, List.mem_range, Bool.or_eq_true, beq_iff_eq, Bool.not_eq_true'] at h
  exact (h k hk k' hk').resolve_left hne

theorem test_witness_GenrefWritesTheReferenceParity :
    ∃ (b : BlockArgs) (s : State) (x : Context) (r : ReadyRegs), s.idleTurn x ∧ s.engine = .ready r ∧
      s.serialFor (.genref b.np) ∧ memWf s.hm = true ∧ b.inDomain s.par ∧ b.loss = [] ∧ x.holdsBlocks b ∧
      b.inSpace ∧ b.apart b.parity ∧ s.raceFreeFor (Flight.genOf (.genref b.np) b) :=
  ⟨args4, _, _, _, work_idle args4, rfl, calm_serial (work_calm _) _, by decide, by unfold BlockArgs.inDomain; decide, rfl,
    argCtx_blocks (by decide) (by decide) (by decide) (by decide) (by decide), by unfold BlockArgs.inSpace; decide,
    apart_of_all (by decide), calm_race (work_calm _) _⟩

/-- The counts, sizes, addresses and indices fit their domains and registers. -/
def fits (b : BlockArgs) : Bool :=
  decide (1 ≤ b.np) && decide (b.np ≤ Config.parityMax) && decide (b.nd ≤ 251) &&
    decide (1 ≤ b.size) && decide (b.size < 2 ^ 64) && decide (b.vec.length = b.nd + b.np) &&
    (b.vec.all fun a => decide (a < 2 ^ 64)) && decide (b.loss.length ≤ Config.parityMax) &&
    (b.loss.all fun l => decide (l < 2 ^ 16))

theorem fits_held {b : BlockArgs} (h : fits b = true) :
    b.inDomain defaultParams ∧ (argCtx b.nd b.size b.vec b.loss).holdsBlocks b ∧
      (argCtx b.nd b.size b.vec b.loss).holdsLoss b := by
  obtain ⟨np, nd, size, vec, loss⟩ := b
  simp only [fits, Bool.and_eq_true, decide_eq_true_eq, List.all_eq_true] at h
  obtain ⟨⟨⟨⟨⟨⟨⟨⟨h1, h2⟩, h3⟩, h4⟩, h5⟩, h6⟩, h7⟩, h8⟩, h9⟩ := h
  have h3' : nd ≤ 251 := h3
  have h2' : np ≤ 6 := h2
  exact ⟨⟨h1, h2, h3, h4⟩, argCtx_blocks (show nd < 2 ^ 32 by omega) h5 h6 (show nd + np ≤ 257 by omega) h7,
    argCtx_loss h8 h9⟩

theorem inSpace_of {b : BlockArgs} (h : (List.range (b.nd + b.np)).all
    (fun k => decide (b.addr k + b.size ≤ 2 ^ Config.addrW)) = true) : b.inSpace := by
  intro k hk
  simpa using List.all_eq_true.1 h k (List.mem_range.2 hk)

theorem aligned_of {b : BlockArgs} (h : (decide (b.size % 64 = 0) &&
    (List.range (b.nd + b.np)).all fun k => decide (b.addr k % 64 = 0)) = true) :
    b.aligned defaultParams := by
  simp only [Bool.and_eq_true, decide_eq_true_eq, List.all_eq_true, List.mem_range] at h
  exact h

theorem ok_of_fits {b : BlockArgs} (h : fits b = true) (h1 : b.inSpace)
    (h2 : lossValid (b.nd + b.np) b.loss = true) (h3 : b.loss.length ≤ b.np) :
    b.ok defaultParams = true :=
  BlockArgs.ok_of (fits_held h).1 h1 (fits_held h).2.1.2.2.1 h2 h3
    (Context.holdsBlocks_inRegisters (fits_held h).2.1 (fits_held h).2.2)

/-- A size of 2^64 fits no `SIZE`, an `nd` of 2^32 no `ND`, an index of 2^16 no `LOSS` (10_state.md R39). -/
theorem test_in_registers :
    (⟨1, 0, 2 ^ 64, [0], []⟩ : BlockArgs).inRegisters = false ∧
    (⟨1, 0, 2 ^ 64 - 64, [0], []⟩ : BlockArgs).inRegisters = true ∧
    (⟨1, 2 ^ 32, 64, [], []⟩ : BlockArgs).inRegisters = false ∧
    (⟨1, 1, 64, [0, 64], [2 ^ 16]⟩ : BlockArgs).inRegisters = false := by decide

theorem small_ok : small.ok defaultParams = true :=
  ok_of_fits (by decide) (inSpace_of (by decide)) (by decide) (by decide)

theorem small_fits : fits small = true := by decide
theorem lost_fits : fits allLost = true := by decide
theorem lost_ok : allLost.lossOk := by unfold BlockArgs.lossOk; decide

theorem test_witness_GenWritesTheKernelParity :
    ∃ (b : BlockArgs) (s : State) (x : Context) (r : ReadyRegs), s.idleTurn x ∧ s.engine = .ready r ∧
      s.serialFor (.gen b.np) ∧ memWf s.hm = true ∧ b.inDomain s.par ∧ b.loss = [] ∧ x.holdsBlocks b ∧
      b.inSpace ∧ b.aligned s.par ∧ b.apart b.parity ∧ s.raceFreeFor (Flight.genOf (.gen b.np) b) :=
  ⟨small, workState small, _, _, work_idle small, rfl, calm_serial (work_calm _) _, by decide,
    (fits_held small_fits).1, rfl, (fits_held small_fits).2.1, inSpace_of (by decide),
    aligned_of (by decide), apart_of_all (by decide), calm_race (work_calm _) _⟩

theorem test_witness_ConformingGenMatchesGenref :
    ∃ (b : BlockArgs) (s : State) (r : ReadyRegs), s.engine = .ready r ∧ memWf s.hm = true ∧
      b.ok s.par = true ∧ 1 ≤ b.size ∧ b.aligned s.par ∧ b.apart b.parity ∧
      r.genSlotOf b.np = 0 ∧ s.turn < s.ctxs.length :=
  ⟨small, workState small, _, rfl, by decide, small_ok, by decide, aligned_of (by decide),
    apart_of_all (by decide), by decide, by decide⟩

theorem table_mul (a b : Byte) : mulAt regs.mul a b = gfmulPoly Config.defaultPoly a b := by
  simp [regs, initRegs, defaultParams, mulAt, mulTable, tabulate]

/-- All 251 columns. -/
theorem test_witness_ReferenceParityCornerCases :
    ∃ (r : ReadyRegs) (poly : Poly), polyIrreducible poly = true ∧ r.mul = mulTable poly ∧
      r.genT = defaultGen poly ∧ 251 ≤ r.genT.ndMax :=
  ⟨regs, _, poly_default, rfl, rfl, le_refl _⟩

/-- Two blocks at 0 and 64; the data block is lost. -/
def dataLost : BlockArgs := ⟨1, 1, 64, [0, 64], [0]⟩

theorem data_solvable : dataLost.solvable regs := .inr (by decide)

/-- All six parity blocks lost; then a data block lost. -/
theorem test_witness_RecWritesTheLostBlocks :
    ∀ b ∈ [allLost, dataLost], ∃ (s : State) (x : Context) (r : ReadyRegs), s.idleTurn x ∧
      s.engine = .ready r ∧ s.serialFor (.recover b.np b.loss.length) ∧ memWf s.hm = true ∧
      b.inDomain s.par ∧ b.lossOk ∧ x.holdsBlocks b ∧ x.holdsLoss b ∧ b.inSpace ∧ b.aligned s.par ∧ b.solvable r ∧
      b.apart b.loss ∧ s.raceFreeFor (Flight.recOf (.recover b.np b.loss.length) b) := by
  have main : ∀ b : BlockArgs, fits b = true → b.lossOk → b.inSpace → b.aligned defaultParams → b.solvable regs →
      b.apart b.loss → ∃ (s : State) (x : Context) (r : ReadyRegs), s.idleTurn x ∧
      s.engine = .ready r ∧ s.serialFor (.recover b.np b.loss.length) ∧ memWf s.hm = true ∧
      b.inDomain s.par ∧ b.lossOk ∧ x.holdsBlocks b ∧ x.holdsLoss b ∧ b.inSpace ∧ b.aligned s.par ∧ b.solvable r ∧
      b.apart b.loss ∧ s.raceFreeFor (Flight.recOf (.recover b.np b.loss.length) b) :=
    fun b h1 h2 h3 h4 h5 h6 =>
    ⟨workState b, argCtx b.nd b.size b.vec b.loss, regs, work_idle b, rfl, calm_serial (work_calm _) _,
      (by decide : memWf [(0, 0x53)] = true), (fits_held h1).1, h2, (fits_held h1).2.1,
      (fits_held h1).2.2, h3, h4, h5, h6, calm_race (work_calm _) _⟩
  intro b hb
  simp only [List.mem_cons, List.not_mem_nil, or_false] at hb
  rcases hb with rfl | rfl
  · exact main _ lost_fits lost_ok (inSpace_of (by decide)) (aligned_of (by decide)) (.inl (by decide))
      (apart_of_all (by decide))
  · exact main _ (by decide) (by unfold BlockArgs.lossOk; decide) (inSpace_of (by decide))
      (aligned_of (by decide)) data_solvable (apart_of_all (by decide))

/-- `np = 6` with six losses; `np = 6` and `np = 1` with one more; `np = 0` and `np = 7`. -/
theorem test_witness_LossCountBoundary :
    (∃ (b : BlockArgs) (s : State) (x : Context) (r : ReadyRegs), b.np = 6 ∧ s.idleTurn x ∧
      s.engine = .ready r ∧ s.serialFor (.recover b.np b.np) ∧ b.inDomain s.par ∧ b.loss.length = b.np ∧
      b.lossOk ∧ x.holdsBlocks b ∧ x.holdsLoss b ∧ b.inSpace ∧ b.aligned s.par ∧ b.solvable r ∧
      b.apart b.loss ∧ s.raceFreeFor (Flight.recOf (.recover b.np b.np) b)) ∧
    ∃ (s : State) (x : Context) (r : ReadyRegs), s.idleTurn x ∧ s.engine = .ready r ∧
      (∀ np, (np = 1 ∨ np = 6) →
        s.serialFor (.recover np (np + 1)) ∧ 1 ≤ np ∧ np ≤ Config.parityMax) ∧
      ∀ np nr, (np = 0 ∨ np = 7) →
        s.serialFor (.recover np nr) ∧ (np = 0 ∨ Config.parityMax < np) :=
  ⟨⟨allLost, workState allLost, _, _, rfl, work_idle allLost, rfl, calm_serial (work_calm _) _,
      (fits_held lost_fits).1, rfl, lost_ok, (fits_held lost_fits).2.1, (fits_held lost_fits).2.2,
      inSpace_of (by decide), aligned_of (by decide), .inl (by decide), apart_of_all (by decide),
      calm_race (work_calm _) _⟩,
    calmState, _, _, calm_idle, rfl,
    fun np h => ⟨calm_serial calm_calm _, by rcases h with rfl | rfl <;> decide⟩,
    fun np nr h => ⟨calm_serial calm_calm _, by rcases h with rfl | rfl <;> decide⟩⟩

/-- Every form: `GENREF 7`, `GEN 0`, `REC 0, 0`, `REC 6, 7`. -/
theorem test_witness_CountErrorsWriteOnlyStatus :
    ∀ p ∈ ([(.genref 7, 0x01), (.gen 0, 0x01), (.recover 0 0, 0x01), (.recover 6 7, 0x02)] :
        List (Instr × Byte)),
      ∃ (s : State) (x : Context) (r : ReadyRegs), s.idleTurn x ∧ s.engine = .ready r ∧ s.serialFor p.1 ∧
        (((∃ np, (p.1 = .genref np ∨ p.1 = .gen np ∨ ∃ nr, p.1 = .recover np nr) ∧
            (np = 0 ∨ Config.parityMax < np)) ∧ p.2 = 0x01) ∨
          ((∃ np nr, p.1 = .recover np nr ∧ 1 ≤ np ∧ np ≤ Config.parityMax ∧ np < nr) ∧ p.2 = 0x02)) := by
  intro p hp
  refine ⟨calmState, _, _, calm_idle, rfl, calm_serial calm_calm _, ?_⟩
  simp only [List.mem_cons, List.not_mem_nil, or_false] at hp
  rcases hp with rfl | rfl | rfl | rfl
  · exact .inl ⟨⟨7, .inl rfl, by decide⟩, rfl⟩
  · exact .inl ⟨⟨0, .inr (.inl rfl), by decide⟩, rfl⟩
  · exact .inl ⟨⟨0, .inr (.inr ⟨0, rfl⟩), by decide⟩, rfl⟩
  · exact .inr ⟨⟨6, 7, rfl, by decide, by decide, by decide⟩, rfl⟩

/-- `READY` with a `GEN_T` of zeros, for which every loss of data is singular. -/
def zeroRegs : ReadyRegs := { regs with genT := ⟨251, tabulate _ fun _ => tabulate _ fun _ => 0⟩ }

def zeroState (b : BlockArgs) : State := { workState b with engine := .ready zeroRegs }

theorem zero_calm (b : BlockArgs) : ∀ x ∈ (zeroState b).ctxs, x.inflight = none := work_calm b

/-- `np = 1` and `np = 6` with `nr = 0`; the loss sets `[1, 1]` and `[2]` of a two-block command with one
parity block and of a two-parity one; a singular submatrix. -/
theorem test_witness_BadLossSetsFault :
    (∀ np, (np = 1 ∨ np = 6) → ∃ (s : State) (x : Context) (r : ReadyRegs), s.idleTurn x ∧
      s.engine = .ready r ∧ s.serialFor (.recover np 0) ∧ 1 ≤ np ∧ np ≤ Config.parityMax) ∧
    (∀ b ∈ ([⟨2, 0, 64, [0, 64], [1, 1]⟩, ⟨1, 1, 64, [0, 64], [2]⟩] : List BlockArgs),
      ∃ (s : State) (x : Context) (r : ReadyRegs), s.idleTurn x ∧ s.engine = .ready r ∧
        s.serialFor (.recover b.np b.loss.length) ∧ b.inDomain s.par ∧ 1 ≤ b.loss.length ∧
        b.loss.length ≤ b.np ∧ (∃ v, x.nd = some v ∧ v.toNat = b.nd) ∧
        (∃ v, x.size = some v ∧ v.toNat = b.size) ∧ x.holdsLoss b ∧
        lossValid (b.nd + b.np) b.loss = false) ∧
    ∃ (b : BlockArgs) (s : State) (x : Context) (r : ReadyRegs), s.idleTurn x ∧ s.engine = .ready r ∧
      s.serialFor (.recover b.np b.loss.length) ∧ x.holdsArgs s.par (.recover b.np b.loss.length) b ∧
      b.inSpace ∧ b.aligned s.par ∧ ¬b.solvable r := by
  refine ⟨fun np h => ⟨calmState, _, _, calm_idle, rfl, calm_serial calm_calm _, ?_⟩, ?_, ?_⟩
  · rcases h with rfl | rfl <;> decide
  · have main : ∀ b : BlockArgs, fits b = true → 1 ≤ b.loss.length → b.loss.length ≤ b.np →
        lossValid (b.nd + b.np) b.loss = false → ∃ (s : State) (x : Context) (r : ReadyRegs),
        s.idleTurn x ∧ s.engine = .ready r ∧
        s.serialFor (.recover b.np b.loss.length) ∧ b.inDomain s.par ∧ 1 ≤ b.loss.length ∧
        b.loss.length ≤ b.np ∧ (∃ v, x.nd = some v ∧ v.toNat = b.nd) ∧
        (∃ v, x.size = some v ∧ v.toNat = b.size) ∧ x.holdsLoss b ∧
        lossValid (b.nd + b.np) b.loss = false := fun b h1 h2 h3 h4 =>
      ⟨workState b, argCtx b.nd b.size b.vec b.loss, regs, work_idle b, rfl, calm_serial (work_calm _) _,
        (fits_held h1).1, h2, h3, (fits_held h1).2.1.1, (fits_held h1).2.1.2.1, (fits_held h1).2.2, h4⟩
    intro b hb
    simp only [List.mem_cons, List.not_mem_nil, or_false] at hb
    rcases hb with rfl | rfl <;> exact main _ (by decide) (by decide) (by decide) (by decide)
  · have h := fits_held (b := dataLost) (by decide)
    refine ⟨dataLost, zeroState dataLost, argCtx 1 64 [0, 64] [0], zeroRegs, ⟨rfl, rfl, rfl⟩, rfl,
      calm_serial (zero_calm _) _, ⟨by unfold countsOk; decide, rfl, rfl, h.1, h.2.1, fun _ => ⟨h.2.2, ?_⟩⟩,
      inSpace_of (by decide), aligned_of (by decide), ?_⟩
    · unfold BlockArgs.lossOk; decide
    · rintro (h | h)
      · revert h; decide
      · revert h; decide

/-! Argument and placement faults. -/

/-- A `READY` state with one context and nothing in flight. -/
def one (x : Context) : State := readyState [x] []

theorem one_calm {x : Context} (h : x.inflight = none) : ∀ y ∈ (one x).ctxs, y.inflight = none := by
  simp [one, readyState, h]

/-- `ND` unwritten; `SIZE` unwritten with `ND = 251`; `LOSS[0]` and `LOSS[5]` unwritten for `nr = 6`;
`VEC[0]`, and `VEC[256]` for `nd = 251`, `np = 6`; `VEC[1]` of a `REC`. -/
theorem test_witness_UnwrittenArgumentFaults :
    (∃ (i : Instr) (s : State) (x : Context) (r : ReadyRegs), s.idleTurn x ∧ s.engine = .ready r ∧
      s.serialFor i ∧ countsOk i ∧ x.nd = none) ∧
    (∃ (i : Instr) (s : State) (x : Context) (r : ReadyRegs) (v : BitVec 32), s.idleTurn x ∧
      s.engine = .ready r ∧ s.serialFor i ∧ countsOk i ∧ x.nd = some v ∧ v.toNat ≤ s.par.gen.ndMax ∧
      x.size = none) ∧
    (∀ k, (k = 0 ∨ k = 5) → ∃ (s : State) (x : Context) (r : ReadyRegs) (v : BitVec 32) (w : Addr),
      s.idleTurn x ∧ s.engine = .ready r ∧ s.serialFor (.recover 6 6) ∧ countsOk (.recover 6 6) ∧
      x.nd = some v ∧ v.toNat ≤ s.par.gen.ndMax ∧ x.size = some w ∧ 1 ≤ w.toNat ∧ k < 6 ∧
      x.loss[k]? = some none ∧ ∀ k', k' < k → ∃ u, x.loss[k']? = some (some u)) ∧
    (∀ k, (k = 0 ∨ k = 256) → ∃ (i : Instr) (s : State) (x : Context) (r : ReadyRegs) (v : BitVec 32)
      (w : Addr), s.idleTurn x ∧ s.engine = .ready r ∧ s.serialFor i ∧ countsOk i ∧ hasLoss i = false ∧
      x.nd = some v ∧ v.toNat ≤ s.par.gen.ndMax ∧ x.size = some w ∧ 1 ≤ w.toNat ∧
      k < v.toNat + countOf i ∧ x.vec[k]? = some none ∧
      ∀ k', k' < k → ∃ u, x.vec[k']? = some (some u)) ∧
    (∃ (b : BlockArgs) (s : State) (x : Context) (r : ReadyRegs) (k : Nat), s.idleTurn x ∧
      s.engine = .ready r ∧ s.serialFor (.recover b.np b.loss.length) ∧ b.inDomain s.par ∧ b.lossOk ∧
      (∃ v, x.nd = some v ∧ v.toNat = b.nd) ∧ (∃ v, x.size = some v ∧ v.toNat = b.size) ∧
      x.holdsLoss b ∧ k < b.nd + b.np ∧ x.vec[k]? = some none ∧
      ∀ k', k' < k → ∃ u, x.vec[k']? = some (some u)) := by
  have c6 : countsOk (.recover 6 6) := by unfold countsOk; decide
  have g6 : countsOk (.gen 6) := by unfold countsOk; decide
  refine ⟨⟨.gen 6, one ctx0, _, _, ⟨rfl, rfl, rfl⟩, rfl, calm_serial (one_calm rfl) _, g6, rfl⟩,
    ⟨.recover 6 6, one { ctx0 with nd := some 251 }, _, _, 251, ⟨rfl, rfl, rfl⟩, rfl,
      calm_serial (one_calm rfl) _, c6, rfl, by decide, rfl⟩, fun k hk => ?_, fun k hk => ?_, ?_⟩
  · refine ⟨one { argCtx 0 1 [] [] with loss := Vector.replicate 6 (some 0) |>.setIfInBounds k none }, _,
      _, 0, 1, ⟨rfl, rfl, rfl⟩, rfl, calm_serial (one_calm rfl) _, c6, rfl, Nat.zero_le _, rfl, by decide, ?_⟩
    rcases hk with rfl | rfl
    · exact ⟨by decide, by decide, fun k' h => absurd h (Nat.not_lt_zero _)⟩
    · exact ⟨by decide, by decide, fun k' h => ⟨0, by revert k'; decide⟩⟩
  · refine ⟨.gen 6, one { argCtx 251 1 [] [] with
      vec := List.replicate 257 (some 0) |>.set k none }, _,
      _, 251, 1, ⟨rfl, rfl, rfl⟩, rfl, calm_serial (one_calm rfl) _, g6, rfl, rfl, le_refl 251, rfl,
      by decide, ?_⟩
    rcases hk with rfl | rfl
    · exact ⟨by decide, by decide +kernel, fun k' h => absurd h (Nat.not_lt_zero _)⟩
    · exact ⟨by decide, by decide +kernel, fun k' h => ⟨0, by revert k'; decide +kernel⟩⟩
  · have h := fits_held (b := dataLost) (by decide)
    exact ⟨dataLost, one { argCtx 1 64 [0] [0] with prog := [] }, _, _, 1, ⟨rfl, rfl, rfl⟩, rfl,
      calm_serial (one_calm rfl) _, h.1, by unfold BlockArgs.lossOk; decide, h.2.1.1, h.2.1.2.1, h.2.2,
      by decide, by decide +kernel, fun k' hk' => ⟨0, by revert k'; decide +kernel⟩⟩

/-- `nd = 252`; `size = 0` with `nd = 251`. -/
theorem test_witness_ArgumentsOutOfDomainFault :
    (∃ (i : Instr) (s : State) (x : Context) (r : ReadyRegs) (v : BitVec 32), s.idleTurn x ∧
      s.engine = .ready r ∧ s.serialFor i ∧ countsOk i ∧ x.nd = some v ∧ s.par.gen.ndMax < v.toNat) ∧
    (∃ (i : Instr) (s : State) (x : Context) (r : ReadyRegs) (v : BitVec 32), s.idleTurn x ∧
      s.engine = .ready r ∧ s.serialFor i ∧ countsOk i ∧ x.nd = some v ∧ v.toNat ≤ s.par.gen.ndMax ∧
      x.size = some 0) :=
  ⟨⟨.genref 1, one (argCtx 252 1 [] []), _, _, 252, ⟨rfl, rfl, rfl⟩, rfl, calm_serial (one_calm rfl) _,
      by unfold countsOk; decide, rfl, by decide⟩,
    .recover 1 1, one (argCtx 251 0 [] []), _, _, 251, ⟨rfl, rfl, rfl⟩, rfl,
      calm_serial (one_calm rfl) _, by unfold countsOk; decide, rfl, by decide, rfl⟩

/-- `x` and `s` of a block command on the arguments `b`. -/
theorem work_args {i : Instr} {b : BlockArgs} (h : fits b = true) (hc : countsOk i)
    (h1 : b.np = countOf i) (h2 : b.loss.length = lossCountOf i) (h3 : hasLoss i = true → b.lossOk) :
    (workState b).idleTurn (argCtx b.nd b.size b.vec b.loss) ∧ (workState b).engine = .ready regs ∧
      (workState b).serialFor i ∧ (argCtx b.nd b.size b.vec b.loss).holdsArgs defaultParams i b :=
  ⟨work_idle b, rfl, calm_serial (work_calm _) _, hc, h1, h2, (fits_held h).1, (fits_held h).2.1,
    fun e => ⟨(fits_held h).2.2, h3 e⟩⟩

/-- A block that ends at `2^64 + 1`, after one that ends at `2^64`. -/
theorem test_witness_WrappingBlockFaults :
    ∃ (i : Instr) (b : BlockArgs) (s : State) (x : Context) (r : ReadyRegs) (k : Nat), s.idleTurn x ∧
      s.engine = .ready r ∧ s.serialFor i ∧ x.holdsArgs s.par i b ∧ k < b.nd + b.np ∧
      2 ^ 64 < b.addr k + b.size ∧ ∀ k', k' < k → b.addr k' + b.size ≤ 2 ^ 64 := by
  obtain ⟨h1, h2, h3, h4⟩ := work_args (i := .genref 1) (b := ⟨1, 1, 2, [2 ^ 64 - 2, 2 ^ 64 - 1], []⟩)
    (by decide) (by unfold countsOk; decide) rfl rfl (by simp [hasLoss])
  exact ⟨_, _, _, _, _, 1, h1, h2, h3, h4, by decide, by decide, by decide⟩

/-- A size of 65; then a last block at an odd address. -/
theorem test_witness_MisplacedBlocksFault :
    (∃ (i : Instr) (b : BlockArgs) (s : State) (x : Context) (r : ReadyRegs), s.idleTurn x ∧
      s.engine = .ready r ∧ s.serialFor i ∧ x.holdsArgs s.par i b ∧ b.inSpace ∧ constrained i = true ∧
      b.size % s.par.sizeGranule ≠ 0) ∧
    ∃ (i : Instr) (b : BlockArgs) (s : State) (x : Context) (r : ReadyRegs) (k : Nat), s.idleTurn x ∧
      s.engine = .ready r ∧ s.serialFor i ∧ x.holdsArgs s.par i b ∧ b.inSpace ∧ constrained i = true ∧
      b.size % s.par.sizeGranule = 0 ∧ k < b.nd + b.np ∧ b.addr k % s.par.blockAlign ≠ 0 ∧
      ∀ k', k' < k → b.addr k' % s.par.blockAlign = 0 := by
  obtain ⟨h1, h2, h3, h4⟩ := work_args (i := .gen 1) (b := ⟨1, 1, 65, [0, 128], []⟩)
    (by decide) (by unfold countsOk; decide) rfl rfl (by simp [hasLoss])
  obtain ⟨g1, g2, g3, g4⟩ := work_args (i := .recover 1 1) (b := ⟨1, 1, 64, [0, 65], [0]⟩)
    (by decide) (by unfold countsOk; decide) rfl rfl (fun _ => by unfold BlockArgs.lossOk; decide)
  exact ⟨⟨_, _, _, _, _, h1, h2, h3, h4, inSpace_of (by decide), rfl, by decide⟩,
    _, _, _, _, _, 1, g1, g2, g3, g4, inSpace_of (by decide), rfl, by decide, by decide, by decide,
    by decide⟩

/-- The parity block begins at the last byte of the data block. -/
theorem test_witness_OverlappingDestinationFaults :
    ∃ (i : Instr) (b : BlockArgs) (s : State) (x : Context) (r : ReadyRegs), s.idleTurn x ∧
      s.engine = .ready r ∧ s.serialFor i ∧ x.holdsArgs s.par i b ∧ b.inSpace ∧
      (constrained i = true → b.aligned s.par) ∧ (hasLoss i = true → b.solvable r) ∧
      ¬b.apart (destsOf i b) := by
  obtain ⟨h1, h2, h3, h4⟩ := work_args (i := .genref 1) (b := ⟨1, 1, 64, [0, 63], []⟩)
    (by decide) (by unfold countsOk; decide) rfl rfl (by simp [hasLoss])
  exact ⟨_, _, _, _, _, h1, h2, h3, h4, inSpace_of (by decide), by simp [constrained],
    by simp [hasLoss], fun h => absurd (h 1 (by decide) 0 (by decide) (by decide)) (by decide)⟩

/-- Context 1 has a `GENREF` in flight that writes the block context 0 reads. -/
theorem test_witness_ConflictingFootprintFaults :
    ∃ (i : Instr) (b : BlockArgs) (s : State) (x : Context) (r : ReadyRegs), s.idleTurn x ∧
      s.engine = .ready r ∧ s.serialFor i ∧ x.holdsArgs s.par i b ∧ b.inSpace ∧
      (constrained i = true → b.aligned s.par) ∧ (hasLoss i = true → b.solvable r) ∧
      b.apart (destsOf i b) ∧ ¬s.raceFreeFor (recordOf i b) := by
  obtain ⟨-, -, -, h4⟩ := work_args (i := .genref 1) (b := small)
    (by decide) (by unfold countsOk; decide) rfl rfl (by simp [hasLoss])
  refine ⟨_, small, readyState [argCtx 1 64 [0, 64] [], flying ctx0
    (Flight.genOf (.genref 1) ⟨1, 1, 1, [200, 63], []⟩)] [], _, _, ⟨rfl, rfl, rfl⟩, rfl, ?_, h4,
    inSpace_of (by decide), by simp [constrained], by simp [hasLoss], apart_of_all (by decide),
    fun h => absurd (h 1 (by decide) _ rfl) (by decide)⟩
  intro c _ f hf
  match c, hf with
  | 0, hf => cases hf
  | 1, hf => cases hf; decide
  | c + 2, hf => cases hf

/-! Self-test. -/

theorem test_witness_SelftestReportsItsChecks :
    ∃ (s : State) (x : Context) (r : ReadyRegs), s.idleTurn x ∧ s.engine = .ready r ∧
      s.serialFor .selftest :=
  ⟨calmState, _, _, calm_idle, rfl, calm_serial calm_calm _⟩

/-! Frames. -/

/-- An outcome that is a next state. -/
theorem answers {o : Result} (h : after o (fun _ => ()) = some ()) : ∃ t, o = .next t := by
  cases o with
  | next t => exact ⟨t, rfl⟩
  | fault k => cases h
  | refused k => cases h

/-- `INIT` in flight in `READY`, and the four other commands without blocks. -/
theorem test_witness_FrameOfCommandsWithoutBlocks :
    ∀ i ∈ ([.init, .setmode 0, .gfmul 2 3, .gfcoef 5 250, .selftest] : List Instr),
      (i = .init ∨ (∃ m, i = .setmode m) ∨ (∃ a b, i = .gfmul a b) ∨ (∃ j d, i = .gfcoef j d) ∨
        i = .selftest) ∧
      ∃ (s t : State) (x : Context) (f : Flight), s.ctxs[s.turn]? = some x ∧ x.inflight = some f ∧
        exec i s = .next t := by
  have main : ∀ i : Instr,
      after (exec i (one (flying ctx0 (Flight.plainOf i)))) (fun _ => ()) = some () →
      ∃ (s t : State) (x : Context) (f : Flight), s.ctxs[s.turn]? = some x ∧ x.inflight = some f ∧
        exec i s = .next t := fun i h =>
    (answers h).elim fun t ht => ⟨_, t, _, _, rfl, rfl, ht⟩
  intro i hi
  simp only [List.mem_cons, List.not_mem_nil, or_false] at hi
  rcases hi with rfl | rfl | rfl | rfl | rfl
  · exact ⟨.inl rfl, main _ (by decide)⟩
  · exact ⟨.inr (.inl ⟨_, rfl⟩), main _ (by decide)⟩
  · exact ⟨.inr (.inr (.inl ⟨_, _, rfl⟩)), main _ (by decide)⟩
  · exact ⟨.inr (.inr (.inr (.inl ⟨_, _, rfl⟩))), main _ (by decide)⟩
  · exact ⟨.inr (.inr (.inr (.inr rfl))), main _ (by decide)⟩

/-- `GENREF`, `GEN` and `REC` in flight on the blocks of `small` and `dataLost`. -/
theorem test_witness_FrameOfBlockCommands :
    ∀ p ∈ ([(.genref 1, small), (.gen 1, small), (.recover 1 1, dataLost)] : List (Instr × BlockArgs)),
      ((∃ np, p.1 = .genref np) ∨ (∃ np, p.1 = .gen np) ∨ ∃ np nr, p.1 = .recover np nr) ∧
      ∃ (s t : State) (x : Context) (f : Flight), memWf s.hm = true ∧ s.ctxs[s.turn]? = some x ∧
        x.inflight = some f ∧ f.args = .blocks p.2 ∧ exec p.1 s = .next t := by
  have main : ∀ (i : Instr) (b : BlockArgs),
      after (exec i (one (flying ctx0 (recordOf i b)))) (fun _ => ()) = some () →
      (recordOf i b).args = .blocks b →
      ∃ (s t : State) (x : Context) (f : Flight), memWf s.hm = true ∧ s.ctxs[s.turn]? = some x ∧
        x.inflight = some f ∧ f.args = .blocks b ∧ exec i s = .next t := fun i b h h' =>
    (answers h).elim fun t ht => ⟨_, t, _, _, by rfl, rfl, rfl, h', ht⟩
  intro p hp
  simp only [List.mem_cons, List.not_mem_nil, or_false] at hp
  rcases hp with rfl | rfl | rfl
  · exact ⟨.inl ⟨_, rfl⟩, main _ _ (by decide) rfl⟩
  · exact ⟨.inr (.inl ⟨_, rfl⟩), main _ _ (by decide) rfl⟩
  · exact ⟨.inr (.inr ⟨_, _, rfl⟩), main _ _ (by decide) rfl⟩

/-! Host actions. -/

/-- Each writable register, `VEC` and `LOSS` at their last index; then `VEC` at the first index there is not. -/
theorem test_witness_HostWriteStoresTheRegister :
    (∀ act ∈ ([.wrNd 1, .wrSize 2, .wrVec 256 3, .wrLoss 5 4, .wrVec 257 3] : List HostAction),
      ∃ (s s' : State) (x : Context), s.nextTurn = some s' ∧ s'.idleTurn x ∧ x.prog = [act] ∧
        s.par.vecCount = 257) :=
  fun act _ => ⟨hostState act, hostState act, { ctx0 with prog := [act] }, rfl, ⟨rfl, rfl, rfl⟩, rfl, rfl⟩

/-- A written register, an unwritten one, `CMD`, and a register there is not. -/
theorem test_witness_HostReadReturnsTheRegister :
    (∃ (s s' : State) (x : Context) (v : BitVec 64), s.nextTurn = some s' ∧ s'.idleTurn x ∧
      x.prog = [.rd (.vec 256)] ∧ (ReadReg.vec 256).wf s.par.vecCount = true ∧
      regValue x (.vec 256) = some v) ∧
    (∃ (s s' : State) (x : Context) (name : RegName), s.nextTurn = some s' ∧ s'.idleTurn x ∧
      x.prog = [.rd (.loss 5)] ∧ regName (.loss 5) = some name ∧ regValue x (.loss 5) = none ∧
      (ReadReg.loss 5).wf s.par.vecCount = true) ∧
    (∃ (s s' : State) (x : Context), s.nextTurn = some s' ∧ s'.idleTurn x ∧ x.prog = [.rd .cmd]) ∧
    ∃ (s s' : State) (x : Context), s.nextTurn = some s' ∧ s'.idleTurn x ∧ x.prog = [.rd (.vec 257)] ∧
      (ReadReg.vec 257).wf s.par.vecCount = false :=
  ⟨⟨one { ctx0 with prog := [.rd (.vec 256)], vec := List.replicate 257 (some 7) },
      one { ctx0 with prog := [.rd (.vec 256)], vec := List.replicate 257 (some 7) }, _, 7,
      by rfl, ⟨rfl, rfl, rfl⟩, rfl, by decide, by decide⟩,
    ⟨hostState (.rd (.loss 5)), hostState (.rd (.loss 5)), _, .loss 5, by rfl, ⟨rfl, rfl, rfl⟩, rfl, rfl,
      by decide, rfl⟩,
    ⟨hostState (.rd .cmd), hostState (.rd .cmd), _, by rfl, ⟨rfl, rfl, rfl⟩, rfl⟩,
    hostState (.rd (.vec 257)), hostState (.rd (.vec 257)), _, by rfl, ⟨rfl, rfl, rfl⟩, rfl, by decide⟩

/-- Host agent 0 has the turn and `act` to do; context 1 reads bytes 0 to 63 and writes 64 to 127. -/
def accessState (act : HostAction) : State :=
  { readyState [{ ctx0 with prog := [act] },
      flying ctx0 (Flight.genOf (.genref 1) small)] [] with sched := [0] }

theorem access_turn (act : HostAction) : ∃ (s s' : State) (x : Context), s.nextTurn = some s' ∧
    s'.idleTurn x ∧ x.prog = [act] ∧ s'.flight? 1 = some (Flight.genOf (.genref 1) small) ∧
    ∀ c f, s'.flight? c = some f → f = Flight.genOf (.genref 1) small := by
  refine ⟨accessState act, { accessState act with sched := [] }, _, rfl, ⟨rfl, rfl, rfl⟩, rfl, rfl, ?_⟩
  intro c f hf
  match c, hf with
  | 0, hf => cases hf
  | 1, hf => cases hf; rfl
  | c + 2, hf => cases hf

/-- A write of byte 128 is free and of byte 63 is not; a read of byte 63 is free and of byte 64 is not. -/
theorem test_witness_HostMemoryAccessRespectsFootprints :
    (∃ (s s' : State) (x : Context), s.nextTurn = some s' ∧ s'.idleTurn x ∧ x.prog = [.mw 128 1] ∧
      ∀ c f, s'.flight? c = some f → spansHold f.rd 128 = false ∧ spansHold f.wr 128 = false) ∧
    (∃ (s s' : State) (x : Context), s.nextTurn = some s' ∧ s'.idleTurn x ∧ x.prog = [.mw 63 1] ∧
      ∃ c f, s'.flight? c = some f ∧ (spansHold f.rd 63 = true ∨ spansHold f.wr 63 = true)) ∧
    (∃ (s s' : State) (x : Context), s.nextTurn = some s' ∧ s'.idleTurn x ∧ x.prog = [.mr 63] ∧
      ∀ c f, s'.flight? c = some f → spansHold f.wr 63 = false) ∧
    ∃ (s s' : State) (x : Context), s.nextTurn = some s' ∧ s'.idleTurn x ∧ x.prog = [.mr 64] ∧
      ∃ c f, s'.flight? c = some f ∧ spansHold f.wr 64 = true := by
  refine ⟨?_, ?_, ?_, ?_⟩
  · obtain ⟨s, s', x, h1, h2, h3, -, h5⟩ := access_turn (.mw 128 1)
    exact ⟨s, s', x, h1, h2, h3, fun c f hf => by rw [h5 c f hf]; decide⟩
  · obtain ⟨s, s', x, h1, h2, h3, h4, -⟩ := access_turn (.mw 63 1)
    exact ⟨s, s', x, h1, h2, h3, 1, _, h4, by decide⟩
  · obtain ⟨s, s', x, h1, h2, h3, -, h5⟩ := access_turn (.mr 63)
    exact ⟨s, s', x, h1, h2, h3, fun c f hf => by rw [h5 c f hf]; decide⟩
  · obtain ⟨s, s', x, h1, h2, h3, h4, -⟩ := access_turn (.mr 64)
    exact ⟨s, s', x, h1, h2, h3, 1, _, h4, by decide⟩

theorem test_witness_SetlossWritesTheLossRegisters :
    (Pseudo.setloss [0, 1, 2, 3, 4, 65535]).wf 257 = true ∧ (Pseudo.setloss []).wf 257 = true := by decide

/-! Invariants. -/

/-- Context 0 has a `GENREF` in flight, context 1 a `GFMUL`. -/
def twoFlights : State :=
  readyState [flying ctx0 (Flight.genOf (.genref 1) small),
    flying ctx0 (Flight.plainOf (.gfmul 0x53 0xCA))] [(0, 0x53)]

theorem two_inv : twoFlights.Inv where
  mem := by decide
  faults := by decide
  busy := by
    intro c x hx
    match c, hx with
    | 0, hx => cases hx; rfl
    | 1, hx => cases hx; rfl
    | c + 2, hx => cases hx
  status := by
    intro c x hx v hv
    match c, hx with
    | 0, hx => cases hx; cases hv
    | 1, hx => cases hx; cases hv
    | c + 2, hx => cases hx
  flights := by
    intro c f hf
    match c, hf with
    | 0, hf =>
      cases hf
      exact .inr ⟨small, small_ok, rfl, rfl, apart_of_all (by decide), rfl⟩
    | 1, hf => cases hf; exact rfl
    | c + 2, hf => cases hf
  raceFree := by
    intro c c' f g hne hf hg
    match c, c', hf, hg with
    | 0, 0, _, _ => exact absurd rfl hne
    | 0, 1, hf, hg => cases hf; cases hg; decide
    | 1, 0, hf, hg => cases hf; cases hg; decide
    | 1, 1, _, _ => exact absurd rfl hne
    | c + 2, _, hf, _ => cases hf
    | _, c + 2, _, hg => cases hg
  tables := by rintro r ⟨⟩; rfl
  vecs := by
    intro c x hx
    match c, hx with
    | 0, hx => cases hx; exact List.length_replicate
    | 1, hx => cases hx; exact List.length_replicate
    | c + 2, hx => cases hx
  progs := by
    intro c x hx act hact
    match c, hx with
    | 0, hx => cases hx; cases hact
    | 1, hx => cases hx; cases hact
    | c + 2, hx => cases hx

/-- Context 0 completes its `GENREF` in the next step. -/
theorem two_turn : twoFlights.nextTurn = some twoFlights := by rfl

theorem two_step : ∃ t, step twoFlights = .next t :=
  answers (by decide)

theorem test_witness_StepKeepsTheInvariant : ∃ s t : State, s.Inv ∧ step s = .next t :=
  two_step.elim fun t h => ⟨_, t, two_inv, h⟩

theorem test_witness_NoRunStops : ∃ s : State, s.Inv ∧ s.par.valid = true :=
  ⟨_, two_inv, default_valid⟩

theorem test_witness_StepCompletesTheCommandInFlight :
    ∃ (s s' : State) (x : Context) (f : Flight), s.nextTurn = some s' ∧ s'.ctxs[s'.turn]? = some x ∧
      x.inflight = some f :=
  ⟨_, _, _, _, two_turn, rfl, rfl⟩

theorem test_witness_CommandInFlightCompletesInItsTurn :
    ∃ (s s' : State) (f : Flight), s.Inv ∧ s.par.valid = true ∧ s.nextTurn = some s' ∧
      s'.flight? s'.turn = some f :=
  ⟨_, _, _, two_inv, default_valid, two_turn, rfl⟩

theorem test_witness_FootprintIsStableInFlight :
    ∃ (s s' t : State) (c : Nat) (f : Flight), s.Inv ∧ s.nextTurn = some s' ∧ s'.turn ≠ c ∧
      s.flight? c = some f ∧ step s = .next t :=
  two_step.elim fun t h => ⟨_, _, t, 1, _, two_inv, two_turn, by decide, rfl, h⟩

/-- A step in `READY`, and the step in which `INIT` completes. -/
theorem test_witness_EngineTransitionsOnceAndTablesStay :
    (∃ (s t : State) (r : ReadyRegs), step s = .next t ∧ s.engine = .ready r) ∧
      ∃ (s t : State) (r : ReadyRegs), step s = .next t ∧ s.engine = .uninit ∧ t.engine = .ready r := by
  refine ⟨two_step.elim fun t h => ⟨_, t, _, h, rfl⟩, ?_⟩
  have h : after (step (initState [])) (fun t => (slotsOf t).isSome) = some true := by decide
  cases ht : step (initState []) with
  | next t =>
    rw [ht] at h
    cases he : t.engine with
    | uninit => simp [after, slotsOf, he] at h
    | ready r => exact ⟨_, t, r, ht, rfl, he⟩
  | fault k => rw [ht] at h; cases h
  | refused k => rw [ht] at h; cases h

theorem test_witness_FaultsStayAndArgumentsAreFixed : ∃ s t : State, step s = .next t :=
  two_step.elim fun t h => ⟨_, t, h⟩

theorem test_witness_OtherContextsAreUntouched :
    ∃ s s' t : State, s.nextTurn = some s' ∧ step s = .next t :=
  two_step.elim fun t h => ⟨_, _, t, two_turn, h⟩

/-- A `GFMUL` completes on context 0. -/
theorem test_witness_OnlyLookupsWriteResult :
    ∃ (s t : State) (c : Nat) (x y : Context), step s = .next t ∧ s.ctxs[c]? = some x ∧
      t.ctxs[c]? = some y ∧ y.result ≠ x.result := by
  have h : after (step (one (flying ctx0 (Flight.plainOf (.gfmul 1 1))))) (resultOf 0) =
      some (some 0x01) := by decide
  cases ht : step (one (flying ctx0 (Flight.plainOf (.gfmul 1 1)))) with
  | next t =>
    rw [ht] at h
    cases hy : t.ctxs[0]? with
    | none => simp [after, resultOf, hy] at h
    | some y =>
      refine ⟨_, t, 0, _, y, ht, rfl, hy, ?_⟩
      have : y.result = some 0x01 := by simpa [after, resultOf, hy] using h
      rw [this]; exact Option.some_ne_none _
  | fault k => rw [ht] at h; cases h
  | refused k => rw [ht] at h; cases h

/-- Byte 64 changes when the `GENREF` of `twoFlights` completes. -/
theorem test_witness_MemoryChangesOnlyWhereWritten :
    ∃ (s t : State) (a : Nat), s.Inv ∧ step s = .next t ∧ memRead t.hm a ≠ memRead s.hm a := by
  have h : after (step twoFlights) (bytesAt [64]) = some [0x53] := by decide
  obtain ⟨t, ht⟩ := two_step
  rw [ht] at h
  refine ⟨_, t, 64, two_inv, ht, ?_⟩
  have : memRead t.hm 64 = 0x53 := by simpa [after, bytesAt] using h
  rw [this]; decide

theorem test_witness_CompletionsOnTwoContextsCommute :
    ∃ (s : State) (c c' : Nat) (f g : Flight), s.Inv ∧ s.par.valid = true ∧ c ≠ c' ∧
      s.flight? c = some f ∧ s.flight? c' = some g ∧ ¬(f.cmd = .selftest ∧ g.cmd = .selftest) :=
  ⟨_, 0, 1, _, _, two_inv, default_valid, by decide, rfl, rfl, by decide⟩

/-! The field, the solver, the guarantees. -/

/-- Byte `a` of this number is the inverse of `a` under `POLY = 0x11D` (computed outside the model). -/
def inverseBytes : Nat :=
  0xFD7EFF7F75E8D442C9D38F03EAB5E7E36AB2216DB4F374FAF1E2B186F0E63F1491190A9978767310D6D743F9F6C871293AA87D855A62F7D29EA3B86535A55912B6AE9A957B0764C5AFBFF2EB6BEEE587B7BE089C3C0D3BCE0546C234C69F821CA2C709AC94BDDC0B5C0FBC9B4F44DF18F50269532D273149B0E4CC7C1DA1541BFCFECD84BB0677DB79DAFBE9D911D128322FEC20B3EF8D524D17C4B95BCA572441370E9763CBC11361251A818C682338934567161E2B883004A64E92D5F85F36E1150CABA9CF22505E40C3A42E6F89486E338B264A1FD0708A2C56605139ED6C2A4B83A08055DE90664C3EE058C072D8965DAA3D98DD9DADBA7AA747F48E0100

def inverseOf (a : Byte) : Byte := BitVec.ofNat 8 (inverseBytes >>> (8 * a.toNat))

theorem inverse_works : ∀ a : Byte, a ≠ 0x00 → gfmulPoly Config.defaultPoly (inverseOf a) a = 0x01 := by
  decide

/-- The multiplication of the defaults has the field laws. -/
theorem default_laws : FieldLaws (mulAt regs.mul) where
  comm a b := by rw [table_mul, table_mul, gfmul_comm poly_default]
  assoc a b c := by simp only [table_mul, gfmul_assoc poly_default]
  distrib a b c := by simp only [table_mul, gfmul_distrib]
  one a := by rw [table_mul, gfmul_one_left]
  zero a := by rw [table_mul, gfmul_zero_left]
  noZeroDivisors a b h := by
    by_cases ha : a = 0x00
    · exact .inl ha
    · right
      rw [table_mul] at h
      have := gfmul_assoc poly_default (inverseOf a) a b
      rwa [inverse_works a ha, gfmul_one_left, h, gfmul_comm poly_default, gfmul_zero_left] at this

theorem test_witness_TableHasTheFieldLaws : ∃ poly : Poly, polyIrreducible poly = true :=
  ⟨_, poly_default⟩

theorem test_witness_DefaultTableIsMds : ∃ poly : Poly, polyIrreducible poly = true :=
  ⟨0x11B, by decide⟩

theorem test_witness_InverseIsUnique :
    ∃ mul : Byte → Byte → Byte, FieldLaws mul ∧ (0xFF : Byte) ≠ 0x00 := ⟨_, default_laws, by decide⟩

/-- The system of V-REC-2. -/
theorem test_witness_SolveGivesTheUniqueSolution :
    ∃ (mul : Byte → Byte → Byte) (coeffs : List (List Byte)) (rhs : List Byte), FieldLaws mul ∧
      coeffs.length = rhs.length ∧ (∀ row ∈ coeffs, row.length = rhs.length) ∧
      singular mul coeffs = false :=
  ⟨_, [[0x01, 0x01], [0xA7, 0xAD]], [0x55, 0x83], default_laws, rfl, by decide, by decide⟩

/-- A singular matrix and one that is not. -/
theorem test_witness_SingularMeansNonzeroKernel :
    ∀ coeffs ∈ ([[[0x02, 0x02], [0x02, 0x02]], [[0x01, 0x01], [0xA7, 0xAD]]] : List (List (List Byte))),
      ∃ mul : Byte → Byte → Byte, FieldLaws mul ∧ ∀ row ∈ coeffs, row.length = coeffs.length :=
  fun coeffs h => ⟨_, default_laws, by revert coeffs; decide⟩

theorem test_witness_ClosedFormsAgreeWithSolve :
    ∃ mul : Byte → Byte → Byte, FieldLaws mul ∧ singular mul [[0x7A]] = false ∧
      singular mul [[0x01, 0x01], [0xA7, 0xAD]] = false :=
  ⟨_, default_laws, by decide, by decide +kernel⟩

/-- Block 0 is lost and holds `FF` in its first byte; the data was `53` there. -/
theorem test_witness_RecRestoresGeneratedBlocks :
    ∃ (b : BlockArgs) (s : State) (x : Context) (r : ReadyRegs) (data : Nat → Nat → Byte),
      FieldLaws (mulAt r.mul) ∧ s.engine = .ready r ∧ memWf s.hm = true ∧ s.ctxs[s.turn]? = some x ∧
      x.inflight = some (Flight.recOf (.recover b.np b.loss.length) b) ∧ b.ok s.par = true ∧ b.inDomain s.par ∧
      b.lossOk ∧ b.aligned s.par ∧ b.solvable r ∧ b.apart b.loss ∧
      (r.recSlotOf (lostCount b.nd b.loss) = 0 ∨ recConforms s.par r (r.recSlotOf (lostCount b.nd b.loss))) ∧
      ∀ k, k < b.nd + b.np → k ∉ b.loss → ∀ i, i < b.size →
        memRead s.hm (b.addr k + i) =
          if k < b.nd then data k i else refGen r b.nd data (k - b.nd) i := by
  refine ⟨dataLost, readyState [flying ctx0 (Flight.recOf (.recover 1 1) dataLost)]
      [(0, 0xFF), (64, 0x53)], _, _, fun _ i => if i = 0 then 0x53 else 0x00, default_laws, rfl, by rfl,
    rfl, rfl, ok_of_fits (by decide) (inSpace_of (by decide)) (by decide) (by decide),
    (fits_held (by decide)).1, by unfold BlockArgs.lossOk; decide, aligned_of (by decide), data_solvable, apart_of_all (by decide), .inl (by decide), ?_⟩
  intro k hk hk'
  match k, hk, hk' with
  | 0, _, h => exact absurd (by decide) h
  | 1, _, _ => decide
  | k + 2, h, _ => exact absurd h (by simp [dataLost])

/-- A small table whose self-test systems all have 0s and 1s. -/
def toyGen : GenTable :=
  ⟨251, tabulate _ fun j => tabulate _ fun d =>
    if d < 3 then
      (([[1, 0, 0], [1, 1, 0], [0, 1, 1], [1, 0, 0], [0, 0, 1], [0, 1, 0]] : List (List Byte)).getD j
        []).getD d 0
    else if d = 15 - j then 1 else 0⟩

def toyRegs : ReadyRegs := { regs with genT := toyGen }

theorem toy_solvable : testSolvable defaultParams toyRegs := by
  intro np h1 h2
  have h2' : np ≤ 6 := h2
  interval_cases np <;> decide

/-- Blocks at multiples of 256. -/
theorem default_placed : defaultParams.scenariosFit :=
  ⟨by decide, (List.range 22).map (256 * ·), by decide, by decide, by decide⟩

theorem slots_portable : ∀ n, 1 ≤ n → n ≤ Config.parityMax →
    toyRegs.genSlotOf n = 0 ∧ toyRegs.recSlotOf n = 0 := by
  intro n h1 h2
  have h2' : n ≤ 6 := h2
  interval_cases n <;> decide

theorem test_witness_SelftestPassesOnConformingKernels :
    ∃ (par : Params) (r : ReadyRegs), par.valid = true ∧ par.scenariosFit ∧ FieldLaws (mulAt r.mul) ∧
      testSolvable par r ∧
      (∀ n, 1 ≤ n → n ≤ Config.parityMax → r.genSlotOf n = 0 ∨ genConforms par r (r.genSlotOf n)) ∧
      ∀ n, 1 ≤ n → n ≤ Config.parityMax → r.recSlotOf n = 0 ∨ recConforms par r (r.recSlotOf n) :=
  ⟨defaultParams, toyRegs, default_valid, default_placed, default_laws, toy_solvable, fun n h1 h2 => .inl (slots_portable n h1 h2).1,
    fun n h1 h2 => .inl (slots_portable n h1 h2).2⟩

/-- All rows have `n` entries, and those from `col` on are the constant `u`, 1 or 3. -/
def Uniform (n col : Nat) (rows : List (List Byte)) : Prop :=
  rows.length = n ∧ (∀ row ∈ rows, row.length = n) ∧
    ∃ u : Byte, (u = 1 ∨ u = 3) ∧ ∀ p, col ≤ p → p < n → rows.getD p [] = List.replicate n u

theorem uniform_eliminate {n col : Nat} {rows : List (List Byte)} (hc : col < n)
    (h : Uniform n col rows) :
    ∃ rows', eliminate (fun _ _ => 2) rows col = some rows' ∧ Uniform n (col + 1) rows' := by
  obtain ⟨h1, h2, u, hu, h3⟩ := h
  have hne : (u != 0) = true := by rcases hu with rfl | rfl <;> decide
  have hp : pivotRow rows col = some col := by
    obtain ⟨m, hm⟩ : ∃ m, rows.length - col = m + 1 := ⟨rows.length - col - 1, by omega⟩
    rw [pivotRow, hm, List.range'_succ, List.find?_cons_of_pos]
    rw [h3 col (le_refl _) hc]
    simpa [rowAt, List.getD_eq_getElem?_getD, hc] using hne
  have hs : swapRows rows col col = rows := by
    have : col < rows.length := by omega
    simp [swapRows, List.getD_eq_getElem?_getD, this]
  refine ⟨_, by rw [eliminate, hp], ?_, ?_, u ^^^ 2, ?_, ?_⟩
  · simp [hs, h1]
  · intro row hrow
    obtain ⟨k, hk, rfl⟩ := List.mem_iff_getElem.1 hrow
    simp only [hs, List.length_mapIdx] at hk
    have e : rows.getD col [] ∈ rows := by
      have : col < rows.length := by omega
      simp [List.getD_eq_getElem?_getD, this]
    simp only [hs, List.getElem_mapIdx]
    split
    · simp only [scaleRow, List.length_map, h2 _ e]
    · simp only [addScaled, scaleRow, List.length_zipWith, List.length_map, h2 _ e,
        h2 _ (List.getElem_mem hk), Nat.min_self]
  · rcases hu with rfl | rfl <;> decide
  · intro p hp1 hp2
    have hpl : p < rows.length := by omega
    have e : rows[p] = List.replicate n u := by
      have := h3 p (by omega) hp2
      rwa [List.getD_eq_getElem?_getD, List.getElem?_eq_getElem hpl] at this
    rw [hs, List.getD_eq_getElem?_getD, List.getElem?_eq_getElem (by simpa using hpl)]
    simp only [List.getElem_mapIdx, Option.getD_some]
    rw [if_neg (by omega), e, h3 col (le_refl _) hc]
    refine List.ext_getElem (by simp [addScaled, scaleRow]) fun i hi1 hi2 => ?_
    simp [addScaled, scaleRow]

theorem uniform_jordan {n : Nat} {rows : List (List Byte)} (h : Uniform n 0 rows) :
    ∀ m, m ≤ n → ∃ rows', gaussJordan (fun _ _ => 2) m rows = some rows' ∧ Uniform n m rows' := by
  intro m
  induction m with
  | zero => exact fun _ => ⟨rows, rfl, h⟩
  | succ m ih =>
    intro hm
    obtain ⟨r1, e1, u1⟩ := ih (by omega)
    obtain ⟨r2, e2, u2⟩ := uniform_eliminate (by omega) u1
    refine ⟨r2, ?_, u2⟩
    rw [gaussJordan] at e1 ⊢
    rw [List.range_succ, List.foldlM_append, e1]
    simp only [List.foldlM_cons, List.foldlM_nil, Option.bind_eq_bind, Option.bind_some, e2]
    rfl

/-- A degenerate `r`: every product is 2 and every entry of `GEN_T` is 1. (That the default table has the
MDS property under its field is `Obligations.DefaultTableIsMds`.) -/
def flatRegs : ReadyRegs :=
  { regs with
    mul := tabulate _ fun _ => tabulate _ fun _ => 2
    genT := ⟨251, tabulate _ fun _ => tabulate _ fun _ => 1⟩ }

theorem flat_mds : MdsTable (mulAt flatRegs.mul) flatRegs.genT := by
  have hm : mulAt flatRegs.mul = fun _ _ => 2 := by
    funext a b; simp [flatRegs, mulAt, tabulate_get]
  rintro rows cols ⟨hl, -, -, -, -, hr, hd⟩
  have hg : (rows.map fun j => cols.map fun d => coefAt flatRegs.genT j d) =
      List.replicate rows.length (List.replicate rows.length 1) := by
    refine List.eq_replicate_iff.2 ⟨by simp, fun row hrow => ?_⟩
    obtain ⟨j, hj, rfl⟩ := List.mem_map.1 hrow
    refine List.eq_replicate_iff.2 ⟨by simp [hl], fun v hv => ?_⟩
    obtain ⟨d, hd', rfl⟩ := List.mem_map.1 hv
    have e1 : j < 6 := hr j hj
    have e2 : d < 251 := hd d hd'
    have hg : flatRegs.genT = ⟨251, tabulate 6 fun _ => tabulate 251 fun _ => 1⟩ := rfl
    rw [coefAt, hg, coefAt?_tabulate (f := fun _ _ => 1) e1 e2, Option.getD_some]
  rw [hg, hm]
  obtain ⟨r', e, -⟩ := uniform_jordan (n := rows.length)
    (rows := List.replicate rows.length (List.replicate rows.length 1))
    ⟨by simp, fun row hrow => by rw [List.eq_of_mem_replicate hrow]; simp, 1, .inl rfl,
      fun p _ hp => by simp [List.getD_eq_getElem?_getD, hp]⟩ rows.length (le_refl _)
  simp only [singular, List.length_replicate, e, Option.isNone_some]

theorem test_witness_MdsMakesEveryLossSolvable :
    ∃ (r : ReadyRegs) (par : Params) (b : BlockArgs), r.genT = par.gen ∧ MdsTable (mulAt r.mul) r.genT ∧
      b.inDomain par ∧ b.lossOk ∧ lostCount b.nd b.loss = 1 :=
  ⟨flatRegs, { defaultParams with gen := flatRegs.genT }, dataLost, rfl, flat_mds,
    ⟨by decide, by decide, by decide, by decide⟩, by unfold BlockArgs.lossOk; decide, by decide⟩

/-! ## One step of each command, values of 95_test_vectors.md; fetching and host actions -/

theorem test_init_selects_kernels :
    after (exec .init (initState [.wideVector128])) slotsOf =
      some (some ([1, 2, 1, 0, 0, 0], [1, 0, 0, 0, 0, 0])) := by decide

theorem test_init_without_capability :
    after (exec .init (initState [])) slotsOf =
      some (some ([1, 1, 1, 0, 0, 0], [1, 0, 0, 0, 0, 0])) := by decide

theorem test_setmode_other_code :
    after (exec (.setmode 0x05) (readyState [ctx0, ctx0] [])) faultOf =
      some [.mode 0x05] := by decide

theorem test_setmode_before_init :
    after (exec (.setmode 0x00) State.reset) faultOf = some [.uninit 0x02] := by decide

theorem test_gfmul :
    after (exec (.gfmul 0x53 0xCA)
      (readyState [flying ctx0 (Flight.plainOf (.gfmul 0x53 0xCA))] [])) (resultOf 0) =
      some (some 0x8F) := by decide

theorem test_gfmul_all_ones :
    after (exec (.gfmul 0xFF 0xFF)
      (readyState [flying ctx0 (Flight.plainOf (.gfmul 0xFF 0xFF))] [])) (resultOf 0) =
      some (some 0xE2) := by decide

theorem test_gfcoef_last_entry :
    after (exec (.gfcoef 5 250)
      (readyState [flying ctx0 (Flight.plainOf (.gfcoef 5 250))] [])) (resultOf 0) =
      some (some 0x75) := by decide +kernel

theorem test_gfcoef_out_of_range :
    after (exec (.gfcoef 6 0) (readyState [ctx0] [])) faultOf = some [.arg .coefIndex] := by
  decide

/-- The default table has the listed entries in column 7. -/
theorem test_listed_column :
    (List.range 6).map (fun j => defaultCoef Config.defaultPoly j 7) =
      (List.range 6).map fun j => (listedColumns.getD j []).getD 7 0 := by decide

theorem test_genref :
    after (exec (.genref 6)
      (listedState [flying ctx0 (Flight.genOf (.genref 6) args4)] [(0, 0x53), (1, 0xCA)]))
      (bytesAt [2, 3, 4, 5, 6, 7]) = some [0x99, 0xC7, 0xF3, 0xA1, 0x5F, 0x36] := by decide

/-- V-GEN-11: parity 0 overlaps data 0. -/
theorem test_genref_overlap :
    after (exec (.genref 2)
      (readyState [argCtx 2 64 [0x1000, 0x2000, 0x1020, 0x3000] []] [])) faultOf =
      some [.overlap 2 0] := by decide

theorem test_gen :
    after (exec (.gen 3) (listedState [flying ctx0 (Flight.genOf (.gen 3) (pair3 []))]
      [(0, 0x11), (1, 0xFF), (2, 0x22), (4, 0x33), (6, 0x44), (7, 0x01)]))
      (bytesAt [8, 9, 10, 11, 12, 13]) = some [0x44, 0xFE, 0xEE, 0x9E, 0xA8, 0x6B] := by decide

/-- V-GEN-7. -/
theorem test_gen_granule :
    after (exec (.gen 1) (readyState [argCtx 1 32 [0x1000, 0x2000] []] [])) faultOf =
      some [.arg .granule] := by decide

/-- A model whose `GEN` has 8 columns and whose granule is 16: `ND_MAX` is 8 (00_scope.md R9, R13). -/
def narrowState (x : Context) : State :=
  { one x with
    par := { defaultParams with
      gen := ⟨8, tabulate _ fun j => tabulate _ fun d => (listedColumns.getD j []).getD d 0⟩
      sizeGranule := 16
      blockAlign := 32
      stNd := 8 } }

theorem test_narrow_nd_max :
    after (exec (.genref 1) (narrowState (argCtx 9 1 [] []))) faultOf = some [.arg .nd] ∧
      after (exec (.gfcoef 0 8) (narrowState ctx0)) faultOf = some [.arg .coefIndex] ∧
      hostRegWrite (narrowState ctx0) ctx0 (.wrVec 14 0) = .fault .noRegister := by
  exact ⟨by decide, by decide, rfl⟩

theorem test_narrow_placement :
    after (exec (.gen 1) (narrowState (argCtx 1 24 [0x20, 0x40] []))) faultOf = some [.arg .granule] ∧
      after (exec (.gen 1) (narrowState (argCtx 1 16 [0x20, 0x50] []))) faultOf = some [.arg (.align 1)] := by
  decide

/-- V-REC-12: data block 1 is lost (here it holds zeros) and `P0[0]` has `AA` added. -/
theorem test_rec :
    after (exec (.recover 3 1)
      (listedState [flying ctx0 (Flight.recOf (.recover 3 1) (pair3 [1]))]
        [(0, 0x11), (1, 0xFF), (4, 0x33), (6, 0x44), (7, 0x01), (8, 0xEE), (9, 0xFE)]))
      (bytesAt [0, 1, 2, 3]) = some [0x11, 0xFF, 0x88, 0x00] := by decide

/-- V-REC-2: the system of two lost data bytes at offset 0. -/
theorem test_solve_two :
    solve regs.gmul [[0x01, 0x01], [0xA7, 0xAD]] [0x55, 0x83] = [0x11, 0x44] := by decide +kernel

/-- V-REC-15: more losses than parity, whatever the registers hold. -/
theorem test_rec_too_many :
    after (exec (.recover 3 4)
      (readyState [flying ctx0 (Flight.failedOf (.recover 3 4) .unrecoverableLoss)] []))
      (statusOf 0) = some (some 0x02) := by decide

/-- V-ST: the reference parity of the test data, and the patterns of 44_selftest.md R237. -/
theorem test_selftest_data :
    testVector defaultParams regs 15 7 = 0x70 ∧ testVector defaultParams regs 16 1 = 0x10 ∧ testVector defaultParams regs 16 255 = 0x4B := by
  decide

/-- V-ST-2. -/
theorem test_selftest_patterns :
    testLosses defaultParams 3 = [[13, 14, 15], [0, 1, 16], [0, 1, 18]] ∧
      selftestStatus defaultParams regs false = .allocationFailure := by decide

theorem test_fetch_init :
    after (step (State.reset.withFetchWord 32 0x00000001)) (fun s => (s.flight? 0).map Flight.cmd) =
      some (some .init) := by decide

theorem test_fetch_before_init :
    after (step (State.reset.withFetchWord 32 0x00000040)) faultOf = some [.uninit 0x40] := by
  decide

/-- P2: `ERASE` writes zeros over the block, and `SETBLOCKS` writes the registers. -/
theorem test_expand :
    (expandPseudo defaultParams (argCtx 1 2 [0x1040] []) (.erase 0)) = some [.mw 0x1040 0x00, .mw 0x1041 0x00] ∧
      expandPseudo defaultParams ctx0 (.setblocks 1 4 [0x10, 0x20]) =
        some [.wrNd 1, .wrSize 4, .wrVec 0 0x10, .wrVec 1 0x20] := by decide

end Sys2Proof.Tests
end

section
/-! SUPPORT. Host accesses to memory against the footprints in flight (20_memory.md R82), and the statement
of that rule. -/

namespace Sys2Proof.Machine

/-- Where some command in flight is bad, the search names a context with such a command. -/
theorem flightWhere_of_exists {s : State} {bad : Flight → Bool}
    (h : ∃ c f, s.flight? c = some f ∧ bad f = true) :
    ∃ c, (∃ f, s.flight? c = some f ∧ bad f = true) ∧ s.flightWhere bad = some c := by
  obtain ⟨c, f, hf, hb⟩ := h
  cases hw : s.flightWhere bad with
  | none => simp [flightWhere_none.1 hw c f hf] at hb
  | some c' => exact ⟨c', flightWhere_some hw, rfl⟩

section access
variable {s : State} {x : Context} {a : Addr} {v : Byte}

/-- A write outside every footprint stores the byte. -/
theorem hostMemWrite_free
    (h : ∀ c f, s.flight? c = some f → spansHold f.rd a.toNat = false ∧ spansHold f.wr a.toNat = false) :
    hostMemWrite s a v = { s with hm := memWrite s.hm a.toNat v } := by
  have hw : s.flightWhere (fun f => spansHold (f.rd ++ f.wr) a.toNat) = none :=
    flightWhere_none.2 fun c f hf => by simp [spansHold_append, h c f hf]
  simp [hostMemWrite, hw]

/-- A write into a footprint only raises the fault, against a context whose footprint holds the byte. -/
theorem hostMemWrite_race
    (h : ∃ c f, s.flight? c = some f ∧ (spansHold f.rd a.toNat = true ∨ spansHold f.wr a.toNat = true)) :
    ∃ c, (∃ f, s.flight? c = some f ∧
        (spansHold f.rd a.toNat = true ∨ spansHold f.wr a.toNat = true)) ∧
      hostMemWrite s a v = s.raise (.access (.mw a v)) (.race .host c) := by
  simp only [← Bool.or_eq_true, ← spansHold_append] at h ⊢
  obtain ⟨c, hc, hw⟩ := flightWhere_of_exists h
  exact ⟨c, hc, by simp [hostMemWrite, hw]⟩

/-- A read of a byte no command in flight writes returns it. -/
theorem hostMemRead_free (h : ∀ c f, s.flight? c = some f → spansHold f.wr a.toNat = false) :
    hostMemRead s x a =
      s.setCtx s.turn (x.record (.mr a) ((memRead s.hm a.toNat).setWidth 64)) := by
  simp [hostMemRead, flightWhere_none.2 h]

/-- A read of a byte some command in flight writes only raises the fault, against a context whose command
writes it. -/
theorem hostMemRead_race (h : ∃ c f, s.flight? c = some f ∧ spansHold f.wr a.toNat = true) :
    ∃ c, (∃ f, s.flight? c = some f ∧ spansHold f.wr a.toNat = true) ∧
      hostMemRead s x a = s.raise (.access (.mr a)) (.race .host c) := by
  obtain ⟨c, hc, hw⟩ := flightWhere_of_exists h
  exact ⟨c, hc, by simp [hostMemRead, hw]⟩

end access

/-- An idle context's host agent performs the head of its program where it has the turn. -/
theorem step_idle {s s' : State} {x : Context} {act : HostAction} {rest : List HostAction}
    (hn : s.nextTurn = some s') (hx : s'.idleTurn x) (hp : x.prog = act :: rest) :
    step s = hostStep (s'.setCtx s'.turn { x with prog := rest }) { x with prog := rest } act :=
  (step_of_nextTurn hn).trans (turnStep_idle hx hp)

/-- Settles O40: the access meets the footprints as they stand, because moving the program on changes no
record in flight, and the search for a conflict fails or names a context that conflicts. -/
theorem hostMemoryAccessRespectsFootprints : Obligations.HostMemoryAccessRespectsFootprints := by
  intro s s' x a rest hn hx
  have hfl := flight_setCtx_same (y := { x with prog := rest }) hx.1 rfl
  simp only [← hfl]
  refine ⟨fun v hp => ?_, fun hp => ?_⟩
  · rw [step_idle hn hx hp]
    refine ⟨fun hfree => congrArg Host.Outcome.next (hostMemWrite_free hfree), fun hrace => ?_⟩
    obtain ⟨c, hc, hw⟩ := hostMemWrite_race hrace
    exact ⟨c, hc, congrArg Host.Outcome.next hw⟩
  · rw [step_idle hn hx hp]
    refine ⟨fun hfree => ?_, fun hrace => ?_⟩
    · exact congrArg Host.Outcome.next
        ((hostMemRead_free hfree).trans (State.setCtx_setCtx s' s'.turn _ _))
    · obtain ⟨c, hc, hr⟩ := hostMemRead_race hrace
      exact ⟨c, hc, congrArg Host.Outcome.next hr⟩

end Sys2Proof.Machine
end

section
/-! SUPPORT. The decoder against the match and mask table (30_encoding.md R103, R104) and against the list
of illegal words (R105), and the two statements of those rules. -/

namespace Sys2Proof

/-! ## The table by fields -/

/-- A row of the table by fields: `RSV` and `OP` are compared whole, `A` and `B` under a mask, and both
must then be 0. -/
def fieldRow (m : String) (op maskA maskB : Byte) : OpcodeRow :=
  ⟨m, wordOf 0 0 0 op, wordOf 0xFF maskB maskA 0xFF⟩

/-- Every row compares `RSV` and `OP` whole and asks for nothing but zeros in `A` and `B`. -/
theorem opcodeTable_eq_fieldRows : opcodeTable =
    [fieldRow "INIT" 0x01 0xFF 0xFF, fieldRow "SETMODE" 0x02 0 0xFF, fieldRow "GFMUL" 0x10 0 0,
     fieldRow "GFCOEF" 0x11 0 0, fieldRow "GENREF" 0x20 0 0xFF, fieldRow "GEN" 0x21 0 0xFF,
     fieldRow "REC" 0x30 0 0, fieldRow "SELFTEST" 0x40 0xFF 0xFF] := by decide

theorem fieldRow_hits_iff {m : String} {op maskA maskB : Byte} {w : Word} :
    (fieldRow m op maskA maskB).hits w = true ↔
      rsvField w = 0 ∧ bField w &&& maskB = 0 ∧ aField w &&& maskA = 0 ∧ opField w = op := by
  have hand : w &&& wordOf 0xFF maskB maskA 0xFF =
      wordOf (rsvField w) (bField w &&& maskB) (aField w &&& maskA) (opField w) := by
    conv_lhs => rw [← wordOf_fields w]
    rw [wordOf_and, Laws.RowMatch.and_ones, Laws.RowMatch.and_ones]
  rw [OpcodeRow.hits, decide_eq_true_eq, fieldRow, hand]
  constructor
  · exact wordOf_inj
  · rintro ⟨hz, hb, ha, ho⟩
    rw [hz, hb, ha, ho]

/-- No two rows have one mnemonic. -/
theorem opcodeTable_mnemonic_inj :
    ∀ r ∈ opcodeTable, ∀ r' ∈ opcodeTable, r.mnemonic = r'.mnemonic → r = r' := by decide

theorem opcodeTable_filter_mnemonic (i : Instr) :
    (opcodeTable.filter fun r => decide (r.mnemonic = i.mnemonic)).map OpcodeRow.mnemonic =
      [i.mnemonic] := by
  cases i <;> rfl

/-! ## Decoding and the table -/

/-- A decoded word is the word of its command. -/
theorem encode_of_decode {w : Word} {i : Instr} (h : decode w = .ok i) : encode i = w := by
  obtain ⟨j, hj, hz, ho, ha, hb, -⟩ | ⟨h', -⟩ | ⟨h', -⟩ | ⟨h', -⟩ | ⟨h', -⟩ := decode_cases w
  · obtain rfl : j = i := Decoded.ok.inj (hj.symm.trans h)
    rw [encode, ← hz, ← ho, ← ha, ← hb, wordOf_fields]
  all_goals simp [h] at h'

/-- The word of every command matches the row of its mnemonic. -/
theorem encode_hits_row (i : Instr) : Laws.RowMatch.Statement i := by
  cases i with
  | init => exact Laws.RowMatch.init
  | setmode m => exact Laws.RowMatch.setmode m
  | gfmul a b => exact Laws.RowMatch.gfmul a b
  | gfcoef j d => exact Laws.RowMatch.gfcoef j d
  | genref np => exact Laws.RowMatch.genref np
  | gen np => exact Laws.RowMatch.gen np
  | recover np nr => exact Laws.RowMatch.recover np nr
  | selftest => exact Laws.RowMatch.selftest

/-- A word that matches a row decodes to a command of that row. -/
theorem decode_of_hits {w : Word} {r : OpcodeRow} (hr : r ∈ opcodeTable) (h : r.hits w = true) :
    ∃ i, decode w = .ok i ∧ i.mnemonic = r.mnemonic := by
  simp only [opcodeTable_eq_fieldRows, List.mem_cons, List.not_mem_nil, or_false] at hr
  rcases hr with rfl | rfl | rfl | rfl | rfl | rfl | rfl | rfl <;>
    simp only [fieldRow_hits_iff, Laws.RowMatch.and_ones, Laws.RowMatch.and_zero, true_and] at h
  · exact ⟨.init, by simp [decode, needAB0, needB0, h], rfl⟩
  · exact ⟨.setmode (aField w), by simp [decode, needB0, h], rfl⟩
  · exact ⟨.gfmul (aField w) (bField w), by simp [decode, h], rfl⟩
  · exact ⟨.gfcoef (aField w).toNat (bField w).toNat, by simp [decode, h], rfl⟩
  · exact ⟨.genref (aField w).toNat, by simp [decode, needB0, h], rfl⟩
  · exact ⟨.gen (aField w).toNat, by simp [decode, needB0, h], rfl⟩
  · exact ⟨.recover (aField w).toNat (bField w).toNat, by simp [decode, h], rfl⟩
  · exact ⟨.selftest, by simp [decode, needAB0, needB0, h], rfl⟩

/-- A word that decodes to a command matches the row of that command's mnemonic and no other. -/
theorem hits_iff_mnemonic_of_decode {w : Word} {i : Instr} (h : decode w = .ok i) {r : OpcodeRow}
    (hr : r ∈ opcodeTable) : r.hits w = true ↔ r.mnemonic = i.mnemonic := by
  constructor
  · intro hw
    obtain ⟨j, hj, hm⟩ := decode_of_hits hr hw
    obtain rfl : j = i := Decoded.ok.inj (hj.symm.trans h)
    exact hm.symm
  · intro hm
    obtain ⟨r', hr', hm', hw⟩ := encode_hits_row i
    obtain rfl := opcodeTable_mnemonic_inj r hr r' hr' (hm.trans hm'.symm)
    rwa [encode_of_decode h] at hw

/-- Settles O3: among the rows, those a decoded word matches are those of its command's mnemonic, which
is one row; and a word that matches some row decodes to a command. -/
theorem decodePicksTheUniqueTableRow : Obligations.DecodePicksTheUniqueTableRow := by
  intro w
  constructor
  · intro i h
    have hrows : (opcodeTable.filter fun r => r.hits w) =
        opcodeTable.filter fun r => decide (r.mnemonic = i.mnemonic) :=
      List.filter_congr fun r hr =>
        Bool.eq_iff_iff.2 ((hits_iff_mnemonic_of_decode h hr).trans decide_eq_true_iff.symm)
    rw [hrows, opcodeTable_filter_mnemonic]
  · intro why h
    refine List.filter_eq_nil_iff.2 fun r hr hw => ?_
    obtain ⟨i, hi, -⟩ := decode_of_hits hr hw
    simp [h] at hi

/-! ## Illegal words -/

theorem Instr.opcode_mem (i : Instr) :
    i.opcode ∈ ([0x01, 0x02, 0x10, 0x11, 0x20, 0x21, 0x30, 0x40] : List Byte) := by
  cases i <;> simp [Instr.opcode]

/-- `A` is 0 in the word of every command whose row says so (30_encoding.md R103). -/
theorem Instr.operandA_eq_zero {i : Instr} (h : i.opcode ∈ ([0x01, 0x40] : List Byte)) :
    i.operandA = 0 := by
  cases i with
  | init | selftest => rfl
  | setmode | gfmul | gfcoef | genref | gen | recover => simp [Instr.opcode] at h

/-- `B` is 0 in the word of every command whose row says so (30_encoding.md R103). -/
theorem Instr.operandB_eq_zero {i : Instr}
    (h : i.opcode ∈ ([0x01, 0x02, 0x20, 0x21, 0x40] : List Byte)) : i.operandB = 0 := by
  cases i with
  | init | setmode | genref | gen | selftest => rfl
  | gfmul | gfcoef | recover => simp [Instr.opcode] at h

/-- Each of the grounds of 30_encoding.md R105 makes a word illegal, since the fields of a word that
decodes to a command meet none of them. -/
theorem decode_illegal_of_fields {w : Word}
    (h : opField w ∉ [0x01, 0x02, 0x10, 0x11, 0x20, 0x21, 0x30, 0x40] ∨ rsvField w ≠ 0 ∨
      (opField w ∈ [0x01, 0x40] ∧ aField w ≠ 0) ∨
      (opField w ∈ [0x01, 0x02, 0x20, 0x21, 0x40] ∧ bField w ≠ 0)) :
    ∃ why, decode w = .illegal why := by
  obtain ⟨i, -, hz, ho, ha, hb, -⟩ | ⟨h', -⟩ | ⟨h', -⟩ | ⟨h', -⟩ | ⟨h', -⟩ := decode_cases w
  · rw [hz, ho, ha, hb] at h
    rcases h with h | h | ⟨h, h0⟩ | ⟨h, h0⟩
    · exact absurd i.opcode_mem h
    · exact absurd rfl h
    · exact absurd (Instr.operandA_eq_zero h) h0
    · exact absurd (Instr.operandB_eq_zero h) h0
  all_goals exact ⟨_, h'⟩

end Sys2Proof

namespace Sys2Proof.Machine

/-- A write of an illegal word to `CMD` only raises the fault. -/
theorem issueWord_illegal {w : Word} {why : IllegalWord} (h : decode w = .illegal why) (s : State) :
    issueWord s w = .next (s.raise (.command w) (.illegal w)) := by
  simp [issueWord, h, hostIllegal]

/-- Settles O5: each ground makes the word decode to `ILLEGAL`, and the idle host agent's step is then
the fault alone. -/
theorem illegalWordOnlyRaisesItsFault : Obligations.IllegalWordOnlyRaisesItsFault := by
  intro s s' x w rest hn hx hp h
  obtain ⟨why, hw⟩ := decode_illegal_of_fields h
  exact (step_idle hn hx hp).trans (issueWord_illegal hw _)

end Sys2Proof.Machine
end

section
/-! SUPPORT. The field `INIT` tabulates (40_field_tables.md R133, R134, R137): the remainder of the trial
division lies below its divisor, so no nonzero byte of degree 4 or less is a divisor of zero (dividing `POLY`
by it would leave a smaller one); counting then rules out the others. -/

namespace Sys2Proof.Machine

/-! ## Trial division -/

/-- One step of the trial division at the coefficient of `x^k`. -/
def polyModStep (q r k : Nat) : Nat :=
  if q.log2 ≤ k ∧ r.testBit k then r ^^^ (q <<< (k - q.log2)) else r

theorem polyMod_eq_foldl (p q : Nat) :
    polyMod p q = [8, 7, 6, 5, 4, 3, 2, 1, 0].foldl (polyModStep q) p := rfl

/-- The remainder is a sum of the dividend and shifts of the divisor. -/
theorem polyMod_mem {A : Nat → Prop} (hxor : ∀ r r', A r → A r' → A (r ^^^ r')) {p q : Nat} (hp : A p)
    (hq : ∀ k, k ≤ 8 - q.log2 → A (q <<< k)) : A (polyMod p q) := by
  rw [polyMod_eq_foldl]
  refine List.foldlRecOn _ _ hp fun r hr k hk => ?_
  have hk8 : k ≤ 8 := by revert k; decide
  unfold polyModStep
  split_ifs
  · exact hxor _ _ hr (hq _ (by omega))
  · exact hr

theorem lt_two_pow_of_testBit_eq_false {r k : Nat} (h : r < 2 ^ (k + 1)) (hk : r.testBit k = false) :
    r < 2 ^ k := by
  by_contra hr
  exact Bool.false_ne_true (hk.symm.trans (Nat.testBit_of_two_pow_le_and_two_pow_add_one_gt (not_lt.1 hr) h))

/-- A step clears the coefficient it is at. -/
theorem polyModStep_lt {q r k : Nat} (hq : q ≠ 0) (hk : q.log2 ≤ k) (hr : r < 2 ^ (k + 1)) :
    polyModStep q r k < 2 ^ k := by
  unfold polyModStep
  cases hb : r.testBit k with
  | false => simpa using lt_two_pow_of_testBit_eq_false hr hb
  | true =>
    have hlt : q <<< (k - q.log2) < 2 ^ (k + 1) := by
      have h := Nat.mul_lt_mul_of_pos_right (Nat.lt_log2_self (n := q)) (Nat.two_pow_pos (k - q.log2))
      rwa [← Nat.pow_add, show q.log2 + 1 + (k - q.log2) = k + 1 by omega, ← Nat.shiftLeft_eq] at h
    have hbit : (q <<< (k - q.log2)).testBit k = true := by
      rw [Nat.testBit_shiftLeft, show k - (k - q.log2) = q.log2 by omega, Nat.testBit_log2 hq]
      simp
    rw [if_pos ⟨hk, rfl⟩]
    exact lt_two_pow_of_testBit_eq_false (Nat.xor_lt_two_pow hr hlt) (by rw [Nat.testBit_xor, hb, hbit]; rfl)

theorem foldl_polyModStep_lt {q : Nat} (hq : q ≠ 0) (n : Nat) {r : Nat} (hr : r < 2 ^ max n q.log2) :
    (List.range n).reverse.foldl (polyModStep q) r < 2 ^ q.log2 := by
  induction n generalizing r with
  | zero => simpa using hr
  | succ n ih =>
    rw [List.range_succ, List.reverse_append, List.reverse_singleton, List.foldl_append]
    refine ih ?_
    by_cases hn : q.log2 ≤ n
    · rw [max_eq_left (by omega)] at hr ⊢
      exact polyModStep_lt hq hn hr
    · rw [max_eq_right (by omega)] at hr ⊢
      simpa [polyModStep, hn] using hr

theorem polyMod_lt {p q : Nat} (hp : p < 2 ^ 9) (hq : q ≠ 0) : polyMod p q < q :=
  calc polyMod p q < 2 ^ q.log2 :=
        foldl_polyModStep_lt hq 9 (hp.trans_le (Nat.pow_le_pow_right (by decide) (le_max_left _ _)))
    _ ≤ q := Nat.log2_self_le hq

theorem polyIrreducible_iff {poly : Poly} : polyIrreducible poly = true ↔
    poly.getLsbD 8 = true ∧ ∀ q, 2 ≤ q → q < 32 → polyMod poly.toNat q ≠ 0 := by
  simp [polyIrreducible, and_imp]

/-! ## Annihilators -/

theorem gfmul_xor_left (poly : Poly) (a b c : Byte) :
    gfmulPoly poly (a ^^^ b) c = gfmulPoly poly a c ^^^ gfmulPoly poly b c :=
  gfmul_additive poly c a b

/-- The polynomial `p` (of degree at most 14) annihilates `b` modulo `POLY`. -/
def Annihilates (poly : Poly) (b : Byte) (p : Nat) : Prop :=
  gfmulPoly poly (polyReduce poly (BitVec.ofNat 15 p)) b = 0x00

theorem Annihilates.xor {poly : Poly} {b : Byte} {p q : Nat} (hp : Annihilates poly b p)
    (hq : Annihilates poly b q) : Annihilates poly b (p ^^^ q) := by
  unfold Annihilates at *
  rw [BitVec.ofNat_xor, polyReduce_additive, gfmul_xor_left, hp, hq]; rfl

/-- `POLY` is its own multiple. -/
theorem polyReduce_poly {poly : Poly} (h8 : poly.getLsbD 8 = true) :
    polyReduce poly (poly.setWidth 15) = 0x00 := by
  simp [polyReduce, h8, BitVec.getLsbD_of_ge]

theorem annihilates_poly {poly : Poly} (h8 : poly.getLsbD 8 = true) (b : Byte) :
    Annihilates poly b poly.toNat := by
  rw [Annihilates, BitVec.ofNat_toNat, polyReduce_poly h8, gfmul_zero_left]

theorem annihilates_toNat {poly : Poly} {a b : Byte} :
    Annihilates poly b a.toNat ↔ gfmulPoly poly a b = 0x00 := by
  rw [Annihilates, BitVec.ofNat_toNat, polyReduce_byte]

theorem annihilates_shift {poly : Poly} (h : polyIrreducible poly = true) {a b : Byte}
    (hab : gfmulPoly poly a b = 0x00) {k : Nat} (hk : k ≤ 7) : Annihilates poly b (a.toNat <<< k) := by
  have e : BitVec.ofNat 15 (a.toNat <<< k) = a.setWidth 15 <<< k := by
    apply BitVec.eq_of_toNat_eq; simp [Nat.shiftLeft_eq]
  rw [Annihilates, e, polyReduce_power h a hk, gfmul_iterate h, hab]
  exact Function.iterate_fixed (xtime_additive poly).zero k

/-- The remainder of `POLY` by an annihilator `a` is an annihilator too. -/
theorem exists_remainder {poly : Poly} (h : polyIrreducible poly = true) {a b : Byte}
    (ha : 2 ≤ a.toNat) (hab : gfmulPoly poly a b = 0x00) :
    ∃ r : Byte, r.toNat = polyMod poly.toNat a.toNat ∧ gfmulPoly poly r b = 0x00 := by
  have hlog : 1 ≤ a.toNat.log2 := (Nat.le_log2 (by omega)).2 ha
  have hlt : polyMod poly.toNat a.toNat < 2 ^ 8 := (polyMod_lt poly.isLt (by omega)).trans a.isLt
  have hmem : Annihilates poly b (polyMod poly.toNat a.toNat) :=
    polyMod_mem (A := Annihilates poly b) (fun _ _ => Annihilates.xor)
      (annihilates_poly (polyIrreducible_iff.1 h).1 b) fun k hk => annihilates_shift h hab (by omega)
  exact ⟨BitVec.ofNatLT _ hlt, rfl, annihilates_toNat.1 hmem⟩

/-! ## No divisors of zero -/

/-- A nonzero polynomial of degree at most 4 annihilates no nonzero byte: dividing `POLY` by it would leave
a smaller one. -/
theorem gfmul_ne_zero_of_lt {poly : Poly} (h : polyIrreducible poly = true) {b : Byte} (hb : b ≠ 0x00)
    (a : Byte) (ha : a ≠ 0x00) (hlt : a.toNat < 32) : gfmulPoly poly a b ≠ 0x00 := by
  intro hab
  have hpos : a.toNat ≠ 0 := fun h0 => ha (BitVec.eq_of_toNat_eq h0)
  have hone : a.toNat ≠ 1 := by
    intro h1
    rw [show a = 0x01 from BitVec.eq_of_toNat_eq h1, gfmul_one_left] at hab
    exact hb hab
  obtain ⟨r, hr, hrb⟩ := exists_remainder h (by omega) hab
  have hdec : r.toNat < a.toNat := hr ▸ polyMod_lt poly.isLt hpos
  have hr0 : r ≠ 0x00 := by
    rintro rfl
    exact (polyIrreducible_iff.1 h).2 a.toNat (by omega) hlt hr.symm
  exact gfmul_ne_zero_of_lt h hb r hr0 (by omega) hrb
termination_by a.toNat

/-- Among the multiples of `b` by the polynomials of degree at most 4 one is of degree at most 4 itself:
there are more of these polynomials than choices of the three highest bits. -/
theorem exists_small_multiple (poly : Poly) (b : Byte) :
    ∃ u : Byte, u ≠ 0x00 ∧ u.toNat < 32 ∧ (gfmulPoly poly u b).toNat < 32 := by
  obtain ⟨i, j, hne, hij⟩ := Fintype.exists_ne_map_eq_of_card_lt
    (fun i : Fin 32 => (⟨(gfmulPoly poly (BitVec.ofNat 8 i) b).toNat / 2 ^ 5, by omega⟩ : Fin 8)) (by simp)
  have hbyte : ∀ k : Fin 32, (BitVec.ofNat 8 k).toNat = k := fun k => by
    rw [BitVec.toNat_ofNat, Nat.mod_eq_of_lt (by omega)]
  refine ⟨BitVec.ofNat 8 i ^^^ BitVec.ofNat 8 j, ?_, ?_, ?_⟩
  · intro h0
    have := congrArg BitVec.toNat (xor_eq_zero.1 h0)
    rw [hbyte, hbyte] at this
    exact hne (Fin.ext this)
  · rw [BitVec.toNat_xor, hbyte, hbyte]
    exact Nat.xor_lt_two_pow (n := 5) i.isLt j.isLt
  · have hdiv : (gfmulPoly poly (BitVec.ofNat 8 i) b).toNat / 2 ^ 5 =
        (gfmulPoly poly (BitVec.ofNat 8 j) b).toNat / 2 ^ 5 := Fin.mk.inj hij
    have hzero : (gfmulPoly poly (BitVec.ofNat 8 i ^^^ BitVec.ofNat 8 j) b).toNat / 2 ^ 5 = 0 := by
      rw [gfmul_xor_left, BitVec.toNat_xor, Nat.xor_div_two_pow, hdiv, Nat.xor_self]
    omega

theorem gfmul_eq_zero {poly : Poly} (h : polyIrreducible poly = true) {a b : Byte}
    (hab : gfmulPoly poly a b = 0x00) : a = 0x00 ∨ b = 0x00 := by
  by_contra! hne
  obtain ⟨u, hu, hult, hlt⟩ := exists_small_multiple poly b
  have hub : gfmulPoly poly u b ≠ 0x00 := gfmul_ne_zero_of_lt h hne.2 u hu hult
  refine gfmul_ne_zero_of_lt h hne.1 _ hub hlt ?_
  rw [gfmul_assoc h, gfmul_comm h b, hab, gfmul_comm h, gfmul_zero_left]

/-! ## The table -/

@[simp] theorem mulAt_mulTable (poly : Poly) (a b : Byte) :
    mulAt (mulTable poly) a b = gfmulPoly poly a b := by
  simp [mulAt, mulTable, tabulate_get]

theorem fieldLaws_gfmulPoly {poly : Poly} (h : polyIrreducible poly = true) :
    FieldLaws (gfmulPoly poly) where
  comm := gfmul_comm h
  assoc := gfmul_assoc h
  distrib := gfmul_distrib poly
  one := gfmul_one_left poly
  zero := gfmul_zero_left poly
  noZeroDivisors _ _ := gfmul_eq_zero h

/-- Settles O53: every entry of the table is the product `gfmul_poly` gives, and that product has the field
laws. -/
theorem tableHasTheFieldLaws : Obligations.TableHasTheFieldLaws := by
  intro poly h
  have hmul : mulAt (mulTable poly) = gfmulPoly poly := funext₂ (mulAt_mulTable poly)
  exact ⟨hmul ▸ fieldLaws_gfmulPoly h, mulAt_mulTable poly⟩

end Sys2Proof.Machine
end

section
/-! SUPPORT. The parity `RefGen` computes (41_generation.md R160) where its sum is empty, has one term, or
has the coefficient `0x01` throughout, as in row 0 of the default table (R166). -/

namespace Sys2Proof.Machine

theorem refGen_zero (r : ReadyRegs) (data : Nat → Nat → Byte) (j i : Nat) : refGen r 0 data j i = 0x00 :=
  gsum_nil

theorem refGen_one (r : ReadyRegs) (data : Nat → Nat → Byte) (j i : Nat) :
    refGen r 1 data j i = mulAt r.mul (data 0 i) (coefAt r.genT j 0) :=
  BitVec.xor_zero

/-- Under the field laws a row of ones makes the parity the exclusive or of the data. -/
theorem refGen_of_coef_one {r : ReadyRegs} (F : FieldLaws (mulAt r.mul)) {nd j : Nat}
    (h : ∀ d, d < nd → coefAt r.genT j d = 0x01) (data : Nat → Nat → Byte) (i : Nat) :
    refGen r nd data j i = gsum ((List.range nd).map fun d => data d i) := by
  refine gsum_map_congr fun d hd => ?_
  rw [ReadyRegs.gmul, ReadyRegs.coef, h d (List.mem_range.1 hd), F.mul_one]

/-- Row 0 of the default table is all ones (40_field_tables.md R139). -/
theorem coefAt_default_row_zero {poly : Poly} {d : Nat} (hd : d < Config.defaultNdMax) :
    coefAt (defaultGen poly) 0 d = 0x01 :=
  coefAt_default (by decide) hd

/-- Settles O23: the empty sum, the sum of one product, and a row of ones under the field laws, which the
table of an irreducible `POLY` has. -/
theorem referenceParityCornerCases : Obligations.ReferenceParityCornerCases := by
  intro r data j i
  refine ⟨refGen_zero r data j i, refGen_one r data j i, fun poly nd hirr hmul hgen hnd => ?_⟩
  have hlaws : FieldLaws (mulAt r.mul) := hmul ▸ (tableHasTheFieldLaws poly hirr).1
  rw [hgen] at hnd
  refine refGen_of_coef_one hlaws (fun d hd => ?_) data i
  rw [hgen]
  exact coefAt_default_row_zero (hd.trans_le hnd)

end Sys2Proof.Machine
end

section
/-! SUPPORT. The engine's state against the commands (42_registry_control.md R181, R183): before `INIT`
every other command is a fault, and an `INIT` in `READY` reports `OK` and leaves the tables. -/

namespace Sys2Proof.Machine

/-- Settles O9: the first check of every command but `INIT` is that the engine is ready. -/
theorem commandBeforeInitFaults : Obligations.CommandBeforeInitFaults :=
  fun _ _ _ hi hx hu => exec_raise hi hx (checkOf_uninit hi hu)

section init
variable {s : State} {x : Context} {f : Flight} {r : ReadyRegs}

/-- A serialized `INIT` passes its checks, whatever the engine holds (60_exceptions.md R254). -/
theorem checkOf_init (hs : s.serialFor .init) : checkOf .init s x = .ok (Flight.plainOf .init) := by
  simp [checkOf, checkSerial_ok (u := ()) |>.2 hs]

/-- An instantiated model puts a serialized `INIT` in flight. -/
theorem exec_init_launch (hp : s.par.valid = true) (hx : s.idleTurn x) (hs : s.serialFor .init) :
    exec .init s = .next (s.setCtx s.turn (x.launch (Flight.plainOf .init))) := by
  rw [exec_idle hp hx, checkOf_init hs]; rfl

/-- `INIT` keeps what a `READY` engine holds. -/
theorem completeOf_init_ready (hr : s.engine = .ready r) :
    completeOf .init s x f = .next (s.finish x .ok) := by
  have hkeep : initEngine s.par s.engine = s.engine := by rw [hr]; rfl
  rw [completeOf, hkeep]; rfl

end init

/-- Settles O16: the `INIT` goes into flight, its completion keeps the engine, and finishing a context
that was just launched leaves it as it was but for `STATUS`. -/
theorem secondInitOnlyReportsOk : Obligations.SecondInitOnlyReportsOk := by
  intro s x r hp hx hr hs
  let f := Flight.plainOf .init
  refine ⟨s.setCtx s.turn (x.launch f), exec_init_launch hp hx hs, ?_⟩
  obtain ⟨hget, hbusy, hfree⟩ := hx
  calc exec .init (s.setCtx s.turn (x.launch f))
    _ = completeOf .init (s.setCtx s.turn (x.launch f)) (x.launch f) f :=
        exec_flight (f := f) hp (State.setCtx_get hget _) rfl
    _ = .next ((s.setCtx s.turn (x.launch f)).finish (x.launch f) .ok) := completeOf_init_ready hr
    _ = .next (s.setCtx s.turn ((x.launch f).finish .ok)) := by rw [State.finish_launched]
    _ = .next (s.setCtx s.turn { x with status := some 0x00 }) := by
        rw [Context.finish_launch x f .ok hbusy hfree]; rfl

end Sys2Proof.Machine
end

section
/-! SUPPORT. How the loss count of a `REC` decides its outcome (43_recovery.md R210, R214): a valid loss set
of up to `np` elements succeeds, and the counts outside the domain complete with their error status. -/

namespace Sys2Proof.Machine

section recover
variable {s : State} {x : Context} {r : ReadyRegs} {b : BlockArgs} {np nr : Nat}

/-- A `REC` whose arguments meet every condition goes into flight and completes with `STATUS = OK` and
nothing else changed but memory. -/
theorem exec_recover_succeeds (hx : s.idleTurn x) (hr : s.engine = .ready r)
    (hs : s.serialFor (.recover b.np b.loss.length)) (hd : b.inDomain s.par) (hl : b.lossOk)
    (hb : x.holdsBlocks b) (hlo : x.holdsLoss b) (hsp : b.inSpace) (hal : b.aligned s.par)
    (hso : b.solvable r) (hap : b.apart b.loss)
    (hrc : s.raceFreeFor (Flight.recOf (.recover b.np b.loss.length) b)) :
    ∃ t m, exec (.recover b.np b.loss.length) s = .next t ∧
      exec (.recover b.np b.loss.length) t =
        .next { s.setCtx s.turn { x with status := some 0x00 } with hm := m } := by
  let i : Instr := .recover b.np b.loss.length
  let f := Flight.recOf i b
  let t := s.setCtx s.turn (x.launch f)
  have hcheck : checkOf i s x = .ok f := issueRec_ok.2
    ⟨r, hr, hs, .inr (.inr ⟨b, rfl, rfl, hd, hl, hb, hlo, hsp, hal, hso, hap, hrc, rfl⟩)⟩
  have ⟨_, _, hvec, _⟩ := hb
  obtain ⟨-, hnp, hvalid⟩ := hl
  have hok : b.ok t.par = true :=
    BlockArgs.ok_of hd hsp hvec hvalid hnp (Context.holdsBlocks_inRegisters hb hlo)
  obtain ⟨hget, hbusy, hfree⟩ := hx
  let m := b.write s.hm b.loss (kernelRec r b.nd b.np b.size b.loss (b.byte s.hm))
  refine ⟨t, m, exec_launch (i := i) nofun ⟨hget, hbusy, hfree⟩ hcheck, ?_⟩
  calc exec i t
    _ = completeRec t (x.launch f) f := exec_launched nofun hget rfl
    _ = .next { t.finish (x.launch f) .ok with hm := m } := completeRec_blocks hr hok
    _ = .next { s.setCtx s.turn { x with status := some 0x00 } with hm := m } := by
        rw [State.finish_launched, Context.finish_launch x f .ok hbusy hfree]; rfl

/-- A `REC` whose checks give an error status completes with that status and nothing else changed. -/
theorem exec_recover_fails {st : Status} (hx : s.idleTurn x)
    (hf : checkOf (.recover np nr) s x = .ok (Flight.failedOf (.recover np nr) st)) :
    ∃ t, exec (.recover np nr) s = .next t ∧
      exec (.recover np nr) t = .next (s.setCtx s.turn { x with status := some st.code }) :=
  ⟨_, exec_launch nofun hx hf, exec_failed nofun hx ⟨np, .inr (.inr ⟨nr, rfl⟩)⟩⟩

end recover

/-- Settles O25: `np` valid losses meet every condition of an issue; `np + 1` losses and a parity count
outside the domain are the two counts whose checks give an error status. -/
theorem lossCountBoundary : Obligations.LossCountBoundary := by
  refine ⟨fun b s x r hx hr hs hd hlen hl hb hlo hsp hal hso hap hrc => ?_,
    fun np s x r hx hr hs h1 h6 => ?_, fun np nr s x r hx hr hs hnp => ?_⟩
  · have h := exec_recover_succeeds (b := b) hx hr (hlen.symm ▸ hs) hd hl hb hlo hsp hal hso hap
      (hlen.symm ▸ hrc)
    rwa [hlen] at h
  · exact exec_recover_fails (st := .unrecoverableLoss) hx
      (issueRec_ok.2 ⟨r, hr, hs, .inr (.inl ⟨h1, h6, Nat.lt_succ_self np, rfl⟩)⟩)
  · exact exec_recover_fails (st := .invalidParityCount) hx
      (issueRec_ok.2 ⟨r, hr, hs, .inl ⟨hnp, rfl⟩⟩)

end Sys2Proof.Machine
end

section
/-! SUPPORT. What `Solve` returns (43_recovery.md R206): the one solution of a system that is not singular,
and so the closed forms for one and two unknowns (R207, R208). -/

namespace Sys2Proof.Machine

/-- Two lists of one length are equal where their entries are. -/
theorem eq_iff_getD {l l' : List Byte} (h : l.length = l'.length) :
    l = l' ↔ ∀ k, k < l'.length → l'.getD k 0 = l.getD k 0 := by
  constructor
  · rintro rfl k -; rfl
  · intro he
    refine List.ext_getElem h fun k hk hk' => ?_
    rw [← List.getD_eq_getElem l 0 hk, ← List.getD_eq_getElem l' 0 hk', he k hk']

section unique
variable {mul : Byte → Byte → Byte} {coeffs : List (List Byte)} {rhs : List Byte}

/-- Where the matrix is not singular, a list solves the system exactly if it is what `Solve` returns. -/
theorem eq_solve_iff (F : FieldLaws mul) (h : coeffs.length = rhs.length)
    (hu : Uniform rhs.length coeffs) (hs : singular mul coeffs = false) {xs : List Byte}
    (hx : xs.length = rhs.length) :
    (∀ a, a < rhs.length → dot mul rhs.length (matRow coeffs a) (fun b => xs.getD b 0) = rhs.getD a 0) ↔
      xs = solve mul coeffs rhs := by
  rw [eq_iff_getD (hx.trans (solve_length h).symm), solve_length h]
  exact solve_iff F hu h hs fun b => xs.getD b 0

end unique

/-- Settles O55: `Solve` answers as many values as there are equations, and solving the system is being
that answer. -/
theorem solveGivesTheUniqueSolution : Obligations.SolveGivesTheUniqueSolution :=
  fun _ _ _ F h hu hs => ⟨solve_length h, fun _ hx => eq_solve_iff F h hu hs hx⟩

/-! ## One and two unknowns -/

/-- Cramer's rule for the rows `a, b` and `c, d`, over a commutative ring in which every element is its own
negative; `e` stands for the inverse of the determinant. -/
theorem cramer_rows {K : Type} [CommRing K] (hK : ∀ z : K, z + z = 0) (e a b c d r0 r1 : K) :
    a * (e * (d * r0 + b * r1)) + b * (e * (c * r0 + a * r1)) = e * (a * d + b * c) * r0 ∧
      c * (e * (d * r0 + b * r1)) + d * (e * (c * r0 + a * r1)) = e * (a * d + b * c) * r1 :=
  ⟨by linear_combination hK (a * b * e * r1), by linear_combination hK (c * d * e * r0)⟩

section closedForms
variable {mul : Byte → Byte → Byte}

@[simp] theorem dot_one (a : Byte) (xs : Nat → Byte) : dot mul 1 [a] xs = mul a (xs 0) := by
  simp [dot, rowAt]

@[simp] theorem dot_two (a b : Byte) (xs : Nat → Byte) :
    dot mul 2 [a, b] xs = mul a (xs 0) ^^^ mul b (xs 1) := by
  simp [dot, rowAt, List.range_succ]

/-- `cramer_rows` for the bytes, where `e` is the inverse of the determinant. -/
theorem FieldLaws.cramer_rows (F : FieldLaws mul) {e a b c d : Byte}
    (he : mul e (mul a d ^^^ mul b c) = 0x01) (r0 r1 : Byte) :
    mul a (mul e (mul d r0 ^^^ mul b r1)) ^^^ mul b (mul e (mul c r0 ^^^ mul a r1)) = r0 ∧
      mul c (mul e (mul d r0 ^^^ mul b r1)) ^^^ mul d (mul e (mul c r0 ^^^ mul a r1)) = r1 := by
  obtain ⟨h0, h1⟩ := @Machine.cramer_rows (GfOf mul) (gfField F).toCommRing
    (fun z => BitVec.xor_self (w := 8) (x := z)) e a b c d r0 r1
  have hone : ∀ r, mul (mul e (mul a d ^^^ mul b c)) r = r := fun r => by rw [he, F.one]
  exact ⟨h0.trans (hone r0), h1.trans (hone r1)⟩

/-- The coefficient of an invertible system of one unknown is not `0x00`. -/
theorem coeff_ne_zero (F : FieldLaws mul) {a : Byte} (hs : singular mul [[a]] = false) : a ≠ 0x00 := by
  rintro rfl
  have hsing : singular mul [[0x00]] = true :=
    singular_of_kernel F (xs := fun _ => 0x01) (b := 0) (by simp [Uniform]) Nat.zero_lt_one (by decide)
      fun
      | 0, _ => (dot_one 0x00 _).trans (F.zero _)
  exact Bool.false_ne_true (hs.symm.trans hsing)

variable {a b c d : Byte}

/-- An invertible system of two unknowns maps only zero to zero. -/
theorem kernel_zero_of_not_singular (F : FieldLaws mul) (hs : singular mul [[a, b], [c, d]] = false)
    {x y : Byte} (h0 : mul a x ^^^ mul b y = 0x00) (h1 : mul c x ^^^ mul d y = 0x00) :
    x = 0x00 ∧ y = 0x00 := by
  have hu : Uniform 2 [[a, b], [c, d]] := by simp [Uniform]
  have hk : ∀ k, k < 2 → dot mul 2 (matRow [[a, b], [c, d]] k) (fun i => if i = 0 then x else y) = 0x00
    | 0, _ => by simpa [matRow] using h0
    | 1, _ => by simpa [matRow] using h1
  by_contra hne
  have hsing : singular mul [[a, b], [c, d]] = true := by
    by_cases hx : x = 0x00
    · exact singular_of_kernel F hu (b := 1) (by simp) (by simpa using fun hy => hne ⟨hx, hy⟩) hk
    · exact singular_of_kernel F hu (b := 0) (by simp) (by simpa using hx) hk
  exact Bool.false_ne_true (hs.symm.trans hsing)

/-- The determinant of an invertible system of two unknowns is not `0x00`: if it were, `(d, c)` and
`(b, a)` would be mapped to zero, so that the matrix would be zero and map `(1, 1)` to zero. -/
theorem det_ne_zero (F : FieldLaws mul) (hs : singular mul [[a, b], [c, d]] = false) :
    mul a d ^^^ mul b c ≠ 0x00 := by
  intro hdet
  have hself : ∀ p q, mul p q ^^^ mul q p = 0x00 := fun p q => xor_eq_zero.2 (F.comm p q)
  have hzero : ∀ p q, mul 0x00 p ^^^ mul 0x00 q = 0x00 := fun p q =>
    xor_eq_zero.2 ((F.zero p).trans (F.zero q).symm)
  obtain ⟨rfl, rfl⟩ := kernel_zero_of_not_singular F hs hdet (hself c d)
  obtain ⟨rfl, rfl⟩ := kernel_zero_of_not_singular F hs (hself a b) (hzero b a)
  have hone := kernel_zero_of_not_singular F hs (hzero 0x01 0x01) (hzero 0x01 0x01)
  exact absurd hone.1 (by decide)

/-- The closed form for one unknown (43_recovery.md R207). -/
theorem solve_one (F : FieldLaws mul) (hs : singular mul [[a]] = false) (r : Byte) :
    solve mul [[a]] [r] = [mul r (ginv mul a)] := by
  refine Eq.symm (Iff.mp (eq_solve_iff (rhs := [r]) F rfl (by simp [Uniform]) hs rfl) fun k hk => ?_)
  obtain rfl : k = 0 := Nat.lt_one_iff.1 hk
  calc dot mul 1 [a] _
    _ = mul a (mul r (ginv mul a)) := dot_one a _
    _ = mul r (mul a (ginv mul a)) := by rw [← F.assoc, F.comm a r, F.assoc]
    _ = r := by rw [F.mul_ginv (coeff_ne_zero F hs), F.mul_one]

/-- The closed form for two unknowns (43_recovery.md R208). -/
theorem solve_two (F : FieldLaws mul) (hs : singular mul [[a, b], [c, d]] = false) (r0 r1 : Byte) :
    solve mul [[a, b], [c, d]] [r0, r1] =
      [mul (ginv mul (mul a d ^^^ mul b c)) (mul d r0 ^^^ mul b r1),
        mul (ginv mul (mul a d ^^^ mul b c)) (mul c r0 ^^^ mul a r1)] := by
  have hinv : mul (ginv mul (mul a d ^^^ mul b c)) (mul a d ^^^ mul b c) = 0x01 := by
    rw [F.comm, F.mul_ginv (det_ne_zero F hs)]
  obtain ⟨h0, h1⟩ := F.cramer_rows hinv r0 r1
  refine Eq.symm (Iff.mp (eq_solve_iff (rhs := [r0, r1]) F rfl (by simp [Uniform]) hs rfl) fun k hk => ?_)
  match k, hk with
  | 0, _ => exact (dot_two a b _).trans h0
  | 1, _ => exact (dot_two c d _).trans h1

end closedForms

/-- Settles O57: each closed form solves its system, so it is what `Solve` returns. -/
theorem closedFormsAgreeWithSolve : Obligations.ClosedFormsAgreeWithSolve :=
  fun _ F => ⟨fun _ r hs => solve_one F hs r,
    fun _ _ _ _ r0 r1 hs => ⟨det_ne_zero F hs, solve_two F hs r0 r1⟩⟩

end Sys2Proof.Machine
end

section
/-! SUPPORT. The encoder against the decoder (30_encoding.md R100, R103, R107): a command's word has the
command's fields, so it decodes to the command, and the listed words decode as listed. -/

namespace Sys2Proof

section encode
variable (i : Instr)

@[simp] theorem rsvField_encode : rsvField (encode i) = 0 := rsvField_wordOf _ _ _ _
@[simp] theorem bField_encode : bField (encode i) = i.operandB := bField_wordOf _ _ _ _
@[simp] theorem aField_encode : aField (encode i) = i.operandA := aField_wordOf _ _ _ _
@[simp] theorem opField_encode : opField (encode i) = i.opcode := opField_wordOf _ _ _ _

end encode

/-- Settles O1: the opcode picks the command's row, the fields that must be 0 are, and a count or index
that fits in 8 bits is read back from its field. -/
theorem decodeOfEncodeIsTheCommand : Obligations.DecodeOfEncodeIsTheCommand := by
  intro i h
  cases i with
  | init | selftest => decide
  | setmode m => simp [decode, needB0, Instr.opcode, Instr.operandA, Instr.operandB]
  | gfmul a b => simp [decode, Instr.opcode, Instr.operandA, Instr.operandB]
  | gfcoef j d | recover np nr =>
    simp only [Instr.wf, Bool.and_eq_true, decide_eq_true_eq] at h
    simp [decode, Instr.opcode, Instr.operandA, Instr.operandB, h]
  | genref np | gen np =>
    simp only [Instr.wf, decide_eq_true_eq] at h
    simp [decode, needB0, Instr.opcode, Instr.operandA, Instr.operandB, h]

/-- The decoder answers only commands whose operands fit: it reads them from 8-bit fields. -/
theorem wf_of_decode {w : Word} {i : Instr} (h : decode w = .ok i) : i.wf = true := by
  obtain ⟨j, hj, -, -, -, -, hwf⟩ | ⟨h', -⟩ | ⟨h', -⟩ | ⟨h', -⟩ | ⟨h', -⟩ := decode_cases w
  · obtain rfl : j = i := Decoded.ok.inj (hj.symm.trans h)
    exact hwf
  all_goals simp [h] at h'

/-- Settles O2: a decoded word has the fields of its command. -/
theorem encodeOfDecodedIsTheWord : Obligations.EncodeOfDecodedIsTheWord :=
  fun _ _ h => ⟨encode_of_decode h, wf_of_decode h⟩

/-- Settles O4: each listed word decodes as listed. -/
theorem listedWordsDecode : Obligations.ListedWordsDecode := by
  unfold Obligations.ListedWordsDecode
  decide

end Sys2Proof
end

section
/-! SUPPORT. What one step does to each part of the state, said once from the step of a command and the
action of a host agent, and the invariant along a step (10_state.md, 20_memory.md sections 4 and 5,
60_exceptions.md section 3). -/

namespace Sys2Proof.Machine

/-! ## The step of the context whose turn it is -/

/-- The agents of context `turn` wait, or its host agent acts, or its command in flight completes. -/
theorem turnStep_cases (s : State) :
    turnStep s = .next s ∨
      (∃ x act rest, s.idleTurn x ∧ x.prog = act :: rest ∧ turnStep s =
        hostStep (s.setCtx s.turn { x with prog := rest }) { x with prog := rest } act) ∨
      ∃ x f, s.ctxs[s.turn]? = some x ∧ x.inflight = some f ∧ turnStep s = exec f.cmd s := by
  cases hx : s.ctxs[s.turn]? with
  | none => exact .inl (by simp [turnStep, hx])
  | some x =>
    cases hf : x.inflight with
    | some f => exact .inr (.inr ⟨x, f, rfl, hf, turnStep_flight hx hf⟩)
    | none =>
      cases hb : x.busy with
      | true => exact .inl (by simp [turnStep, hx, hf, hb])
      | false =>
        cases hp : x.prog with
        | nil => exact .inl (by simp [turnStep, hx, hf, hb, hp])
        | cons act rest =>
          exact .inr (.inl ⟨x, act, rest, ⟨hx, hb, hf⟩, hp, turnStep_idle ⟨hx, hb, hf⟩ hp⟩)

/-- Settles O7: the step of the context whose turn it is, with a command in flight, is its completion. -/
theorem stepCompletesTheCommandInFlight : Obligations.StepCompletesTheCommandInFlight :=
  fun _ _ _ _ hn hx hf => (step_of_nextTurn hn).trans (turnStep_flight hx hf)

/-- Settles O6: the idle host agent's step is the write of the word, which runs what it decodes to. -/
theorem stepRunsTheDecodedCommand : Obligations.StepRunsTheDecodedCommand := by
  intro s s' x w rest i hn hx hp hw
  rw [step_idle hn hx hp]
  simp [hostStep, issueWord, hw]

/-! ## The invariant -/

/-- Moving a program past its head keeps the invariant. -/
theorem inv_pop {s : State} {x : Context} {act : HostAction} {rest : List HostAction} (h : s.Inv)
    (hx : s.idleTurn x) (hp : x.prog = act :: rest) :
    (s.setCtx s.turn { x with prog := rest }).Inv :=
  inv_setReg h hx.1 rfl rfl rfl rfl fun _ ha => hp ▸ List.mem_cons_of_mem act ha

/-- Settles O43: waiting and choosing whose turn it is keep the invariant, and so do a host agent's action
and a command's step. -/
theorem stepKeepsTheInvariant : Obligations.StepKeepsTheInvariant := by
  intro s t h ht
  rcases step_cases ht with ⟨-, rfl⟩ | ⟨s', hn, rfl | ⟨x, act, rest, hx, hp, he⟩ | ⟨x, f, -, -, he⟩⟩
  · exact h
  · exact inv_turn h hn
  · exact inv_hostStep (inv_pop (inv_turn h hn) hx hp) (idleTurn_pop hx) he
  · exact inv_exec (inv_turn h hn) he

/-- A context right after reset is the only one a reset state has. -/
theorem reset_get {c : Nat} {x : Context} (h : State.reset.ctxs[c]? = some x) :
    x = Context.reset defaultParams.vecCount := by
  have hx : x ∈ List.replicate 2 (Context.reset defaultParams.vecCount) := List.mem_of_getElem? h
  exact List.eq_of_mem_replicate hx

theorem reset_flight (c : Nat) : State.reset.flight? c = none := by
  cases h : State.reset.ctxs[c]? with
  | none => simp [State.flight?, h]
  | some x => simp [State.flight?, h, reset_get h, Context.reset]

/-- Settles O42: after reset memory and `FAULTS` are empty, the engine is `UNINIT` and every context is
idle, with nothing written and no program. -/
theorem invariantHoldsAtReset : Obligations.InvariantHoldsAtReset where
  mem := rfl
  faults := List.nodup_nil
  busy c x hx := by rw [reset_get hx]; rfl
  status c x hx v hv := by rw [reset_get hx] at hv; cases hv
  flights c f hf := by rw [reset_flight] at hf; cases hf
  raceFree c c' f g _ hf := by rw [reset_flight] at hf; cases hf
  tables r hr := by cases hr
  vecs c x hx := by rw [reset_get hx]; exact List.length_replicate
  progs c x hx act hact := by rw [reset_get hx] at hact; cases hact

/-- Settles O8: the reset state is written out with these values. -/
theorem resetLeavesTheSpecValues : Obligations.ResetLeavesTheSpecValues := by
  refine ⟨rfl, rfl, fun x hx => ?_⟩
  obtain ⟨c, hc⟩ := List.getElem?_of_mem hx
  rw [reset_get hc]
  exact ⟨rfl, rfl, List.length_replicate, fun v hv => List.eq_of_mem_replicate hv,
    fun k => Vector.getElem_replicate k.isLt, rfl, rfl, rfl, rfl⟩

/-! ## Every step answers -/

/-- A register access answers where the register exists; every other action of an idle host agent
answers, since an issue always does. -/
theorem hostStep_answers {s : State} {x : Context} {act : HostAction} (hp : s.par.valid = true)
    (hx : s.idleTurn x) (hwf : act.wf s.par.vecCount = true) : ∃ t, hostStep s x act = .next t := by
  cases act with
  | wrNd v | wrSize v | wrVec k v | wrLoss k v | rd q => exact ⟨_, ifRegister_of hwf⟩
  | mw a v | mr a => exact ⟨_, rfl⟩
  | cmd w =>
    cases hw : decode w with
    | ok i => exact ⟨_, by rw [hostStep, issueWord, hw]; exact exec_idle hp hx⟩
    | illegal why => exact ⟨_, issueWord_illegal hw s⟩

/-- In a state that meets the invariant the completion of a command in flight answers. -/
theorem exec_flight_answers {s : State} {x : Context} {f : Flight} (h : s.Inv)
    (hp : s.par.valid = true) (hx : s.ctxs[s.turn]? = some x) (hf : x.inflight = some f) :
    ∃ t, exec f.cmd s = .next t ∧ Completed f.cmd s t x f := by
  obtain ⟨t, ht⟩ := completeOf_answers (x := x) (h.flights _ _ (flight_of hx hf))
    fun r hr => by rw [h.tables r hr]; rfl
  exact ⟨t, (exec_flight hp hx hf).trans ht, completeOf_shape ht⟩

/-- Settles O44: the actions of a program name registers that exist, and records in flight are those an
issue makes, so a host agent's action and a completion both answer. -/
theorem noRunStops : Obligations.NoRunStops := by
  intro s h hp
  cases hn : s.nextTurn with
  | none => exact ⟨s, by simp [step, hn]⟩
  | some s' =>
    have h' := inv_turn h hn
    have hp' : s'.par.valid = true := by rw [nextTurn_par hn]; exact hp
    rw [step_of_nextTurn hn]
    rcases turnStep_cases s' with he | ⟨x, act, rest, hx, hprog, he⟩ | ⟨x, f, hx, hf, he⟩ <;> rw [he]
    · exact ⟨s', rfl⟩
    · exact hostStep_answers hp' (idleTurn_pop hx)
        (h'.progs _ x hx.1 act (by rw [hprog]; exact List.mem_cons_self))
    · obtain ⟨t, ht, -⟩ := exec_flight_answers h' hp' hx hf
      exact ⟨t, ht⟩

/-- Settles O45: the completion answers, and leaves its context idle with a status code. -/
theorem commandInFlightCompletesInItsTurn : Obligations.CommandInFlightCompletesInItsTurn := by
  intro s s' f h hp hn hf
  obtain ⟨x, hx, hxf⟩ := of_flight hf
  obtain ⟨t, ht, hc⟩ := exec_flight_answers (inv_turn h hn) (by rw [nextTurn_par hn]; exact hp) hx hxf
  obtain ⟨z, hz, hb, hi, ⟨v, hv, hm⟩, -⟩ := completed_ctx hc
  refine ⟨t, z, v, stepCompletesTheCommandInFlight s s' x f hn hx hxf ▸ ht, ?_, hi, hb, hv, hm⟩
  rw [hz]
  exact State.setCtx_get hx z

/-! ## What a step leaves unchanged -/

/-- A step leaves the number of contexts, the arguments of the model, every fault record and every context
but the one whose turn it is. -/
theorem step_frame {s s' t : State} (hn : s.nextTurn = some s') (ht : step s = .next t) :
    t.ctxs.length = s.ctxs.length ∧ t.par = s.par ∧ (∀ q ∈ s.faults, q ∈ t.faults) ∧
      ∀ c, c ≠ s'.turn → t.ctxs[c]? = s.ctxs[c]? := by
  rw [← nextTurn_ctxs hn, ← nextTurn_par hn, ← nextTurn_faults hn]
  rcases step_cases ht with ⟨hn', -⟩ | ⟨s'', hn', h⟩
  · rw [hn] at hn'; cases hn'
  · obtain rfl : s' = s'' := Option.some.inj (hn.symm.trans hn')
    rcases h with rfl | ⟨x, act, rest, -, -, he⟩ | ⟨x, f, -, -, he⟩
    · exact ⟨rfl, rfl, fun q hq => hq, fun _ _ => rfl⟩
    · obtain ⟨hlen, hpar, hfaults, hctx⟩ := hostStep_frame he
      exact ⟨by simpa using hlen, hpar, hfaults,
        fun c hc => (hctx c hc).trans (State.setCtx_get_ne s' _ hc)⟩
    · exact exec_frame he

/-- Settles O48: where some agent has the turn, the frame of its step says so; otherwise the machine
waits. -/
theorem faultsStayAndArgumentsAreFixed : Obligations.FaultsStayAndArgumentsAreFixed := by
  intro s t ht
  rcases step_cases ht with ⟨-, rfl⟩ | ⟨s', hn, -⟩
  · exact ⟨rfl, fun q hq => hq⟩
  · obtain ⟨-, hpar, hfaults, -⟩ := step_frame hn ht
    exact ⟨hpar, hfaults⟩

/-- Settles O49: part of the frame of a step. -/
theorem otherContextsAreUntouched : Obligations.OtherContextsAreUntouched := by
  intro s s' t hn ht
  obtain ⟨hlen, -, -, hctx⟩ := step_frame hn ht
  exact ⟨hlen, hctx⟩

/-! ## Memory -/

/-- A step that changes a byte completes a command that writes it, or is the host's write of it, which no
footprint in flight holds. -/
theorem step_mem {s s' t : State} {a : Nat} (h : s.Inv) (hn : s.nextTurn = some s')
    (ht : step s = .next t) (ha : memRead t.hm a ≠ memRead s.hm a) :
    ∃ x, s.ctxs[s'.turn]? = some x ∧
      ((∃ f, x.inflight = some f ∧ spansHold f.wr a = true) ∨
        ∃ addr v rest, x.prog = .mw addr v :: rest ∧ addr.toNat = a ∧
          ∀ c f, s.flight? c = some f → spansHold f.rd a = false ∧ spansHold f.wr a = false) := by
  have h' := inv_turn h hn
  have hctxs := nextTurn_ctxs hn
  rw [← nextTurn_hm hn] at ha
  rcases step_cases ht with ⟨hn', -⟩ | ⟨s'', hn', hstep⟩
  · rw [hn] at hn'; cases hn'
  obtain rfl : s' = s'' := Option.some.inj (hn.symm.trans hn')
  rcases hstep with rfl | ⟨x, act, rest, hx, hp, he⟩ | ⟨x, f, hx, hf, he⟩
  · exact absurd rfl ha
  · rcases hostStep_hm (idleTurn_pop hx) he with heq | ⟨addr, v, rfl, heq, hfree⟩
    · exact absurd (by rw [heq]; rfl) ha
    · refine ⟨x, hctxs ▸ hx.1, .inr ⟨addr, v, rest, hp, ?_⟩⟩
      have haddr : addr.toNat = a := by
        by_contra hne
        exact ha (by rw [heq]; exact (memRead_memWrite h'.mem _ v a).trans (if_neg (Ne.symm hne)))
      refine ⟨haddr, fun c f hf => haddr ▸ hfree c f ?_⟩
      have hpop := flight_setCtx_same (y := { x with prog := rest }) hx.1 rfl c
      rw [hpop, State.flight?, hctxs]
      exact hf
  · refine ⟨x, hctxs ▸ hx, .inl ⟨f, hf, ?_⟩⟩
    by_contra hwr
    rcases exec_hm he with heq | ⟨x', f', hx', hf', -, hc⟩
    · exact ha (by rw [heq])
    · obtain rfl : x = x' := Option.some.inj (hx.symm.trans hx')
      obtain rfl : f = f' := Option.some.inj (hf.symm.trans hf')
      exact ha (completed_read h'.mem (h'.flights _ _ (flight_of hx hf)) rfl hc (by simpa using hwr))

/-- Settles O51: what a change of a byte says of the step, without the footprints in flight. -/
theorem memoryChangesOnlyWhereWritten : Obligations.MemoryChangesOnlyWhereWritten := by
  intro s t a h ht ha
  rcases step_cases ht with ⟨-, rfl⟩ | ⟨s', hn, -⟩
  · exact absurd rfl ha
  · obtain ⟨x, hx, hf | ⟨addr, v, rest, hp, haddr, -⟩⟩ := step_mem h hn ht ha
    · exact ⟨s', x, hn, hx, .inl hf⟩
    · exact ⟨s', x, hn, hx, .inr ⟨addr, v, rest, hp, haddr⟩⟩

/-- Settles O46: the context is one the step leaves alone; a byte of the footprint that changed would be
one the completing command writes, against the absence of conflicts, or one the host writes, against the
check of every host write. -/
theorem footprintIsStableInFlight : Obligations.FootprintIsStableInFlight := by
  intro s s' t c f h hn hc hf ht
  obtain ⟨-, -, -, hctx⟩ := step_frame hn ht
  refine ⟨hctx c (Ne.symm hc), fun a ha => ?_⟩
  by_contra hne
  obtain ⟨x, hx, ⟨g, hg, hwr⟩ | ⟨-, -, -, -, -, hfree⟩⟩ := step_mem h hn ht hne
  · have hno := (h.raceFree s'.turn c g f hc (flight_of hx hg) hf).1
    exact Bool.false_ne_true (hno.symm.trans (conflicts_iff.2 ⟨a, .inl ⟨hwr, ha⟩⟩))
  · obtain ⟨hrd, hwr⟩ := hfree c f hf
    simp [hrd, hwr] at ha

/-! ## The engine -/

/-- A command's step leaves the engine, unless it is the completion of the first `INIT`. -/
theorem exec_engine {i : Instr} {s t : State} (h : exec i s = .next t) :
    t.engine = s.engine ∨ (s.engine = .uninit ∧ ∃ f, s.flight? s.turn = some f ∧ f.cmd = .init) := by
  rcases exec_cases h with ⟨x, k, -, rfl⟩ | ⟨x, f, -, -, rfl⟩ | ⟨x, f, hx, hf, hi, hc⟩
  · exact .inl rfl
  · exact .inl rfl
  · rcases completed_engine (completeOf_shape hc) with he | ⟨rfl, hu, -⟩
    · exact .inl he
    · exact .inr ⟨hu, f, flight_of hx hf, hi⟩

/-- A host agent's action raises a fault, replaces its own context without touching `RESULT`, writes memory,
or runs a command. -/
theorem hostStep_cases {s t : State} {x : Context} {act : HostAction} (he : hostStep s x act = .next t) :
    (∃ src k, t = s.raise src k) ∨ (∃ y : Context, t = s.setCtx s.turn y ∧ y.result = x.result) ∨
      (∃ m, t = { s with hm := m }) ∨ ∃ i, exec i s = .next t := by
  cases act with
  | wrNd v | wrSize v | wrVec k v | wrLoss k v => exact .inr (.inl ⟨_, hostRegWrite_next he, rfl⟩)
  | rd q =>
    cases hostRegRead_next he
    unfold hostRegReadState
    split
    · exact .inl ⟨_, _, rfl⟩
    · exact .inr (.inl ⟨_, rfl, rfl⟩)
  | cmd w =>
    cases hw : decode w with
    | ok i => exact .inr (.inr (.inr ⟨i, by rwa [hostStep, issueWord, hw] at he⟩))
    | illegal why => exact .inl ⟨_, _, Host.Outcome.next.inj (he.symm.trans (issueWord_illegal hw s))⟩
  | mw a v =>
    cases he
    unfold hostMemWrite
    split
    · exact .inl ⟨_, _, rfl⟩
    · exact .inr (.inr (.inl ⟨_, rfl⟩))
  | mr a =>
    cases he
    unfold hostMemRead
    split
    · exact .inl ⟨_, _, rfl⟩
    · exact .inr (.inl ⟨_, rfl, rfl⟩)

/-- Nothing is in flight on an idle context. -/
theorem idleTurn_flight {s : State} {x : Context} (hx : s.idleTurn x) : s.flight? s.turn = none := by
  obtain ⟨hget, -, hidle⟩ := hx
  simp [State.flight?, hget, hidle]

/-- An idle host agent's action leaves the engine. -/
theorem hostStep_engine {s t : State} {x : Context} {act : HostAction} (hx : s.idleTurn x)
    (he : hostStep s x act = .next t) : t.engine = s.engine := by
  rcases hostStep_cases he with ⟨src, k, rfl⟩ | ⟨y, rfl, -⟩ | ⟨m, rfl⟩ | ⟨i, hi⟩
  · rfl
  · rfl
  · rfl
  · rcases exec_engine hi with h | ⟨-, f, hf, -⟩
    · exact h
    · exact absurd (hf.symm.trans (idleTurn_flight hx)) nofun

/-- A step leaves the engine, unless it is the completion of the first `INIT`. -/
theorem step_engine {s t : State} (ht : step s = .next t) :
    t.engine = s.engine ∨
      (s.engine = .uninit ∧ ∃ s' f, s.nextTurn = some s' ∧ s'.flight? s'.turn = some f ∧ f.cmd = .init) := by
  rcases step_cases ht with ⟨-, rfl⟩ | ⟨s', hn, h⟩
  · exact .inl rfl
  rw [← nextTurn_engine hn]
  rcases h with rfl | ⟨x, act, rest, hx, -, he⟩ | ⟨x, f, -, -, he⟩
  · exact .inl rfl
  · exact .inl (hostStep_engine (idleTurn_pop hx) he :)
  · exact (exec_engine he).imp_right fun ⟨hu, f, hf⟩ => ⟨hu, s', f, hn, hf⟩

/-- Settles O47: a step that changes the engine completes an `INIT` in `UNINIT`. -/
theorem engineTransitionsOnceAndTablesStay : Obligations.EngineTransitionsOnceAndTablesStay := by
  intro s t ht
  rcases step_engine ht with he | ⟨hu, s', f, hn, hf, hi⟩
  · exact ⟨fun r hr => ⟨r, he.trans hr, rfl, rfl, rfl, rfl⟩,
      fun r hu hr => absurd (hu.symm.trans (he.symm.trans hr)) nofun⟩
  · exact ⟨fun r hr => absurd (hu.symm.trans hr) nofun, fun r _ _ => ⟨s', f, hn, hf, hi⟩⟩

/-! ## `RESULT` -/

/-- No context's `RESULT` differs. -/
def SameResults (s t : State) : Prop :=
  ∀ c : Nat, t.ctxs[c]?.map Context.result = s.ctxs[c]?.map Context.result

theorem SameResults.trans {s t u : State} (h : SameResults s t) (h' : SameResults t u) :
    SameResults s u := fun c => (h' c).trans (h c)

/-- Replacing a context by one with the same `RESULT`. -/
theorem sameResults_setCtx {s : State} {c : Nat} {x y : Context} (hx : s.ctxs[c]? = some x)
    (hy : y.result = x.result) : SameResults s (s.setCtx c y) := by
  intro c'
  by_cases hc : c' = c
  · subst hc
    rw [State.setCtx_get hx, hx, Option.map_some, Option.map_some, hy]
  · rw [State.setCtx_get_ne s y hc]

/-- A command's step leaves every `RESULT`, unless it is the completion of a lookup. -/
theorem exec_results {i : Instr} {s t : State} (h : exec i s = .next t) :
    SameResults s t ∨ ∃ f, s.flight? s.turn = some f ∧ isLookup f.cmd = true := by
  rcases exec_cases h with ⟨x, k, -, rfl⟩ | ⟨x, f, hx, -, rfl⟩ | ⟨x, f, hx, hf, rfl, hc⟩
  · exact .inl fun _ => rfl
  · exact .inl (sameResults_setCtx hx.1 rfl)
  · obtain ⟨y, st, rfl | ⟨v, -, hl⟩, ht⟩ := (completeOf_shape hc).context
    · refine .inl fun c => ?_
      rw [ht]
      exact sameResults_setCtx (y := y.finish st) hx rfl c
    · exact .inr ⟨f, flight_of hx hf, hl⟩

/-- An idle host agent's action leaves every `RESULT`. -/
theorem hostStep_results {s t : State} {x : Context} {act : HostAction} (hx : s.idleTurn x)
    (he : hostStep s x act = .next t) : SameResults s t := by
  rcases hostStep_cases he with ⟨src, k, rfl⟩ | ⟨y, rfl, hy⟩ | ⟨m, rfl⟩ | ⟨i, hi⟩
  · exact fun _ => rfl
  · exact sameResults_setCtx hx.1 hy
  · exact fun _ => rfl
  · rcases exec_results hi with h | ⟨f, hf, -⟩
    · exact h
    · exact absurd (hf.symm.trans (idleTurn_flight hx)) nofun

/-- A step leaves every `RESULT`, unless it is the completion of a lookup. -/
theorem step_results {s t : State} (ht : step s = .next t) :
    SameResults s t ∨
      ∃ s' f, s.nextTurn = some s' ∧ s.flight? s'.turn = some f ∧ isLookup f.cmd = true := by
  rcases step_cases ht with ⟨-, rfl⟩ | ⟨s', hn, h⟩
  · exact .inl fun _ => rfl
  simp only [SameResults, State.flight?, ← nextTurn_ctxs hn]
  rcases h with rfl | ⟨x, act, rest, hx, -, he⟩ | ⟨x, f, -, -, he⟩
  · exact .inl fun _ => rfl
  · exact .inl ((sameResults_setCtx (y := { x with prog := rest }) hx.1 rfl).trans
      (hostStep_results (idleTurn_pop hx) he))
  · exact (exec_results he).imp_right fun ⟨f, hf⟩ => ⟨s', f, hn, hf⟩

theorem isLookup_iff {i : Instr} :
    isLookup i = true ↔ (∃ a b, i = .gfmul a b) ∨ ∃ j d, i = .gfcoef j d := by
  cases i <;> simp [isLookup]

/-- Settles O50: a changed `RESULT` is one of the context whose turn it is, and the step completes a
lookup. -/
theorem onlyLookupsWriteResult : Obligations.OnlyLookupsWriteResult := by
  intro s t c x y ht hx hy hne
  rcases step_results ht with h | ⟨s', f, hn, hf, hl⟩
  · have := h c
    rw [hx, hy] at this
    exact absurd (Option.some.inj this) hne
  · obtain rfl : c = s'.turn := by
      by_contra hc
      obtain ⟨-, hother⟩ := otherContextsAreUntouched s s' t hn ht
      rw [hother c hc, hx] at hy
      cases hy
      exact hne rfl
    exact ⟨f, hf, isLookup_iff.1 hl⟩

/-! ## Two completions -/

section effect
variable {par : Params} {r : ReadyRegs} {f g : Flight}

/-- The state an effect leaves on the context whose turn it is. -/
def Effect.after (e : Effect par r f) (s : State) (x : Context) : State :=
  { s.setCtx s.turn (e.reg s.draws x) with
    hm := e.mem s.hm, draws := if f.cmd = .selftest then s.draws + 1 else s.draws }

/-- The completion of a command in flight is its effect. -/
theorem Effect.exec_eq (e : Effect par r f) {s : State} {x : Context} (hi : isExclusive f.cmd = false)
    (hp : s.par = par) (hr : s.engine = .ready r) (hx : s.ctxs[s.turn]? = some x)
    (hf : x.inflight = some f) : exec f.cmd s = .next (e.after s x) :=
  (exec_flight_ne (fun h => by rw [h] at hi; cases hi) hx hf).trans (e.run s x hp hr)

/-- What a completion leaves in its context does not depend on one before it, unless both are self-tests. -/
theorem Effect.reg_after (ef : Effect par r f) (eg : Effect par r g)
    (h : ¬(f.cmd = .selftest ∧ g.cmd = .selftest)) (s : State) (x y : Context) :
    eg.reg (ef.after s x).draws y = eg.reg s.draws y := by
  by_cases hg : g.cmd = .selftest
  · simp only [Effect.after, if_neg fun hf => h ⟨hf, hg⟩]
  · exact eg.draws _ _ _ hg

end effect

/-- A command in flight that need not be alone is in flight in `READY`, and has an effect. -/
theorem inv_effect {s : State} {c : Nat} {f : Flight} (h : s.Inv) (hf : s.flight? c = some f)
    (he : isExclusive f.cmd = false) :
    ∃ r, s.engine = .ready r ∧ Nonempty (Effect s.par r f) := by
  have hs := h.flights c f hf
  cases hr : s.engine with
  | uninit =>
    rw [hr] at hs
    obtain rfl : f = Flight.plainOf .init := hs
    cases he
  | ready r =>
    rw [hr] at hs
    exact ⟨r, rfl, effect_of_sound hs (by rw [h.tables r hr]; rfl) he⟩

/-- Settles O52: two commands in flight need not be alone, so each completion is an effect; their
footprints do not conflict, so the memories agree, and at most one of them looks at the draws. -/
theorem completionsOnTwoContextsCommute : Obligations.CompletionsOnTwoContextsCommute := by
  intro s c c' f g h _ hne hf hg hst
  obtain ⟨hfg, hef⟩ := h.raceFree c c' f g hne hf hg
  obtain ⟨-, heg⟩ := h.raceFree c' c g f hne.symm hg hf
  obtain ⟨r, hr, ⟨ef⟩⟩ := inv_effect h hf hef
  obtain ⟨r', hr', ⟨eg⟩⟩ := inv_effect h hg heg
  obtain rfl : r = r' := Engine.ready.inj (hr.symm.trans hr')
  obtain ⟨x, hx, hxf⟩ := of_flight hf
  obtain ⟨y, hy, hyg⟩ := of_flight hg
  let t := ef.after { s with turn := c } x
  let t' := eg.after { s with turn := c' } y
  have hyt : t.ctxs[c']? = some y := (State.setCtx_get_ne s _ hne.symm).trans hy
  have hxt : t'.ctxs[c]? = some x := (State.setCtx_get_ne s _ hne).trans hx
  refine ⟨t, t', eg.after { t with turn := c' } y, ef.after { t' with turn := c } x,
    ef.exec_eq (s := { s with turn := c }) hef rfl hr hx hxf,
    eg.exec_eq (s := { t with turn := c' }) heg rfl hr hyt hyg,
    eg.exec_eq (s := { s with turn := c' }) heg rfl hr hy hyg,
    ef.exec_eq (s := { t' with turn := c }) hef rfl hr hxt hxf,
    rfl, ef.mem_comm eg hfg h.mem, ?_, rfl, ?_⟩
  · change (s.ctxs.set c (ef.reg s.draws x)).set c' (eg.reg t.draws y) =
      (s.ctxs.set c' (eg.reg s.draws y)).set c (ef.reg t'.draws x)
    rw [ef.reg_after eg hst, eg.reg_after ef fun ⟨hgs, hfs⟩ => hst ⟨hfs, hgs⟩]
    exact List.set_comm _ _ hne
  · simp only [t, t', Effect.after]
    split_ifs <;> rfl

end Sys2Proof.Machine
end

section
/-! SUPPORT. The issue of a command (60_exceptions.md R254) and the round of a command without blocks: its
issue, and the completion of what it put in flight (40_field_tables.md R142, R143, 42_registry_control.md,
44_selftest.md R230). -/

namespace Sys2Proof.Machine

/-! ## Issue -/

/-- Settles O10: the check of serialization comes first, or right after the check that the engine is ready,
and names such a context. -/
theorem unserializedCommandFaults : Obligations.UnserializedCommandFaults := by
  intro i s x hp hx he hs
  obtain ⟨c, f, hc, hf, hex, hserial⟩ := checkSerial_error hs
  refine ⟨c, f, hc, hf, hex, ?_⟩
  rw [exec_idle hp hx, checkOf_unserial he hserial]
  rfl

/-- Settles O11: on an idle context a command's step raises a fault or launches the record that passed its
checks. -/
theorem issueRaisesOrLaunchesAndNothingElse : Obligations.IssueRaisesOrLaunchesAndNothingElse := by
  intro i s t x hx ht
  rcases exec_cases ht with ⟨y, k, -, rfl⟩ | ⟨y, f, hy, hf, rfl⟩ | ⟨y, f, hy, hf, -⟩
  · exact .inl ⟨k, rfl⟩
  · obtain rfl : x = y := Option.some.inj (hx.1.symm.trans hy.1)
    exact .inr ⟨f, checkOf_cmd hf, rfl⟩
  · obtain rfl : x = y := Option.some.inj (hx.1.symm.trans hy)
    exact absurd (hx.2.2.symm.trans hf) nofun

section round
variable {i : Instr} {s : State} {x : Context} {f : Flight} {r : ReadyRegs} {st : Status}

/-- A command whose checks pass goes into flight, and its next step is the completion. -/
theorem exec_round (hi : i ≠ .init) (hx : s.idleTurn x) (hf : checkOf i s x = .ok f) :
    exec i s = .next (s.setCtx s.turn (x.launch f)) ∧
      exec i (s.setCtx s.turn (x.launch f)) =
        completeOf i (s.setCtx s.turn (x.launch f)) (x.launch f) f :=
  ⟨exec_launch hi hx hf, exec_launched hi hx.1 (checkOf_cmd hf)⟩

/-- Completing what was just launched writes `STATUS` and nothing else. -/
theorem finish_launch_idle (hx : s.idleTurn x) :
    (s.setCtx s.turn (x.launch f)).finish (x.launch f) st =
      s.setCtx s.turn { x with status := some st.code } := by
  rw [State.finish_launched, Context.finish_launch x f st hx.2.1 hx.2.2]

/-- Completing a lookup that was just launched writes `RESULT` and `STATUS` and nothing else. -/
theorem finish_lookup_idle (hx : s.idleTurn x) (v : Byte) :
    (s.setCtx s.turn (x.launch f)).finish ((x.launch f).setResult v) st =
      s.setCtx s.turn { x with result := some v, status := some st.code } := by
  have hfin := Context.finish_launch (x.setResult v) f st hx.2.1 hx.2.2
  rw [State.finish_launched]
  exact congrArg (s.setCtx s.turn) hfin

/-- Serialized in `READY`, a command passes the checks all commands share. -/
theorem checkStart_ready (hr : s.engine = .ready r) (hs : s.serialFor i) : checkStart s i = .ok r :=
  checkStart_ok.2 ⟨hr, hs⟩

end round

/-! ## Lookups -/

section lookup
variable {s : State} {x : Context} {f : Flight} {r : ReadyRegs} {a b : Byte} {j d : Nat}

theorem checkOf_gfmul (hr : s.engine = .ready r) (hs : s.serialFor (.gfmul a b)) :
    checkOf (.gfmul a b) s x = .ok (Flight.plainOf (.gfmul a b)) := by
  simp [checkOf, checkStart_ready hr hs]

/-- `GFCOEF` passes its checks exactly inside the table. -/
theorem checkOf_gfcoef (hr : s.engine = .ready r) (hs : s.serialFor (.gfcoef j d)) :
    checkOf (.gfcoef j d) s x =
      if j < Config.parityMax ∧ d < s.par.ndMax then .ok (Flight.plainOf (.gfcoef j d))
      else .error (.arg .coefIndex) := by
  split_ifs with h <;> simp [checkOf, checkStart_ready hr hs, ← Bool.decide_and, h]

theorem completeOf_gfmul (hr : s.engine = .ready r) :
    completeOf (.gfmul a b) s x f = .next (s.finish (x.setResult (mulAt r.mul a b)) .ok) :=
  withTables_ready hr

theorem completeOf_gfcoef {v : Byte} (hr : s.engine = .ready r) (hv : coefAt? r.genT j d = some v) :
    completeOf (.gfcoef j d) s x f = .next (s.finish (x.setResult v) .ok) := by
  rw [completeOf, withTables_ready hr, hv]

end lookup

/-- Settles O12: `GFMUL` passes its checks, and its completion reads the table. -/
theorem gfmulWritesTheTableEntry : Obligations.GfmulWritesTheTableEntry := by
  intro a b s x r hx hr hs
  obtain ⟨hissue, hcomplete⟩ := exec_round (i := .gfmul a b) nofun hx (checkOf_gfmul hr hs)
  refine ⟨_, hissue, rfl, hcomplete.trans ?_⟩
  rw [completeOf_gfmul (s := s.setCtx s.turn _) hr, finish_lookup_idle hx]
  rfl

/-- Settles O13: `GFCOEF` inside the table passes its checks, and its completion finds the entry. -/
theorem gfcoefWritesTheCoefficient : Obligations.GfcoefWritesTheCoefficient := by
  intro j d s x r hj hd hx hr hgen hs
  have hin : j < Config.parityMax ∧ d < s.par.ndMax := ⟨hj, by rw [hgen] at hd; exact hd⟩
  have hv : coefAt? r.genT j d = some (r.genT.rows[j])[d] := by simp [coefAt?, hj, hd]
  obtain ⟨hissue, hcomplete⟩ :=
    exec_round (i := .gfcoef j d) nofun hx ((checkOf_gfcoef hr hs).trans (if_pos hin))
  refine ⟨_, hissue, rfl, hcomplete.trans ?_⟩
  rw [completeOf_gfcoef (s := s.setCtx s.turn _) hr hv, finish_lookup_idle hx]
  rfl

/-! ## Control -/

section control
variable {s : State} {x : Context} {f : Flight} {r : ReadyRegs} {m : Byte}

/-- `SETMODE` passes its checks exactly with the code of `CAUCHY`. -/
theorem checkOf_setmode (hr : s.engine = .ready r) (hs : s.serialFor (.setmode m)) :
    checkOf (.setmode m) s x =
      if m = 0x00 then .ok (Flight.plainOf (.setmode m)) else .error (.mode m) := by
  rw [checkOf, checkStart_ready hr hs, ok_bind]
  split_ifs with h <;> simp only [h, decide_true, decide_false] <;> rfl

theorem completeOf_setmode (hr : s.engine = .ready r) :
    completeOf (.setmode m) s x f =
      .next { s.finish x .ok with engine := .ready { r with mode := .cauchy } } :=
  withTables_ready hr

end control

/-- Settles O14: both are the last check of their command. -/
theorem wordOperandsOutOfDomainFault : Obligations.WordOperandsOutOfDomainFault := by
  refine ⟨fun j d s x r hx hr hs hout => ?_, fun m s x r hm hx hr hs => ?_⟩
  · have hnot : ¬(j < Config.parityMax ∧ d < s.par.ndMax) := fun ⟨hj, hd⟩ =>
      hout.elim (Nat.not_le_of_lt hj) (Nat.not_le_of_lt hd)
    exact exec_raise nofun hx ((checkOf_gfcoef hr hs).trans (if_neg hnot))
  · exact exec_raise nofun hx ((checkOf_setmode hr hs).trans (if_neg hm))

/-- Settles O19: `SETMODE CAUCHY` passes its checks, and its completion writes `MODE`. -/
theorem setmodeSetsCauchy : Obligations.SetmodeSetsCauchy := by
  intro s x r hx hr hs
  obtain ⟨hissue, hcomplete⟩ :=
    exec_round (i := .setmode 0x00) nofun hx ((checkOf_setmode hr hs).trans (if_pos rfl))
  refine ⟨_, hissue, rfl, hcomplete.trans ?_⟩
  rw [completeOf_setmode (s := s.setCtx s.turn _) hr, finish_launch_idle hx]
  rfl

/-- Slot `n` of a registry written out by `tabulate`. -/
theorem selectSlots_getD {par : Params} {field : Variant → List Nat} {n : Nat} (h1 : 1 ≤ n)
    (h6 : n ≤ Config.parityMax) :
    (selectSlots par field).toList.getD (n - 1) 0 = selectSlot par field n := by
  have hlt : n - 1 < Config.parityMax := by omega
  have hn : n - 1 + 1 = n := Nat.sub_add_cancel h1
  simp [selectSlots, tabulate, List.getD_eq_getElem?_getD, hlt, hn]

/-- Settles O15: `INIT` passes its checks, and the first one gives the engine `initRegs`. -/
theorem firstInitFillsTheTables : Obligations.FirstInitFillsTheTables := by
  intro s x hp hx hu hs
  let f := Flight.plainOf .init
  refine ⟨s.setCtx s.turn (x.launch f), initRegs s.par, exec_init_launch hp hx hs, rfl, ?_, rfl,
    mulAt_mulTable s.par.poly, rfl, fun n h1 h6 => ⟨selectSlots_getD h1 h6, selectSlots_getD h1 h6⟩⟩
  have hcomplete : exec .init (s.setCtx s.turn (x.launch f)) =
      completeOf .init (s.setCtx s.turn (x.launch f)) (x.launch f) f :=
    exec_flight (f := f) hp (State.setCtx_get hx.1 _) rfl
  rw [hcomplete, completeOf, finish_launch_idle hx, State.setCtx_engine, hu]
  rfl

/-- Settles O17: each of these makes the arguments invalid, and `INIT` asks for valid ones first. -/
theorem unfitParametersAreRefused : Obligations.UnfitParametersAreRefused := by
  intro s h
  have hinvalid : ¬s.par.valid = true := by
    intro hv
    obtain ⟨hpoly, hlo, hhi, hsize, hgranule⟩ := Params.valid_iff.1 hv
    rcases h with h | h | h | h | h
    · simp [hpoly] at h
    · exact Nat.not_le_of_lt h hlo
    · exact Nat.not_le_of_lt h hhi
    · exact Nat.ne_of_gt hsize h
    · exact h hgranule
  exact if_neg hinvalid

/-- Variants that do not apply leave a slot as it was. -/
theorem foldl_slot_unchanged {par : Params} {field : Variant → List Nat} {n : Nat}
    {l : List Variant} (h : ∀ u ∈ l, ¬(u.pre.holds par.caps par.word64 = true ∧ n ∈ field u)) (cur : Nat) :
    l.foldl (fun cur v =>
      if v.pre.holds par.caps par.word64 && (field v).contains n then v.id else cur) cur = cur := by
  induction l with
  | nil => rfl
  | cons u l ih =>
    have hu : (u.pre.holds par.caps par.word64 && (field u).contains n) = false := by
      simpa using h u (by simp)
    rw [List.foldl_cons, hu]
    exact ih fun v hv => h v (by simp [hv])

/-- Settles O18: the variant's turn writes its `id`, and none after it applies. -/
theorem lastApplicableVariantWins : Obligations.LastApplicableVariantWins := by
  refine fun par field n => ⟨fun before after v hvars hpre hn hafter => ?_,
    fun h => foldl_slot_unchanged h 0⟩
  have hv : (v.pre.holds par.caps par.word64 && (field v).contains n) = true := by simp [hpre, hn]
  rw [selectSlot, hvars, List.foldl_append, List.foldl_cons, hv]
  exact foldl_slot_unchanged hafter v.id

/-! ## Self-test -/

/-- The self-test passes exactly where each of its checks does (44_selftest.md R230). -/
theorem selftestPasses_iff {par : Params} {r : ReadyRegs} :
    selftestPasses par r = true ↔ ∀ np, 1 ≤ np → np ≤ Config.parityMax →
      genCheck par r np = true ∧ recCheck par r np (fullLoss par np) = true ∧
        recCheck par r np (leadLoss par np) = true ∧ recCheck par r np (trailLoss par np) = true := by
  simp only [selftestPasses, testLosses, List.all_eq_true, List.mem_range'_1, Bool.and_eq_true,
    List.mem_cons, List.not_mem_nil, or_false, forall_eq_or_imp, forall_eq, and_imp]
  refine forall_congr' fun np => forall_congr' fun _ => ?_
  rw [show np < 1 + Config.parityMax ↔ np ≤ Config.parityMax by omega]

theorem checkOf_selftest {s : State} {x : Context} {r : ReadyRegs} (hr : s.engine = .ready r)
    (hs : s.serialFor .selftest) :
    checkOf .selftest s x = .ok (Flight.plainOf .selftest) := by
  simp [checkOf, checkStart_ready hr hs]

theorem completeOf_selftest {s : State} {x : Context} {f : Flight} {r : ReadyRegs}
    (hr : s.engine = .ready r) :
    completeOf .selftest s x f = .next
      { s.finish x (selftestStatus s.par r (Config.allocDraw s.draws)) with draws := s.draws + 1 } :=
  withTables_ready hr

/-- Settles O34: `SELFTEST` passes its checks, and its completion writes the status of the draw and of
every check. -/
theorem selftestReportsItsChecks : Obligations.SelftestReportsItsChecks := by
  intro s x r hx hr hs
  obtain ⟨hissue, hcomplete⟩ := exec_round (i := .selftest) nofun hx (checkOf_selftest hr hs)
  refine ⟨_, (selftestStatus s.par r (Config.allocDraw s.draws)).code, hissue, rfl,
    hcomplete.trans ?_, fun hd => ?_, fun hd => ⟨fun hall => ?_, fun ⟨np, h1, h6, hbad⟩ => ?_⟩⟩
  · rw [completeOf_selftest (s := s.setCtx s.turn _) hr, finish_launch_idle hx]
    rfl
  · simp [hd, selftestStatus, Status.code]
  · simp [hd, selftestStatus, selftestPasses_iff.2 hall, Status.code]
  · have hfail : selftestPasses s.par r = false := by
      rw [← Bool.not_eq_true, selftestPasses_iff]
      intro hall
      obtain ⟨hgen, hfull, hlead, htrail⟩ := hall np h1 h6
      simp [hgen, hfull, hlead, htrail] at hbad
    simp [hd, selftestStatus, hfail, Status.code]

/-! ## Count errors -/

section counts
variable {s : State} {x : Context} {r : ReadyRegs} {i : Instr}

/-- A block command whose checks give an error status goes into flight with an empty footprint and
completes with that status. -/
theorem exec_count_error {st : Status} (hx : s.idleTurn x)
    (hb : ∃ np, i = .genref np ∨ i = .gen np ∨ ∃ nr, i = .recover np nr)
    (hf : checkOf i s x = .ok (Flight.failedOf i st)) :
    ∃ t f, exec i s = .next t ∧ f.cmd = i ∧ f.rd = [] ∧ f.wr = [] ∧
      t = s.setCtx s.turn { x with busy := true, inflight := some f } ∧
      exec i t = .next (s.setCtx s.turn { x with status := some st.code }) := by
  have hi : i ≠ .init := by rintro rfl; simp at hb
  exact ⟨_, Flight.failedOf i st, exec_launch hi hx hf, rfl, rfl, rfl, rfl, exec_failed hi hx hb⟩

/-- Step 4 of the checks: a parity count outside its domain (60_exceptions.md R254). -/
theorem checkOf_parity_count {np : Nat} (hr : s.engine = .ready r) (hs : s.serialFor i)
    (hb : i = .genref np ∨ i = .gen np ∨ ∃ nr, i = .recover np nr) (hnp : np = 0 ∨ Config.parityMax < np) :
    checkOf i s x = .ok (Flight.failedOf i .invalidParityCount) := by
  rcases hb with rfl | rfl | ⟨nr, rfl⟩
  · exact issueGen_ok.2 ⟨⟨r, hr⟩, hs, .inl ⟨hnp, rfl⟩⟩
  · exact issueGen_ok.2 ⟨⟨r, hr⟩, hs, .inl ⟨hnp, rfl⟩⟩
  · exact issueRec_ok.2 ⟨r, hr, hs, .inl ⟨hnp, rfl⟩⟩

end counts

/-- Settles O26: each count error is an error status decided at issue. -/
theorem countErrorsWriteOnlyStatus : Obligations.CountErrorsWriteOnlyStatus := by
  rintro i st s x r hx hr hs (⟨⟨np, hb, hnp⟩, rfl⟩ | ⟨⟨np, nr, rfl, h1, h6, hlt⟩, rfl⟩)
  · exact exec_count_error (st := .invalidParityCount) hx ⟨np, hb⟩ (checkOf_parity_count hr hs hb hnp)
  · exact exec_count_error (st := .unrecoverableLoss) hx ⟨np, .inr (.inr ⟨nr, rfl⟩)⟩
      (issueRec_ok.2 ⟨r, hr, hs, .inr (.inl ⟨h1, h6, hlt, rfl⟩)⟩)

/-! ## What a completion leaves unchanged -/

/-- On a context with a command in flight a step that answers is the completion of that command. -/
theorem completeOf_of_exec {i : Instr} {s t : State} {x : Context} {f : Flight}
    (hx : s.ctxs[s.turn]? = some x) (hf : x.inflight = some f) (h : exec i s = .next t) :
    completeOf i s x f = .next t := by
  have hbusy : ∀ y, ¬s.idleTurn y := by
    rintro y ⟨hy, -, hidle⟩
    obtain rfl : x = y := Option.some.inj (hx.symm.trans hy)
    exact absurd (hidle.symm.trans hf) nofun
  rcases exec_cases h with ⟨y, k, hy, -⟩ | ⟨y, g, hy, -⟩ | ⟨y, g, hy, hg, -, hc⟩
  · exact absurd hy (hbusy y)
  · exact absurd hy (hbusy y)
  · obtain rfl : x = y := Option.some.inj (hx.symm.trans hy)
    obtain rfl : f = g := Option.some.inj (hf.symm.trans hg)
    exact hc

/-- A completion with no destination blocks leaves memory as it was. -/
theorem completed_hm {i : Instr} {s t : State} {x : Context} {f : Flight} (hc : Completed i s t x f)
    (hd : ∀ b, destsOf i b = []) : t.hm = s.hm := by
  rcases hc.hm with he | ⟨b, out, -, -, he⟩
  · exact he
  · rw [he, hd]; rfl

/-- Settles O36: a completion changes its own context, destination blocks, of which there are none, and what
`INIT`, `SETMODE` and `SELFTEST` are for. -/
theorem frameOfCommandsWithoutBlocks : Obligations.FrameOfCommandsWithoutBlocks := by
  intro i s t x f hi hx hf h
  have hc := completeOf_shape (completeOf_of_exec hx hf h)
  have hdests : ∀ b, destsOf i b = [] := by
    rcases hi with rfl | ⟨m, rfl⟩ | ⟨a, b, rfl⟩ | ⟨j, d, rfl⟩ | rfl <;> exact fun _ => rfl
  have hm := completed_hm hc hdests
  obtain ⟨y, st, hy, ht⟩ := hc.context
  refine ⟨hc.faults, hc.par, by simp [ht], fun a => by rw [hm],
    fun c hne => by rw [ht]; exact State.setCtx_get_ne s _ hne, ⟨y.finish st, ?_, ?_⟩, fun hne r hr => ?_,
    fun hne => hc.draws.resolve_right hne⟩
  · rw [ht]; exact State.setCtx_get hx _
  · rcases hy with rfl | ⟨v, rfl, hl⟩
    · exact ⟨rfl, rfl, rfl, rfl, rfl, rfl, rfl, rfl, fun _ _ => rfl⟩
    · refine ⟨rfl, rfl, rfl, rfl, rfl, rfl, rfl, rfl, fun hmul hcoef => ?_⟩
      rcases isLookup_iff.1 hl with ⟨a, b, he⟩ | ⟨j, d, he⟩
      · exact absurd he (hmul a b)
      · exact absurd he (hcoef j d)
  · rcases completed_engine hc with he | ⟨he, -⟩
    · exact ⟨r, he.trans hr, rfl, rfl, rfl, rfl⟩
    · exact absurd he hne

/-- A completion of a block command with captured arguments writes its destination blocks and finishes its
context. -/
theorem completeOf_captured {i : Instr} {s t : State} {x : Context} {f : Flight} {b : BlockArgs}
    (hi : (∃ np, i = .genref np) ∨ (∃ np, i = .gen np) ∨ ∃ np nr, i = .recover np nr)
    (hb : f.args = .blocks b) (h : completeOf i s x f = .next t) :
    b.ok s.par = true ∧
      ∃ out, t = { s.finish x .ok with hm := b.write s.hm (destsOf i b) out } := by
  rcases hi with ⟨np, rfl⟩ | ⟨np, rfl⟩ | ⟨np, nr, rfl⟩
  · obtain ⟨st, hf, -⟩ | ⟨b', r, hf, hok, -, rfl⟩ := completeGen_next h <;> rw [hb] at hf <;> cases hf
    exact ⟨hok, _, rfl⟩
  · obtain ⟨st, hf, -⟩ | ⟨b', r, hf, hok, -, rfl⟩ := completeGen_next h <;> rw [hb] at hf <;> cases hf
    exact ⟨hok, _, rfl⟩
  · obtain ⟨st, hf, -⟩ | ⟨b', r, hf, hok, -, rfl⟩ := completeRec_next h <;> rw [hb] at hf <;> cases hf
    exact ⟨hok, _, rfl⟩

/-- Settles O37: the completion finishes its context and writes the destination blocks, none of which wraps
the address space. -/
theorem frameOfBlockCommands : Obligations.FrameOfBlockCommands := by
  intro i s t x f b hi hm hx hf hb h
  obtain ⟨hok, out, rfl⟩ := completeOf_captured hi hb (completeOf_of_exec hx hf h)
  obtain ⟨-, -, -, -, hsp, -⟩ := BlockArgs.ok_iff.1 hok
  exact ⟨rfl, rfl, rfl, rfl, rfl, fun a ha =>
    BlockArgs.read_write_outside out hm (fun k hk => hsp k (destsOf_lt hok k hk)) ha⟩

/-! ## Host actions -/

section host
variable {s s' : State} {x : Context} {rest : List HostAction}

/-- An access to a register that does not exist stops the model. -/
theorem ifRegister_stops {par : Params} {act : HostAction} {t : State}
    (h : act.wf par.vecCount = false) : ifRegister par act t = .fault .noRegister := by
  simp [ifRegister, h]

/-- A register write by the idle host agent whose turn it is stores the register. -/
theorem step_regWrite {act : HostAction} (hn : s.nextTurn = some s') (hx : s'.idleTurn x)
    (hp : x.prog = act :: rest) (hact : ∀ u y, hostStep u y act = hostRegWrite u y act)
    (hwf : act.wf s.par.vecCount = true) :
    step s = .next (s'.setCtx s'.turn (hostWrite { x with prog := rest } act)) := by
  rw [← nextTurn_par hn] at hwf
  rw [step_idle hn hx hp, hact]
  exact (ifRegister_of hwf).trans (congrArg _ (State.setCtx_setCtx _ _ _ _))

/-- A register read by the idle host agent whose turn it is. -/
theorem step_regRead {q : ReadReg} (hn : s.nextTurn = some s') (hx : s'.idleTurn x)
    (hp : x.prog = .rd q :: rest) :
    step s = ifRegister s.par (.rd q)
      (hostRegReadState (s'.setCtx s'.turn { x with prog := rest }) { x with prog := rest } q) := by
  rw [step_idle hn hx hp, ← nextTurn_par hn]
  rfl

end host

/-- Settles O38: each of the four is a register write, and only an index of `VEC` can be out of range. -/
theorem hostWriteStoresTheRegister : Obligations.HostWriteStoresTheRegister := by
  intro s s' x rest hn hx
  refine ⟨fun v hp => step_regWrite hn hx hp (fun _ _ => rfl) rfl,
    fun v hp => step_regWrite hn hx hp (fun _ _ => rfl) rfl,
    fun k v hp hk => step_regWrite hn hx hp (fun _ _ => rfl) (decide_eq_true hk),
    fun k v hp hk => ?_, fun k v hp => step_regWrite hn hx hp (fun _ _ => rfl) rfl⟩
  rw [← nextTurn_par hn] at hk
  rw [step_idle hn hx hp]
  exact ifRegister_stops (decide_eq_false (Nat.not_lt_of_le hk))

/-- Settles O39: the read answers the register's value, the fault of one that was never written, or that of
`CMD`, which has no value to read. -/
theorem hostReadReturnsTheRegister : Obligations.HostReadReturnsTheRegister := by
  intro s s' x q rest hn hx hp
  have hread : ∀ v, regValue x q = v → regValue { x with prog := rest } q = v := by
    rintro v rfl
    cases q <;> rfl
  rw [step_regRead hn hx hp]
  refine ⟨fun v hwf hv => ?_, fun name hwf hname hv => ?_, ?_,
    fun h => ifRegister_stops (act := .rd q) h⟩
  · rw [ifRegister_of (act := .rd q) hwf]
    have hname : ∃ name, regName q = some name := by
      cases q with
      | cmd => cases hv
      | nd | size | vec | loss | status | result => exact ⟨_, rfl⟩
    obtain ⟨name, hname⟩ := hname
    simp [hostRegReadState, hostRead, hname, hread _ hv, readArg, State.setCtx_setCtx, Context.record]
  · rw [ifRegister_of (act := .rd q) hwf]
    simp [hostRegReadState, hostRead, hname, hread _ hv, readArg]
  · rintro rfl
    exact ifRegister_of rfl

/-- Performing the writes of `LOSS[k]`, `LOSS[k+1]`, ... leaves these registers at the operands and changes
nothing else. -/
theorem foldl_writeLosses (loss : List Nat) (x : Context) (k : Nat)
    (hk : k + loss.length ≤ Config.parityMax) :
    ∃ l' : Vector (Option Half) Config.parityMax,
      (writeLosses k loss).foldl hostWrite x = { x with loss := l' } ∧
        ∀ m (hm : m < Config.parityMax), l'[m] =
          if k ≤ m ∧ m < k + loss.length then some (BitVec.ofNat 16 (loss.getD (m - k) 0)) else x.loss[m] := by
  induction loss generalizing x k with
  | nil => exact ⟨x.loss, rfl, fun m hm => (if_neg (by simp)).symm⟩
  | cons l loss ih =>
    rw [List.length_cons] at hk
    have hlt : k < Config.parityMax := by omega
    obtain ⟨l', hfold, hget⟩ := ih (hostWrite x (.wrLoss ⟨k, hlt⟩ (BitVec.ofNat 16 l))) (k + 1) (by omega)
    refine ⟨l', ?_, fun m hm => ?_⟩
    · rw [writeLosses, dif_pos hlt]
      exact hfold
    · rw [hget m hm]
      rcases Nat.lt_trichotomy m k with h | rfl | h
      · rw [if_neg (by omega), if_neg (by omega)]
        simp [hostWrite, Nat.ne_of_gt h]
      · rw [if_neg (by omega), if_pos (by simp)]
        simp [hostWrite]
      · obtain ⟨d, rfl⟩ := Nat.exists_eq_add_of_lt h
        by_cases hd : d < loss.length
        · rw [if_pos (by omega), if_pos (by simp; omega)]
          simp [show k + d + 1 - (k + 1) = d by omega, show k + d + 1 - k = d + 1 by omega]
        · rw [if_neg (by omega), if_neg (by simp; omega)]
          simp [hostWrite, show k ≠ k + d + 1 by omega]

/-- Settles O41: the expansion is the writes of `LOSS[0]`, `LOSS[1]`, ... -/
theorem setlossWritesTheLossRegisters : Obligations.SetlossWritesTheLossRegisters := by
  intro par x loss hwf
  have hlen : 0 + loss.length ≤ Config.parityMax := by
    simp only [Pseudo.wf, Bool.and_eq_true, decide_eq_true_eq] at hwf
    omega
  obtain ⟨l', hfold, hget⟩ := foldl_writeLosses loss x 0 hlen
  exact ⟨writeLosses 0 loss, if_pos hwf, l', hfold, fun k hk => by simpa using hget k hk⟩

end Sys2Proof.Machine
end

section
/-! SUPPORT. The block commands (41_generation.md, 43_recovery.md section 4): the round of a command whose
arguments pass every check, and the fault of each check (60_exceptions.md R254 steps 5 to 7). -/

namespace Sys2Proof.Machine

/-! ## Commands whose arguments pass their checks -/

section round
variable {s : State} {x : Context} {r : ReadyRegs} {b : BlockArgs} {i : Instr}

/-- The record of a command that writes blocks goes into flight and completes with `STATUS = OK` and
memory `m`, where its completion writes `m`. -/
theorem exec_blocks_round {f : Flight} {m : List Host.Cell} (hi : i ≠ .init) (hx : s.idleTurn x)
    (hf : checkOf i s x = .ok f)
    (hc : completeOf i (s.setCtx s.turn (x.launch f)) (x.launch f) f =
      .next { (s.setCtx s.turn (x.launch f)).finish (x.launch f) .ok with hm := m }) :
    exec i s = .next (s.setCtx s.turn (x.launch f)) ∧
      exec i (s.setCtx s.turn (x.launch f)) =
        .next { s.setCtx s.turn { x with status := some 0x00 } with hm := m } := by
  obtain ⟨hissue, hcomplete⟩ := exec_round hi hx hf
  refine ⟨hissue, hcomplete.trans (hc.trans ?_)⟩
  rw [finish_launch_idle hx]
  rfl

/-- The completion of a `GENREF` with captured arguments (41_generation.md R161). -/
theorem completeOf_genref {np : Nat} (hr : s.engine = .ready r) (hb : b.ok s.par = true) :
    completeOf (.genref np) s x (Flight.genOf (.genref np) b) = .next { s.finish x .ok with
      hm := b.write s.hm b.parity fun k i => refGen r b.nd (b.byte s.hm) (k - b.nd) i } :=
  completeGen_blocks (i := .genref np) (kernel := fun r b data => refGen r b.nd data) hr hb

/-- The completion of a `GEN` with captured arguments (41_generation.md R162). -/
theorem completeOf_gen {np : Nat} (hr : s.engine = .ready r) (hb : b.ok s.par = true) :
    completeOf (.gen np) s x (Flight.genOf (.gen np) b) = .next { s.finish x .ok with
      hm := b.write s.hm b.parity fun k i =>
        kernelGen r (r.genSlotOf b.np) b.nd b.np b.size (b.byte s.hm) (k - b.nd) i } :=
  completeGen_blocks (i := .gen np)
    (kernel := fun r b data => kernelGen r (r.genSlotOf b.np) b.nd b.np b.size data) hr hb

/-- The completion of a `REC` with captured arguments (43_recovery.md R210). -/
theorem completeOf_recover {np nr : Nat} (hr : s.engine = .ready r) (hb : b.ok s.par = true) :
    completeOf (.recover np nr) s x (Flight.recOf (.recover np nr) b) = .next { s.finish x .ok with
      hm := b.write s.hm b.loss (kernelRec r b.nd b.np b.size b.loss (b.byte s.hm)) } :=
  completeRec_blocks (i := .recover np nr) hr hb

/-- The arguments a generation command captures are as its completion expects them. -/
theorem holdsBlocks_ok {par : Params} (hd : b.inDomain par) (hl : b.loss = []) (hb : x.holdsBlocks b)
    (hsp : b.inSpace) : b.ok par = true := by
  have ⟨_, _, hvec, _⟩ := hb
  exact BlockArgs.ok_of hd hsp hvec (by simp [hl, lossValid, increasing]) (by simp [hl])
    (Context.holdsBlocks_inRegisters hb (Context.holdsLoss_nil hl))

end round

/-- Settles O20: the arguments meet every condition of an issue, and the completion writes the reference
parity to the parity blocks, which are apart. -/
theorem genrefWritesTheReferenceParity : Obligations.GenrefWritesTheReferenceParity := by
  intro b s x r hx hr hs hm hd hl hb hsp hap hrc
  have hf : checkOf (.genref b.np) s x = .ok (Flight.genOf (.genref b.np) b) :=
    issueGen_ok.2 ⟨⟨r, hr⟩, hs, .inr ⟨b, rfl, hl, hd, hb, hsp, nofun, hap, hrc, rfl⟩⟩
  obtain ⟨hissue, hcomplete⟩ := exec_blocks_round (i := .genref b.np) nofun hx hf
    (completeOf_genref (s := s.setCtx s.turn _) hr (holdsBlocks_ok hd hl hb hsp))
  obtain ⟨hin, hout⟩ := BlockArgs.write_parity
    (out := fun k i => refGen r b.nd (b.byte s.hm) (k - b.nd) i) hm hsp hap
  refine ⟨_, _, hissue, rfl, hcomplete, fun j i hj hi => (hin j i hj hi).trans ?_, hout⟩
  rw [Nat.add_sub_cancel_left]
  rfl

/-- Settles O21: as for `GENREF`, with the kernel of the slot. -/
theorem genWritesTheKernelParity : Obligations.GenWritesTheKernelParity := by
  intro b s x r hx hr hs hm hd hl hb hsp hal hap hrc
  have hf : checkOf (.gen b.np) s x = .ok (Flight.genOf (.gen b.np) b) :=
    issueGen_ok.2 ⟨⟨r, hr⟩, hs, .inr ⟨b, rfl, hl, hd, hb, hsp, fun _ => hal, hap, hrc, rfl⟩⟩
  obtain ⟨hissue, hcomplete⟩ := exec_blocks_round (i := .gen b.np) nofun hx hf
    (completeOf_gen (s := s.setCtx s.turn _) hr (holdsBlocks_ok hd hl hb hsp))
  obtain ⟨hin, hout⟩ := BlockArgs.write_parity
    (out := fun k i => kernelGen r (r.genSlotOf b.np) b.nd b.np b.size (b.byte s.hm) (k - b.nd) i) hm hsp hap
  refine ⟨_, _, hissue, rfl, hcomplete, fun j i hj hi => (hin j i hj hi).trans ?_, hout⟩
  rw [Nat.add_sub_cancel_left]
  rfl

/-- Settles O24: the arguments meet every condition of an issue, and the completion writes what the kernel
gives to the lost blocks, which are apart. -/
theorem recWritesTheLostBlocks : Obligations.RecWritesTheLostBlocks := by
  intro b s x r hx hr hs hm hd hl hb hlo hsp hal hso hap hrc
  have hf : checkOf (.recover b.np b.loss.length) s x =
      .ok (Flight.recOf (.recover b.np b.loss.length) b) :=
    issueRec_ok.2 ⟨r, hr, hs, .inr (.inr ⟨b, rfl, rfl, hd, hl, hb, hlo, hsp, hal, hso, hap, hrc, rfl⟩)⟩
  have ⟨_, _, hvec, _⟩ := hb
  obtain ⟨-, hnp, hvalid⟩ := hl
  obtain ⟨hissue, hcomplete⟩ := exec_blocks_round (i := .recover b.np b.loss.length) nofun hx hf
    (completeOf_recover (s := s.setCtx s.turn _) hr
      (BlockArgs.ok_of hd hsp hvec hvalid hnp (Context.holdsBlocks_inRegisters hb hlo)))
  obtain ⟨hin, hout⟩ := BlockArgs.write_spec
    (out := kernelRec r b.nd b.np b.size b.loss (b.byte s.hm)) hm hsp (lossValid_lt hvalid) hap
  exact ⟨_, _, hissue, rfl, hcomplete, hin, hout⟩

/-- On valid arguments a portable or conforming generation kernel gives the reference parity
(41_generation.md R164). -/
theorem kernelGen_eq_refGen {par : Params} {r : ReadyRegs} {b : BlockArgs} {v : Nat}
    (hok : b.ok par = true) (hsize : 1 ≤ b.size) (hal : b.aligned par) (hap : b.apart b.parity)
    (hv : v = 0 ∨ genConforms par r v) (m : Nat → Byte) {j i : Nat} (hj : j < b.np) (hi : i < b.size) :
    kernelGen r v b.nd b.np b.size (fun d i => m (b.addr d + i)) j i =
      refGen r b.nd (fun d i => m (b.addr d + i)) j i := by
  obtain ⟨hnp, hmax, hnd, hvec, hsp, -, -, hreg⟩ := BlockArgs.ok_iff.1 hok
  by_cases h0 : v = 0
  · exact if_pos h0
  · rw [kernelGen, if_neg h0]
    exact hv.resolve_left h0 b m j i hreg ⟨hnp, hmax, hnd, hsize⟩ hvec hsp hal hap hj hi

/-- Settles O22: both completions write the parity blocks, with the same bytes. -/
theorem conformingGenMatchesGenref : Obligations.ConformingGenMatchesGenref := by
  intro b s x r hr hm hok hsize hal hap hslot hlen
  have hget : ∀ y, (s.setCtx s.turn y).ctxs[s.turn]? = some y :=
    State.setCtx_get (List.getElem?_eq_getElem hlen)
  have hflight : ∀ f : Flight, f.cmd ≠ .init →
      exec f.cmd (s.setCtx s.turn (x.launch f)) =
        completeOf f.cmd (s.setCtx s.turn (x.launch f)) (x.launch f) f :=
    fun f hi => exec_flight_ne hi (hget _) rfl
  have hbytes : ∀ k ∈ b.parity, ∀ i, i < b.size →
      kernelGen r (r.genSlotOf b.np) b.nd b.np b.size (b.byte s.hm) (k - b.nd) i =
        refGen r b.nd (b.byte s.hm) (k - b.nd) i := by
    intro k hk i hi
    obtain ⟨hlo, hhi⟩ := BlockArgs.mem_parity.1 hk
    exact kernelGen_eq_refGen hok hsize hal hap hslot (memRead s.hm) (by omega) hi
  calc exec (.gen b.np) (s.setCtx s.turn (x.launch (Flight.genOf (.gen b.np) b)))
    _ = .next { s.setCtx s.turn (x.finish .ok) with hm := b.write s.hm b.parity (fun k i =>
          kernelGen r (r.genSlotOf b.np) b.nd b.np b.size (b.byte s.hm) (k - b.nd) i) } := by
        refine (hflight (Flight.genOf (.gen b.np) b) nofun).trans
          ((completeOf_gen (s := s.setCtx s.turn _) hr hok).trans ?_)
        rw [State.finish_launched]
        rfl
    _ = .next { s.setCtx s.turn (x.finish .ok) with hm := b.write s.hm b.parity (fun k i =>
          refGen r b.nd (b.byte s.hm) (k - b.nd) i) } := by
        rw [BlockArgs.write_congr hbytes]
    _ = exec (.genref b.np) (s.setCtx s.turn (x.launch (Flight.genOf (.genref b.np) b))) := by
        refine Eq.symm ((hflight (Flight.genOf (.genref b.np) b) nofun).trans
          ((completeOf_genref (s := s.setCtx s.turn _) hr hok).trans ?_))
        rw [State.finish_launched]
        rfl

/-! ## Argument faults -/

section faults
variable {s : State} {x : Context} {r : ReadyRegs} {i : Instr} {v : BitVec 32} {w : Addr}

theorem readNd_unwritten {par : Params} (h : x.nd = none) : readNd par x = .error (.unwritten .nd) := by
  simp [readNd, h, readArg]

theorem readNd_above {par : Params} (h : x.nd = some v) (hv : par.ndMax < v.toNat) :
    readNd par x = .error (.arg .nd) := by
  simp [readNd, h, readArg, Nat.not_le_of_lt hv]

theorem readNd_some {par : Params} (h : x.nd = some v) (hv : v.toNat ≤ par.ndMax) :
    readNd par x = .ok v.toNat := readNd_ok.2 ⟨v, h, rfl, hv⟩

theorem readSize_unwritten (h : x.size = none) : readSize x = .error (.unwritten .size) := by
  simp [readSize, h, readArg]

theorem readSize_zero (h : x.size = some 0) : readSize x = .error (.arg .size) := by
  simp [readSize, h, readArg]

theorem readSize_some (h : x.size = some w) (hw : 1 ≤ w.toNat) : readSize x = .ok w.toNat :=
  readSize_ok.2 ⟨w, h, rfl, hw⟩

/-- Reading `LOSS` stops at the first register that was never written. -/
theorem readLoss_unwritten {n k : Nat} (hk : k < n) (h : x.loss[k]? = some none)
    (hb : ∀ k', k' < k → ∃ u, x.loss[k']? = some (some u)) :
    readList (readLoss x) (List.range n) = .error (.unwritten (.loss k)) :=
  readList_first hk (by simp [readLoss, h, readArg]) fun j hj =>
    let ⟨u, hu⟩ := hb j hj
    ⟨u.toNat, readLoss_ok.2 ⟨u, hu, rfl⟩⟩

/-- Reading `VEC` stops at the first register that was never written. -/
theorem readVec_unwritten {n k : Nat} (hk : k < n) (h : x.vec[k]? = some none)
    (hb : ∀ k', k' < k → ∃ u, x.vec[k']? = some (some u)) :
    readList (readVec x) (List.range n) = .error (.unwritten (.vec k)) :=
  readList_first hk (by simp [readVec, h, readArg]) fun j hj =>
    let ⟨u, hu⟩ := hb j hj
    ⟨u.toNat, readVec_ok.2 ⟨u, hu, rfl⟩⟩

/-- A fault of the checks of a block command is raised. -/
theorem exec_raise_block {k : ModelFault} (hc : countsOk i) (hx : s.idleTurn x)
    (hf : checkOf i s x = .error k) : exec i s = .next (s.raise (.command (encode i)) k) :=
  exec_raise (countsOk_ne_init hc) hx hf

/-- The third check of a generation command's registers is that of `VEC`. -/
theorem checkOf_readVec_gen {n m : Nat} {k : ModelFault} (hr : s.engine = .ready r)
    (hs : s.serialFor i) (hc : countsOk i) (hl : hasLoss i = false) (hn : readNd s.par x = .ok n)
    (hm : readSize x = .ok m) (h : readList (readVec x) (List.range (n + countOf i)) = .error k) :
    checkOf i s x = .error k := by
  cases i with
  | init | setmode | gfmul | gfcoef | selftest => exact hc.elim
  | recover => cases hl
  | genref np | gen np =>
    rw [countOf] at h
    rw [checkOf, issueGen_eq hr hs hc, hn, ok_bind, hm, ok_bind, h]
    rfl

/-- The third check of a recovery command's registers is that of `LOSS`. -/
theorem checkOf_readLoss {np nr n m : Nat} {k : ModelFault} (hr : s.engine = .ready r)
    (hs : s.serialFor (.recover np nr)) (hc : countsOk (.recover np nr)) (hn : readNd s.par x = .ok n)
    (hm : readSize x = .ok m) (h : readList (readLoss x) (List.range nr) = .error k) :
    checkOf (.recover np nr) s x = .error k := by
  rw [checkOf, issueRec_eq hr hs hc, hn, ok_bind, hm, ok_bind, h]
  rfl

section recover
variable {b : BlockArgs}

/-- The counts of a `REC` with the loss set of `b` are in their domains. -/
theorem countsOk_recover (hd : b.inDomain s.par) (h1 : 1 ≤ b.loss.length) (hnp : b.loss.length ≤ b.np) :
    countsOk (.recover b.np b.loss.length) :=
  ⟨hd.1, hd.2.1, h1, hnp⟩

/-- The checks of a `REC` once its counts, its size and its loss set have been read. -/
theorem checkOf_recover (hr : s.engine = .ready r) (hs : s.serialFor (.recover b.np b.loss.length))
    (hc : countsOk (.recover b.np b.loss.length)) (hd : b.inDomain s.par)
    (hn : ∃ v, x.nd = some v ∧ v.toNat = b.nd) (hm : ∃ v, x.size = some v ∧ v.toNat = b.size)
    (hl : x.holdsLoss b) :
    checkOf (.recover b.np b.loss.length) s x = do
      ensure (lossValid (b.nd + b.np) b.loss) (.arg .loss)
      let vec ← readList (readVec x) (List.range (b.nd + b.np))
      let b : BlockArgs := ⟨b.np, b.nd, b.size, vec, b.loss⟩
      checkWrap b
      checkPlaced s.par true b
      checkSingular r b
      checkOverlap b b.loss
      checkRace s (Flight.recOf (.recover b.np b.loss.length) b)
      return Flight.recOf (.recover b.np b.loss.length) b := by
  obtain ⟨-, -, hnd, hsize⟩ := hd
  obtain ⟨v, hv, hvn⟩ := hn
  obtain ⟨w, hw, hwn⟩ := hm
  rw [checkOf, issueRec_eq hr hs hc, readNd_ok.2 ⟨v, hv, hvn, hnd⟩, ok_bind,
    readSize_ok.2 ⟨w, hw, hwn, hsize⟩, ok_bind, holdsLoss_iff.1 hl, ok_bind]

end recover

end faults

/-- Settles O28: the reads of `ND`, `SIZE`, `LOSS` and `VEC` come in this order, and each read of a list
stops at its first unwritten register. -/
theorem unwrittenArgumentFaults : Obligations.UnwrittenArgumentFaults := by
  refine ⟨fun i s x r hx hr hs hc hnd => ?_, fun i s x r v hx hr hs hc hnd hv hsize => ?_,
    fun np nr s x r v w k hx hr hs hc hnd hv hsize hw hk hun hb => ?_,
    fun i s x r v w k hx hr hs hc hl hnd hv hsize hw hk hun hb => ?_,
    fun b s x r k hx hr hs hd hl hnd hsize hlo hk hun hb => ?_⟩
  · exact exec_raise_block hc hx (checkOf_readNd hr hs hc (readNd_unwritten hnd))
  · exact exec_raise_block hc hx
      (checkOf_readSize hr hs hc (readNd_some hnd hv) (readSize_unwritten hsize))
  · exact exec_raise_block hc hx (checkOf_readLoss hr hs hc (readNd_some hnd hv)
      (readSize_some hsize hw) (readLoss_unwritten hk hun hb))
  · exact exec_raise_block hc hx (checkOf_readVec_gen hr hs hc hl (readNd_some hnd hv)
      (readSize_some hsize hw) (readVec_unwritten hk hun hb))
  · obtain ⟨h1, hnp, hvalid⟩ := hl
    have hc := countsOk_recover hd h1 hnp
    refine exec_raise_block hc hx ?_
    rw [checkOf_recover hr hs hc hd hnd hsize hlo, hvalid, ensure_true, ok_bind,
      readVec_unwritten hk hun hb]
    rfl

/-- Settles O29: the check of `ND` against the columns of `GEN` is part of its read, and so is that of
`SIZE`. -/
theorem argumentsOutOfDomainFault : Obligations.ArgumentsOutOfDomainFault :=
  ⟨fun _ _ _ _ _ hx hr hs hc hnd hv =>
    exec_raise_block hc hx (checkOf_readNd hr hs hc (readNd_above hnd hv)),
  fun _ _ _ _ _ hx hr hs hc hnd hv hsize =>
    exec_raise_block hc hx (checkOf_readSize hr hs hc (readNd_some hnd hv) (readSize_zero hsize))⟩

/-- Settles O27: the count of 0 is refused before any register is read, a bad loss set once `LOSS` is read,
and a singular system once the blocks are placed. -/
theorem badLossSetsFault : Obligations.BadLossSetsFault := by
  refine ⟨fun np s x r hx hr hs h1 h6 => exec_raise nofun hx ?_,
    fun b s x r hx hr hs hd h1 hnp hnd hsize hlo hbad => ?_,
    fun b s x r hx hr hs ha hsp hal hso => ?_⟩
  · rw [checkOf, issueRec, checkStart_ready hr hs, ok_bind, if_neg (by omega), if_neg (by omega)]
    rfl
  · have hc := countsOk_recover hd h1 hnp
    refine exec_raise_block hc hx ?_
    rw [checkOf_recover hr hs hc hd hnd hsize hlo, hbad]
    rfl
  · refine exec_raise_block ha.1 hx ?_
    rw [checkOf_args hr hs ha, checkWrap_ok (u := ()) |>.2 hsp, ok_bind,
      checkPlaced_ok (u := ()) |>.2 fun _ => hal, ok_bind, hasLoss, if_pos rfl, checkSingular_error hso]
    rfl

/-! ## Placement faults -/

/-- Settles O30: the first check on the blocks, which names the first block that wraps. -/
theorem wrappingBlockFaults : Obligations.WrappingBlockFaults := by
  intro i b s x r k hx hr hs ha hk hwrap hbefore
  have hfault : checkWrap b = .error (.arg (.wraps k)) :=
    ensureAll_range hk (decide_eq_false (Nat.not_le_of_lt hwrap)) fun j hj => decide_eq_true (hbefore j hj)
  refine exec_raise_block ha.1 hx ?_
  rw [checkOf_args hr hs ha, hfault]
  rfl

/-- Settles O31: the granule is checked before the alignment, which names the first block. -/
theorem misplacedBlocksFault : Obligations.MisplacedBlocksFault := by
  intro i b s x r hx hr hs ha hsp hcon
  have hraise : ∀ k, checkPlaced s.par true b = .error k →
      exec i s = .next (s.raise (.command (encode i)) k) := by
    intro k hk
    refine exec_raise_block ha.1 hx ?_
    rw [checkOf_args hr hs ha, checkWrap_ok (u := ()) |>.2 hsp, ok_bind, hcon, hk]
    rfl
  refine ⟨fun hsize => hraise _ ?_, fun k hsize hk hoff hbefore => hraise _ ?_⟩
  · simp [checkPlaced, checkGranule, hsize]
  · have hfault : checkAlign s.par b = .error (.arg (.align k)) :=
      ensureAll_range hk (decide_eq_false hoff) fun j hj => decide_eq_true (hbefore j hj)
    simp [checkPlaced, checkGranule, hsize, hfault]

/-- The byte two overlapping blocks share. -/
theorem span_meets_iff {b : BlockArgs} {k k' : Nat} :
    (b.span k).meets (b.span k') = true ↔ ∃ a, b.addr k ≤ a ∧ a < b.addr k + b.size ∧
      b.addr k' ≤ a ∧ a < b.addr k' + b.size := by
  simp only [Span.meets_iff, Span.holds, BlockArgs.span, Bool.and_eq_true, decide_eq_true_eq, and_assoc]

/-- Settles O32: the first check after the blocks are placed names two blocks that overlap. -/
theorem overlappingDestinationFaults : Obligations.OverlappingDestinationFaults := by
  intro i b s x r hx hr hs ha hsp hal hso hap
  obtain ⟨k, k', hk, hk', hne, hmeet, hfault⟩ := checkOverlap_error hap
  refine ⟨k, k', hk, hk', hne, span_meets_iff.1 hmeet, exec_raise_block ha.1 hx ?_⟩
  rw [checkOf_placed hr hs ha hsp hal hso, hfault]
  rfl

/-- Settles O33: the last check names a context whose record conflicts. -/
theorem conflictingFootprintFaults : Obligations.ConflictingFootprintFaults := by
  intro i b s x r hx hr hs ha hsp hal hso hap hrace
  obtain ⟨c, g, hc, hg, hconf, hfault⟩ := checkRace_error hrace
  obtain ⟨a, hbyte⟩ := conflicts_iff.1 hconf
  refine ⟨c, g, a, hc, hg, hbyte, exec_raise_block ha.1 hx ?_⟩
  rw [checkOf_placed hr hs ha hsp hal hso, checkOverlap_ok (u := ()) |>.2 hap, ok_bind, hfault]
  rfl

end Sys2Proof.Machine
end

section
/-! SUPPORT. The field, the linear systems and the guarantees that rest on them (40_field_tables.md R135,
R138, R139, 43_recovery.md R204, R213). -/

namespace Sys2Proof.Machine

/-- Settles O54: `ginv` finds an inverse, and multiplication by a nonzero element can be cancelled. -/
theorem inverseIsUnique : Obligations.InverseIsUnique :=
  fun _ F _ ha => ⟨F.mul_ginv ha, fun _ hb => F.cancel ha (hb.trans (F.mul_ginv ha).symm)⟩

/-! ## Singular matrices -/

section dot
variable {mul : Byte → Byte → Byte} {n : Nat}

/-- The left-hand side of a row looks at the first `n` entries of a point. -/
theorem dot_congr {row : List Byte} {xs ys : Nat → Byte} (h : ∀ b, b < n → xs b = ys b) :
    dot mul n row xs = dot mul n row ys :=
  gsum_map_congr fun b hb => by rw [h b (List.mem_range.1 hb)]

theorem getD_map_range {f : Nat → Byte} {b : Nat} (hb : b < n) :
    ((List.range n).map f).getD b 0 = f b := by
  simp [List.getD_eq_getElem?_getD, hb]

end dot

/-- Settles O56: elimination stops at a column without a pivot exactly if some nonzero point is mapped to
zero; here the points are lists. -/
theorem singularMeansNonzeroKernel : Obligations.SingularMeansNonzeroKernel := by
  intro mul coeffs F hu
  constructor
  · intro hs
    obtain ⟨xs, ⟨b, hb, hne⟩, hker⟩ := kernel_of_singular F hu hs
    refine ⟨(List.range coeffs.length).map xs, by simp,
      ⟨xs b, List.mem_map.2 ⟨b, List.mem_range.2 hb, rfl⟩, hne⟩, fun a ha => ?_⟩
    exact (dot_congr fun b hb => getD_map_range hb).trans (hker a ha)
  · rintro ⟨xs, hlen, ⟨v, hv, hne⟩, hker⟩
    obtain ⟨b, hb, rfl⟩ := List.mem_iff_getElem.1 hv
    exact singular_of_kernel F (xs := fun b => xs.getD b 0) hu (hlen ▸ hb)
      (by rw [List.getD_eq_getElem xs 0 hb]; exact hne) hker

/-! ## The MDS property -/

theorem increasing_of_pairwise {l : List Nat} (h : l.Pairwise (· < ·)) : increasing l = true := by
  induction l with
  | nil => rfl
  | cons a l ih =>
    cases l with
    | nil => rfl
    | cons c l =>
      obtain ⟨hhead, htail⟩ := List.pairwise_cons.1 h
      rw [increasing, Bool.and_eq_true, decide_eq_true_eq]
      exact ⟨hhead c List.mem_cons_self, ih htail⟩

theorem increasing_iff {l : List Nat} : increasing l = true ↔ l.Pairwise (· < ·) :=
  ⟨increasing_pairwise, increasing_of_pairwise⟩

/-- What a valid loss set is (43_recovery.md R200). -/
theorem lossValid_iff {n : Nat} {l : List Nat} :
    lossValid n l = true ↔ l.Pairwise (· < ·) ∧ ∀ k ∈ l, k < n := by
  simp [lossValid, increasing_iff]

section partition
variable {nd np : Nat} {loss : List Nat}

/-- The surviving parity rows used to solve rise (43_recovery.md R202). -/
theorem solveRows_pairwise : (solveRows nd np loss).Pairwise (· < ·) :=
  (List.pairwise_lt_range.filter _).sublist (List.take_sublist _ _)

theorem lostCount_le : lostCount nd loss ≤ loss.length := List.length_filter_le _ _

end partition

/-- Settles O60: the rows and columns of the submatrix are a square pick of the table. -/
theorem mdsMakesEveryLossSolvable : Obligations.MdsMakesEveryLossSolvable := by
  intro r par b hgen hmds hd hl
  obtain ⟨-, hnp, hnd, -⟩ := hd
  obtain ⟨-, hcount, hvalid⟩ := hl
  by_cases h0 : lostCount b.nd b.loss = 0
  · exact .inl h0
  · have hlen := solveRows_length (nd := b.nd) hvalid hcount
    have hmax : lostCount b.nd b.loss ≤ Config.parityMax := (lostCount_le.trans hcount).trans hnp
    have hndMax : b.nd ≤ r.genT.ndMax := by rw [hgen]; exact hnd
    refine .inr (hmds (solveRows b.nd b.np b.loss) (lostData b.nd b.loss)
      ⟨hlen, by omega, by omega, increasing_of_pairwise solveRows_pairwise,
        increasing_of_pairwise ((lossValid_iff.1 hvalid).1.filter _), fun j hj => ?_, fun d hd => ?_⟩)
    · exact (mem_solveRows hj).1.trans_le hnp
    · exact (mem_lostData.1 hd).2.trans_le hndMax

section pick
variable {mul : Byte → Byte → Byte} {t : GenTable} {rows cols : List Nat}

/-- The entries of a table in some rows and columns (40_field_tables.md R138). -/
def pick (t : GenTable) (rows cols : List Nat) : List (List Byte) :=
  rows.map fun j => cols.map fun d => coefAt t j d

theorem pick_uniform : Uniform cols.length (pick t rows cols) := by
  intro row hrow
  obtain ⟨j, -, rfl⟩ := List.mem_map.1 hrow
  exact List.length_map _

/-- The left-hand side of a row of a pick. -/
theorem dot_pick {a : Nat} (ha : a < rows.length) (c : Nat → Byte) :
    dot mul cols.length (matRow (pick t rows cols) a) c =
      gsum ((List.range cols.length).map fun i => mul (coefAt t rows[a] (cols.getD i 0)) (c i)) := by
  refine gsum_map_congr fun i hi => ?_
  have hi := List.mem_range.1 hi
  simp [pick, matRow, rowAt, List.getD_eq_getElem?_getD, ha, hi]

end pick

/-- Numbers below `2^8` are told apart by their bytes. -/
theorem ofNat_byte_inj {m n : Nat} (hm : m < 256) (hn : n < 256)
    (h : BitVec.ofNat 8 m = BitVec.ofNat 8 n) : m = n := by
  have hnat := congrArg BitVec.toNat h
  rwa [BitVec.toNat_ofNat, BitVec.toNat_ofNat, Nat.mod_eq_of_lt hm, Nat.mod_eq_of_lt hn] at hnat

/-- The rows `js` below the first of the default table are those of a Cauchy matrix: in as many columns as
there are rows, or one more where the row of ones is with them, they map no nonzero point to zero. -/
theorem defaultCoef_kernel {poly : Poly} (h : polyIrreducible poly = true) {js cols : List Nat}
    (hjs : ∀ j ∈ js, 1 ≤ j ∧ j < Config.parityMax) (hj : js.Nodup)
    (hcols : ∀ d ∈ cols, d < Config.defaultNdMax) (hc : cols.Nodup) {c : Nat → Byte}
    (hz : ∀ j ∈ js, gsum ((List.range cols.length).map fun i =>
      gfmulPoly poly (defaultCoef poly j (cols.getD i 0)) (c i)) = 0x00)
    (hn : cols.length ≤ js.length ∨
      (cols.length ≤ js.length + 1 ∧ gsum ((List.range cols.length).map c) = 0x00)) :
    ∀ i, i < cols.length → c i = 0x00 := by
  have hmax : Config.parityMax = 6 := rfl
  have hcol : ∀ i (hi : i < cols.length), cols.getD i 0 = cols[i] ∧ cols[i] < 251 := fun i hi =>
    ⟨List.getD_eq_getElem cols 0 hi, hcols _ (List.getElem_mem hi)⟩
  refine cauchy_kernel (fieldLaws_gfmulPoly h) (n := cols.length)
    (y := fun i => BitVec.ofNat 8 (cols.getD i 0 + Config.parityMax - 1))
    (fun i hi k hk he => ?_) (js.map fun j => BitVec.ofNat 8 (j - 1))
    (hj.map_on fun a ha b hb he => ?_) (fun x hx i hi he => ?_) (fun x hx => ?_)
    (by rw [List.length_map]; exact hn)
  · obtain ⟨hi', hilt⟩ := hcol i hi
    obtain ⟨hk', hklt⟩ := hcol k hk
    simp only [hi', hk'] at he
    have hik := ofNat_byte_inj (by omega) (by omega) he
    exact (List.Nodup.getElem_inj_iff hc).1 (by omega : cols[i] = cols[k])
  · obtain ⟨ha1, ha6⟩ := hjs a ha
    obtain ⟨hb1, hb6⟩ := hjs b hb
    have hab := ofNat_byte_inj (by omega) (by omega) he
    omega
  · obtain ⟨j, hjm, rfl⟩ := List.mem_map.1 hx
    obtain ⟨h1, h6⟩ := hjs j hjm
    obtain ⟨hi', hilt⟩ := hcol i hi
    simp only [hi'] at he
    have hji := ofNat_byte_inj (by omega) (by omega) he
    omega
  · obtain ⟨j, hjm, rfl⟩ := List.mem_map.1 hx
    rw [← hz j hjm]
    refine gsum_map_congr fun i _ => ?_
    rw [defaultCoef, if_neg (Nat.ne_of_gt (hjs j hjm).1)]

/-- Settles O59: a singular submatrix would map a nonzero point to zero; its rows are Cauchy rows, or the row
of ones and Cauchy rows. -/
theorem defaultTableIsMds : Obligations.DefaultTableIsMds := by
  intro poly hirr rows cols ⟨hlen, _, _, hrinc, hcinc, hrows, hcols⟩
  have hmul : mulAt (mulTable poly) = gfmulPoly poly := funext₂ (mulAt_mulTable poly)
  have F := fieldLaws_gfmulPoly hirr
  have hcnodup : cols.Nodup := (increasing_pairwise hcinc).imp Nat.ne_of_lt
  rw [hmul, ← Bool.not_eq_true]
  intro hs
  have hpick : (pick (defaultGen poly) rows cols).length = cols.length := (List.length_map _).trans hlen
  obtain ⟨c, ⟨b, hb, hne⟩, hker⟩ :=
    kernel_of_singular F (coeffs := pick (defaultGen poly) rows cols) (hpick ▸ pick_uniform) hs
  rw [hpick] at hb hker
  have hz : ∀ j ∈ rows, gsum ((List.range cols.length).map fun i =>
      gfmulPoly poly (defaultCoef poly j (cols.getD i 0)) (c i)) = 0x00 := by
    intro j hj
    obtain ⟨a, ha, rfl⟩ := List.mem_iff_getElem.1 hj
    rw [← hker a (hlen ▸ ha), dot_pick ha]
    refine gsum_map_congr fun i hi => ?_
    have hd : cols.getD i 0 < Config.defaultNdMax := by
      rw [List.getD_eq_getElem cols 0 (List.mem_range.1 hi)]
      exact hcols _ (List.getElem_mem _)
    rw [coefAt_default (hrows _ hj) hd]
  refine hne ?_
  cases rows with
  | nil => exact absurd hb (by rw [← hlen]; exact Nat.not_lt_zero b)
  | cons j js =>
    obtain ⟨hhead, htail⟩ := List.pairwise_cons.1 (increasing_pairwise hrinc)
    have hjs : ∀ k ∈ js, 1 ≤ k ∧ k < Config.parityMax := fun k hk =>
      ⟨Nat.one_le_of_lt (hhead k hk), hrows k (List.mem_cons_of_mem j hk)⟩
    by_cases h0 : j = 0
    · have hsum : gsum ((List.range cols.length).map c) = 0x00 := by
        rw [← hz j List.mem_cons_self]
        refine gsum_map_congr fun i _ => ?_
        rw [defaultCoef, if_pos h0, F.one]
      exact defaultCoef_kernel hirr hjs (htail.imp Nat.ne_of_lt) hcols hcnodup
        (fun k hk => hz k (List.mem_cons_of_mem j hk)) (.inr ⟨hlen.ge, hsum⟩) b hb
    · refine defaultCoef_kernel hirr (js := j :: js) ?_
        ((increasing_pairwise hrinc).imp Nat.ne_of_lt) hcols hcnodup hz (.inl hlen.ge) b hb
      exact List.forall_mem_cons.2 ⟨⟨Nat.pos_of_ne_zero h0, hrows j List.mem_cons_self⟩, hjs⟩

/-! ## The round trip -/

section roundTrip
variable {r : ReadyRegs} {b : BlockArgs}

/-- On arguments that pass the checks of `REC` a portable or conforming recovery kernel gives what `RefRec`
gives (43_recovery.md R211). -/
theorem kernelRec_eq_refRec {par : Params} (hok : b.ok par = true) (hd : b.inDomain par) (hl : b.lossOk)
    (hal : b.aligned par) (hso : b.solvable r) (hap : b.apart b.loss)
    (hv : 1 ≤ lostCount b.nd b.loss → r.recSlotOf (lostCount b.nd b.loss) = 0 ∨
      recConforms par r (r.recSlotOf (lostCount b.nd b.loss)))
    (m : Nat → Byte) {k i : Nat} (hk : k ∈ b.loss) (hi : i < b.size) :
    kernelRec r b.nd b.np b.size b.loss (fun k i => m (b.addr k + i)) k i =
      refRec r b.nd b.np b.loss (fun k i => m (b.addr k + i)) k i := by
  obtain ⟨-, -, -, hvec, hsp, -, -, hreg⟩ := BlockArgs.ok_iff.1 hok
  unfold kernelRec
  split_ifs with h
  · rfl
  · obtain ⟨h0, hslot⟩ := not_or.1 h
    exact (hv (Nat.pos_of_ne_zero h0)).resolve_left hslot b m k i hreg hd hvec hl hsp hal hso hap hk hi

/-- Where the surviving blocks hold data and its reference parity, `RefRec` gives the lost blocks of that
data and parity (43_recovery.md R205, R213). -/
theorem refRec_eq (F : FieldLaws (mulAt r.mul)) {nd np i : Nat} {loss : List Nat}
    {blk data : Nat → Nat → Byte} (hvalid : lossValid (nd + np) loss = true) (hcount : loss.length ≤ np)
    (hso : lostCount nd loss = 0 ∨ singular r.gmul (submatrix r nd np loss) = false)
    (hblk : ∀ k, k < nd + np → k ∉ loss →
      blk k i = if k < nd then data k i else refGen r nd data (k - nd) i) (k : Nat) :
    refRec r nd np loss blk k i = if k < nd then data k i else refGen r nd data (k - nd) i := by
  have hres : ∀ d, d < nd → restored r nd np loss blk i d = data d i := by
    refine fun d hd => restored_eq F hvalid hcount hso (fun d hd hdl => ?_) (fun j hj hjl => ?_) hd
    · rw [hblk d (by omega) hdl, if_pos hd]
    · rw [hblk (nd + j) (by omega) hjl, if_neg (by omega), Nat.add_sub_cancel_left]
  unfold refRec
  split_ifs with hk
  · exact hres k hk
  · exact gsum_map_congr fun d hd => by simp only [hres d (List.mem_range.1 hd)]

end roundTrip

/-- Settles O58: the completion writes what the kernel gives to the lost blocks, which is the data and parity
the surviving blocks determine, and leaves the surviving blocks, which are apart from them. -/
theorem recRestoresGeneratedBlocks : Obligations.RecRestoresGeneratedBlocks := by
  intro b s x r data F hr hm hx hf hok hd hl hal hso hap hslot hsurv
  obtain ⟨-, -, -, -, hsp, hvalid, hcount, -⟩ := BlockArgs.ok_iff.1 hok
  obtain ⟨hin, hout⟩ := BlockArgs.write_spec
    (out := kernelRec r b.nd b.np b.size b.loss (b.byte s.hm)) hm hsp (lossValid_lt hvalid) hap
  refine ⟨_, (exec_flight_ne (f := Flight.recOf (.recover b.np b.loss.length) b) nofun hx hf).trans
    (completeOf_recover hr hok), fun k hk i hi => ?_⟩
  by_cases hkl : k ∈ b.loss
  · calc memRead (b.write s.hm b.loss (kernelRec r b.nd b.np b.size b.loss (b.byte s.hm))) (b.addr k + i)
      _ = kernelRec r b.nd b.np b.size b.loss (b.byte s.hm) k i := hin k hkl i hi
      _ = refRec r b.nd b.np b.loss (b.byte s.hm) k i :=
          kernelRec_eq_refRec hok hd hl hal hso hap (fun _ => hslot) (memRead s.hm) hkl hi
      _ = if k < b.nd then data k i else refGen r b.nd data (k - b.nd) i :=
          refRec_eq F hvalid hcount hso (fun k hk hkl => hsurv k hk hkl i hi) k
  · rw [← hsurv k hk hkl i hi]
    exact hout _ fun k' hk' =>
      fun hbyte => BlockArgs.apart_disjoint hap hk' hk (fun he => hkl (he ▸ hk')) hbyte (by omega)

/-! ## The self-test on conforming kernels -/

section scenario
variable {par : Params} {vec : List Nat}

/-- The arguments of a self-test scenario whose blocks are placed at `vec` (44_selftest.md R231). -/
def testArgs (par : Params) (vec : List Nat) (np : Nat) (loss : List Nat) : BlockArgs :=
  ⟨np, par.stNd, par.stSize, vec.take (par.stNd + np), loss⟩

/-- A memory that holds byte `i` of block `k` at `vec[k] + i`. -/
def placedByte (vec : List Nat) (size : Nat) (data : Nat → Nat → Byte) (a : Nat) : Byte :=
  match (List.range vec.length).find? fun k => decide (vec.getD k 0 ≤ a ∧ a < vec.getD k 0 + size) with
  | some k => data k (a - vec.getD k 0)
  | none => 0x00

/-- Blocks placed apart share no byte. -/
theorem placed_apart {size : Nat} (hap : vec.Pairwise fun a a' => a + size ≤ a' ∨ a' + size ≤ a)
    {k k' : Nat} (hk : k < vec.length) (hk' : k' < vec.length) (hne : k ≠ k') :
    vec.getD k 0 + size ≤ vec.getD k' 0 ∨ vec.getD k' 0 + size ≤ vec.getD k 0 := by
  rw [List.getD_eq_getElem vec 0 hk, List.getD_eq_getElem vec 0 hk']
  rw [List.pairwise_iff_getElem] at hap
  rcases Nat.lt_or_gt_of_ne hne with hlt | hgt
  · exact hap k k' hk hk' hlt
  · exact (hap k' k hk' hk hgt).symm

theorem placedByte_eq {size : Nat} {data : Nat → Nat → Byte}
    (hap : vec.Pairwise fun a a' => a + size ≤ a' ∨ a' + size ≤ a) {k i : Nat} (hk : k < vec.length)
    (hi : i < size) : placedByte vec size data (vec.getD k 0 + i) = data k i := by
  have hfind : (List.range vec.length).find? (fun k' =>
      decide (vec.getD k' 0 ≤ vec.getD k 0 + i ∧ vec.getD k 0 + i < vec.getD k' 0 + size)) = some k := by
    refine List.find?_range_eq_some.2 ⟨decide_eq_true ⟨by omega, by omega⟩, List.mem_range.2 hk, ?_⟩
    intro j hj
    have := placed_apart hap (hj.trans hk) hk (Nat.ne_of_lt hj)
    simp only [Bool.not_eq_true', decide_eq_false_iff_not]
    omega
  rw [placedByte, hfind]
  simp

/-- What makes a list of addresses a placement of the self-test's blocks (44_selftest.md R231). -/
structure Params.Places (par : Params) (vec : List Nat) : Prop where
  length : vec.length = par.stNd + Config.parityMax
  aligned : ∀ a ∈ vec, a % par.blockAlign = 0
  fits : ∀ a ∈ vec, a + par.stSize ≤ 2 ^ Config.addrW
  apart : vec.Pairwise fun a a' => a + par.stSize ≤ a' ∨ a' + par.stSize ≤ a

variable {np : Nat} {loss : List Nat}

theorem testArgs_inDomain (hv : par.valid = true) (h1 : 1 ≤ np)
    (hnp : np ≤ Config.parityMax) :
    (testArgs par vec np loss).inDomain par := by
  obtain ⟨-, -, hnd, hsize, -⟩ := Params.valid_iff.1 hv
  exact ⟨h1, hnp, hnd, hsize⟩

section placed
variable (hpl : par.Places vec) (hnp : np ≤ Config.parityMax)
include hpl hnp

theorem testArgs_addr {k : Nat} (hk : k < par.stNd + np) :
    k < vec.length ∧ (testArgs par vec np loss).addr k = vec.getD k 0 ∧ vec.getD k 0 ∈ vec := by
  have hlt : k < vec.length := by rw [hpl.length]; omega
  refine ⟨hlt, ?_, ?_⟩
  · simp [testArgs, BlockArgs.addr, List.getD_eq_getElem?_getD, hk]
  · rw [List.getD_eq_getElem vec 0 hlt]
    exact List.getElem_mem hlt

theorem testArgs_inSpace : (testArgs par vec np loss).inSpace := by
  intro k hk
  obtain ⟨-, haddr, hmem⟩ := testArgs_addr (loss := loss) hpl hnp hk
  rw [haddr]
  exact hpl.fits _ hmem

theorem testArgs_aligned (hv : par.valid = true) : (testArgs par vec np loss).aligned par := by
  obtain ⟨-, -, -, -, hgranule⟩ := Params.valid_iff.1 hv
  refine ⟨hgranule, fun k hk => ?_⟩
  obtain ⟨-, haddr, hmem⟩ := testArgs_addr (loss := loss) hpl hnp hk
  rw [haddr]
  exact hpl.aligned _ hmem

/-- No two blocks of a scenario overlap. -/
theorem testArgs_apart {dests : List Nat} (hd : ∀ k ∈ dests, k < par.stNd + np) :
    (testArgs par vec np loss).apart dests := by
  intro k hk k' hk' hne
  obtain ⟨hlt, haddr, -⟩ := testArgs_addr (loss := loss) hpl hnp (hd k hk)
  obtain ⟨hlt', haddr', -⟩ := testArgs_addr (loss := loss) hpl hnp hk'
  have hap := placed_apart hpl.apart hlt hlt' hne.symm
  rw [← Bool.not_eq_true, span_meets_iff, haddr, haddr']
  rintro ⟨a, h1, h2, h3, h4⟩
  have hs : (testArgs par vec np loss).size = par.stSize := rfl
  omega

/-- The blocks of a scenario hold any data wanted of them in some memory. -/
theorem testArgs_byte (data : Nat → Nat → Byte) {k i : Nat} (hk : k < par.stNd + np)
    (hi : i < par.stSize) :
    placedByte vec par.stSize data ((testArgs par vec np loss).addr k + i) = data k i := by
  obtain ⟨hlt, haddr, -⟩ := testArgs_addr (loss := loss) hpl hnp hk
  rw [haddr]
  exact placedByte_eq hpl.apart hlt hi

/-- Two blocks of a scenario fit in the address space side by side, so a size fits its register. -/
theorem testArgs_inRegisters (hv : par.valid = true) (hfit : par.stNd + Config.parityMax ≤ 2 ^ 16)
    (hl : ∀ k ∈ loss, k < par.stNd + np) : (testArgs par vec np loss).inRegisters = true := by
  obtain ⟨-, hlo, -, hsize, -⟩ := Params.valid_iff.1 hv
  have hmax : Config.parityMax = 6 := rfl
  have hnd : (testArgs par vec np loss).nd = par.stNd := rfl
  have hst : (testArgs par vec np loss).size = par.stSize := rfl
  refine BlockArgs.inRegisters_iff.2 ⟨by omega, ?_, fun k hk => ?_⟩
  · obtain ⟨hlt0, -, hmem0⟩ := testArgs_addr (loss := loss) hpl hnp (k := 0) (by omega)
    obtain ⟨hlt1, -, hmem1⟩ := testArgs_addr (loss := loss) hpl hnp (k := 1) (by omega)
    have hap := placed_apart hpl.apart hlt0 hlt1 Nat.zero_ne_one
    have h0 := hpl.fits _ hmem0
    have h1 := hpl.fits _ hmem1
    omega
  · have := hl k hk
    omega

theorem testArgs_ok (hv : par.valid = true) (hfit : par.stNd + Config.parityMax ≤ 2 ^ 16) (h1 : 1 ≤ np)
    (hl : lossValid (par.stNd + np) loss = true) (hc : loss.length ≤ np) :
    (testArgs par vec np loss).ok par = true := by
  have hlen : (testArgs par vec np loss).vec.length = par.stNd + np := by
    rw [testArgs, List.length_take, hpl.length]
    omega
  exact BlockArgs.ok_of (testArgs_inDomain hv h1 hnp) (testArgs_inSpace hpl hnp) hlen hl hc
    (testArgs_inRegisters hpl hnp hv hfit (lossValid_lt hl))

/-- A portable or conforming generation kernel passes its check (44_selftest.md R234). -/
theorem genCheck_of_conforms {r : ReadyRegs} (hv : par.valid = true)
    (hfit : par.stNd + Config.parityMax ≤ 2 ^ 16) (h1 : 1 ≤ np)
    (hslot : r.genSlotOf np = 0 ∨ genConforms par r (r.genSlotOf np)) : genCheck par r np = true := by
  let b := testArgs par vec np []
  have hok : b.ok par = true := testArgs_ok hpl hnp hv hfit h1 rfl (Nat.zero_le np)
  obtain ⟨-, -, -, hsize, -⟩ := Params.valid_iff.1 hv
  have hap : b.apart b.parity := testArgs_apart hpl hnp fun k hk => (BlockArgs.mem_parity.1 hk).2
  have hdata : ∀ d, d < par.stNd → ∀ i, i < par.stSize →
      testData r d i = placedByte vec par.stSize (testData r) (b.addr d + i) := fun d hd i hi =>
    (testArgs_byte hpl hnp (testData r) (hd.trans_le (Nat.le_add_right _ _)) hi).symm
  simp only [genCheck, List.all_eq_true, List.mem_range, beq_iff_eq]
  intro j hj i hi
  calc kernelGen r (r.genSlotOf np) par.stNd np par.stSize (testData r) j i
    _ = kernelGen r (r.genSlotOf np) b.nd b.np b.size
          (fun d i => placedByte vec par.stSize (testData r) (b.addr d + i)) j i :=
        kernelGen_congr hdata hi
    _ = refGen r b.nd (fun d i => placedByte vec par.stSize (testData r) (b.addr d + i)) j i :=
        kernelGen_eq_refGen hok hsize (testArgs_aligned hpl hnp hv) hap hslot _ hj hi
    _ = refGen r par.stNd (testData r) j i :=
        gsum_map_congr fun d hd => by simp only [hdata d (List.mem_range.1 hd) i hi]
    _ = testVector par r (par.stNd + j) i := by
        rw [testVector, if_neg (by omega), Nat.add_sub_cancel_left]

/-- A portable or conforming recovery kernel passes its check on a loss set that can be solved
(44_selftest.md R238). -/
theorem recCheck_of_conforms {r : ReadyRegs} (hv : par.valid = true)
    (hfit : par.stNd + Config.parityMax ≤ 2 ^ 16) (h1 : 1 ≤ np) (F : FieldLaws (mulAt r.mul))
    (hl : lossValid (par.stNd + np) loss = true) (hl1 : 1 ≤ loss.length) (hc : loss.length ≤ np)
    (hso : singular r.gmul (submatrix r par.stNd np loss) = false)
    (hslot : ∀ n, 1 ≤ n → n ≤ Config.parityMax → r.recSlotOf n = 0 ∨ recConforms par r (r.recSlotOf n)) :
    recCheck par r np loss = true := by
  let b := testArgs par vec np loss
  let blk := fun k i => placedByte vec par.stSize (testVector par r) (b.addr k + i)
  have hok : b.ok par = true := testArgs_ok hpl hnp hv hfit h1 hl hc
  have hblk : ∀ k, k < par.stNd + np → ∀ i, i < par.stSize → blk k i = testVector par r k i :=
    fun k hk i hi => testArgs_byte hpl hnp (testVector par r) hk hi
  have hlost : ∀ k, k < par.stNd + np → k ∉ loss → ∀ i, i < par.stSize →
      lostVector par r loss k i = blk k i := by
    intro k hk hkl i hi
    rw [hblk k hk i hi, lostVector, if_neg (by simpa using hkl)]
  simp only [recCheck, List.all_eq_true, List.mem_range, beq_iff_eq]
  intro k hk i hi
  calc kernelRec r par.stNd np par.stSize loss (lostVector par r loss) k i
    _ = kernelRec r b.nd b.np b.size b.loss blk k i := kernelRec_congr hl hc hlost k hi
    _ = refRec r b.nd b.np b.loss blk k i :=
        kernelRec_eq_refRec hok (testArgs_inDomain hv h1 hnp) ⟨hl1, hc, hl⟩
          (testArgs_aligned hpl hnp hv) (.inr hso) (testArgs_apart hpl hnp (lossValid_lt hl))
          (fun hn => hslot _ hn ((lostCount_le.trans hc).trans hnp)) _ hk hi
    _ = testVector par r k i :=
        refRec_eq F hl hc (.inr hso) (fun k hk _ => hblk k hk i hi) k

end placed

/-- The loss sets the self-test tries are valid ones of `np` elements (44_selftest.md R235 to R237). -/
theorem testLosses_valid (hnd : np ≤ par.stNd) (hl : loss ∈ testLosses par np) :
    lossValid (par.stNd + np) loss = true ∧ loss.length = np := by
  have hhalf : halfUp np ≤ np := by unfold halfUp; omega
  have hsplit : ∀ a, halfUp np ≤ a → a + (np - halfUp np) ≤ par.stNd + np →
      lossValid (par.stNd + np) (List.range (halfUp np) ++ List.range' a (np - halfUp np)) = true ∧
        (List.range (halfUp np) ++ List.range' a (np - halfUp np)).length = np := by
    intro a hlo hhi
    refine ⟨lossValid_iff.2 ⟨List.pairwise_append.2 ⟨List.pairwise_lt_range, List.pairwise_lt_range',
      fun c hc d hd => ?_⟩, fun k hk => ?_⟩, by simp; omega⟩
    · have hc := List.mem_range.1 hc
      have hd := List.mem_range'_1.1 hd
      omega
    · rcases List.mem_append.1 hk with hk | hk
      · have hk := List.mem_range.1 hk
        omega
      · have hk := List.mem_range'_1.1 hk
        omega
  simp only [testLosses, List.mem_cons, List.not_mem_nil, or_false] at hl
  rcases hl with rfl | rfl | rfl
  · refine ⟨lossValid_iff.2 ⟨List.pairwise_lt_range', fun k hk => ?_⟩, List.length_range'⟩
    have hk := List.mem_range'_1.1 hk
    omega
  · exact hsplit par.stNd (hhalf.trans hnd) (by omega)
  · exact hsplit (par.stNd + halfUp np) (Nat.le_add_left _ _) (by omega)

end scenario

/-- Settles O35: each scenario of the self-test is a valid input of the kernels in some memory, where a
portable or conforming kernel gives what the reference gives, and that passes the check. -/
theorem selftestPassesOnConformingKernels : Obligations.SelftestPassesOnConformingKernels := by
  intro par r hv hfits F hso hgen hrec
  obtain ⟨hfit, vec, hlen, hplace, hap⟩ := hfits
  have hpl : par.Places vec := ⟨hlen, fun a ha => (hplace a ha).1, fun a ha => (hplace a ha).2, hap⟩
  obtain ⟨-, hlo, -⟩ := Params.valid_iff.1 hv
  have hloss : ∀ np, 1 ≤ np → np ≤ Config.parityMax → ∀ loss ∈ testLosses par np,
      recCheck par r np loss = true := by
    intro np h1 h6 loss hl
    obtain ⟨hvalid, hlen⟩ := testLosses_valid (h6.trans hlo) hl
    exact recCheck_of_conforms hpl h6 hv hfit h1 F hvalid (hlen ▸ h1) hlen.le (hso np h1 h6 loss hl) hrec
  have hpass : selftestPasses par r = true := selftestPasses_iff.2 fun np h1 h6 =>
    ⟨genCheck_of_conforms hpl h6 hv hfit h1 (hgen np h1 h6), hloss np h1 h6 _ (by simp [testLosses]),
      hloss np h1 h6 _ (by simp [testLosses]), hloss np h1 h6 _ (by simp [testLosses])⟩
  refine ⟨hpass, fun drawn => ?_⟩
  cases drawn with
  | true => exact .inl (by simp [selftestStatus, hpass])
  | false => exact .inr rfl

end Sys2Proof.Machine
end
